-- ==== Sys2Proof/Word.lean ====
section
/-! DEFINITION. The words HUFF-DP moves: 32-bit register words (10_state.md R32), bytes of the buffers
(20_memory.md R86), the 9-bit slot index (10_state.md R47) and the slots that exist (R60). -/

namespace Sys2Proof

/-- A register word: 32 bits, bit 0 least significant (00_scope.md R9). -/
abbrev Word := BitVec 32

/-- A byte of IBUF or OBUF, and a symbol 0..255 (00_scope.md R3). -/
abbrev Byte := BitVec 8

/-- A 9-bit slot index as a register or a node word holds it; 0x1FF is NIL (00_scope.md R3). -/
abbrev SlotIndex := BitVec 9

/-- A tree-memory slot that exists: 0..510 (10_state.md R60). -/
abbrev Slot := Fin 511

end Sys2Proof
end

