-- ==== Sys2Proof/Syntax.lean ====
section
/-! DEFINITION. The commands of HUFF-DP, one constructor per row of the opcode map (30_encoding.md R111).
A command carries no immediate and no register number: it takes its operands from registers (R113). -/

namespace Sys2Proof

/-- The eleven commands (30_encoding.md R111). -/
inductive Instr where
  /-- NOP, 40_control.md R150. -/
  | nop
  /-- TABLE_CLEAR, 43_code_table.md R220. -/
  | tableClear
  /-- TABLE_WR, 43_code_table.md R221. -/
  | tableWr
  /-- TABLE_RD, 43_code_table.md R222. -/
  | tableRd
  /-- TREE_CLEAR, 41_tree_assign.md R170. -/
  | treeClear
  /-- NODE_WR, 41_tree_assign.md R171. -/
  | nodeWr
  /-- NODE_RD, 41_tree_assign.md R172. -/
  | nodeRd
  /-- ASSIGN, 41_tree_assign.md R173. -/
  | assign
  /-- BUILD, 43_code_table.md R224. -/
  | build
  /-- ENCODE, 42_encode.md R200. -/
  | encode
  /-- DECODE, 44_decode.md R250. -/
  | decode
  deriving DecidableEq, Repr

end Sys2Proof
end

