-- ==== Sys2Proof/Decode.lean ====
section
/-! DEFINITION. From a command word to a command and back (30_encoding.md R110 to R112, 40_control.md R149).
The decoder is total on every word and rejects by name. -/

namespace Sys2Proof

/-- Why a word is no command (30_encoding.md R112). Neither stops the machine: such a word is issued and
completes with ILLEGAL_CMD. -/
inductive IllegalWord where
  /-- RSVD, bits 31:8, is not 0. -/
  | reservedBits
  /-- OPCODE, bits 7:0, is in 0x0B..0xFF. -/
  | opcodeOutsideMap
  deriving DecidableEq, Repr

/-- RSVD, bits 31:8 of a command word (30_encoding.md R110). -/
def rsvdField (w : Word) : BitVec 24 := w.extractLsb' 8 24

/-- OPCODE, bits 7:0 of a command word (30_encoding.md R110). -/
def opcodeField (w : Word) : Byte := w.extractLsb' 0 8

/-- The command of an OPCODE, where the map has one (30_encoding.md R111). -/
def instrOfOpcode (op : Byte) : Option Instr :=
  match op.toNat with
  | 0x00 => some .nop
  | 0x01 => some .tableClear
  | 0x02 => some .tableWr
  | 0x03 => some .tableRd
  | 0x04 => some .treeClear
  | 0x05 => some .nodeWr
  | 0x06 => some .nodeRd
  | 0x07 => some .assign
  | 0x08 => some .build
  | 0x09 => some .encode
  | 0x0A => some .decode
  | _ => none

/-- The command a word selects, or why it selects none: RSVD is looked at first, as Execute does
(40_control.md R149). -/
def decode (w : Word) : Except IllegalWord Instr :=
  if rsvdField w ≠ 0 then .error .reservedBits
  else
    match instrOfOpcode (opcodeField w) with
    | some i => .ok i
    | none => .error .opcodeOutsideMap

/-- The OPCODE of a command (30_encoding.md R111), which is also what LOCKED records in ERR_INFO
(60_exceptions.md R300). -/
def Instr.opcode : Instr → Byte
  | .nop => 0x00
  | .tableClear => 0x01
  | .tableWr => 0x02
  | .tableRd => 0x03
  | .treeClear => 0x04
  | .nodeWr => 0x05
  | .nodeRd => 0x06
  | .assign => 0x07
  | .build => 0x08
  | .encode => 0x09
  | .decode => 0x0A

/-- The command word of a command: RSVD = 0 above its OPCODE (30_encoding.md R110). -/
def encode (i : Instr) : Word := (0 : BitVec 24) ++ i.opcode

/-- The one command word that an instruction of `nbits` table bits with value `w` stands for: the bits above
`nbits` are 0 (log 19). -/
def tableWord (nbits w : Nat) : Word := BitVec.ofNat 32 (w % 2 ^ nbits)

/-- What the decoder reads from an instruction of the opcode table. A command is one 32-bit word
(30_encoding.md R110), so a row of more than 32 bits is none (log 19). -/
def decodeTableWord (nbits w : Nat) : Option Instr :=
  if nbits ≤ 32 then
    match decode (tableWord nbits w) with
    | .ok i => some i
    | .error _ => none
  else none

end Sys2Proof
end

