-- ==== Sys2Proof/Config.lean ====
section
/-! DEFINITION. What an implementation of HUFF-DP fixes (the open parameters of 00_scope.md R4), and the
free values: constants without a body, so that nothing can be proved of the value one of them has. -/

namespace Sys2Proof

/-- The three open parameters of 00_scope.md R4. `page` gives BASE, any 256-byte-aligned host address.
`ibufLast` and `obufLast` are the last byte indices of the buffers, so that the capacities are exactly the
legal values 1 .. 2^24. DESIGN CHOICE (log 4): the encoding by last index. -/
structure Config where
  page : Nat
  ibufLast : BitVec 24
  obufLast : BitVec 24
  deriving DecidableEq, Repr, Inhabited

/-- BASE: the host bus address of register offset 0 (00_scope.md R4, 20_memory.md R81). -/
def Config.base (c : Config) : Nat := 256 * c.page

/-- IBUF_BYTES, in 1 .. 2^24 (00_scope.md R4). -/
def Config.ibufBytes (c : Config) : Nat := c.ibufLast.toNat + 1

/-- OBUF_BYTES, in 1 .. 2^24 (00_scope.md R4). -/
def Config.obufBytes (c : Config) : Nat := c.obufLast.toNat + 1

/-- The parameters of the block that `State.reset` is a reset of. Free (log 4). -/
opaque Config.params : Config

/-- What IBUF byte `a` holds after reset number `e` until something writes it: a draw per byte
(10_state.md R61, 93_implementation_defined.md U2). Free (log 5). -/
opaque Config.ibufDraw (e a : Nat) : Byte

/-- What OBUF byte `a` holds after reset number `e` until something writes it: a draw per byte
(10_state.md R62, 93_implementation_defined.md U2). Free (log 5). -/
opaque Config.obufDraw (e a : Nat) : Byte

/-- What the `n`-th undefined read while BUSY = 1 returns: an unconstrained 32-bit value
(40_control.md R144, 93_implementation_defined.md U1). Free (log 6). -/
opaque Config.busyRead (n : Nat) : Word

end Sys2Proof
end

