-- ==== Sys2Proof/Machine/Bus.lean ====
section
/-! DEFINITION. The register window as the host sees it: register names and offsets (10_state.md R32), bus
accesses (30_encoding.md R118, 40_control.md R140), what the world outside can do, and the two agents. -/

namespace Sys2Proof.Machine

/-- The two byte buffers with a data port (10_state.md R61, R62). -/
inductive Buf where
  | ibuf
  | obuf
  deriving DecidableEq, Repr

/-- The registers of the window, by name (10_state.md R32). -/
inductive Reg where
  | id
  | version
  | ctrl
  | status
  | cmd
  | errCode
  | errInfo
  | inLen
  | bitLen
  | outLen
  | sym
  | codeLen
  | codeW (k : Fin 8)
  | nodeIdx
  | nodeData
  | root
  | nodeCount
  | symCount
  | bufAddr (b : Buf)
  | bufData (b : Buf)
  | bufSize (b : Buf)
  deriving DecidableEq, Repr

/-- The byte offset of a register from BASE (10_state.md R32). -/
def Reg.offset : Reg → Nat
  | .id => 0x00
  | .version => 0x04
  | .ctrl => 0x08
  | .status => 0x0C
  | .cmd => 0x10
  | .errCode => 0x14
  | .errInfo => 0x18
  | .inLen => 0x1C
  | .bitLen => 0x20
  | .outLen => 0x24
  | .sym => 0x28
  | .codeLen => 0x2C
  | .codeW k => 0x30 + 4 * k.val
  | .nodeIdx => 0x50
  | .nodeData => 0x54
  | .root => 0x58
  | .nodeCount => 0x5C
  | .symCount => 0x60
  | .bufAddr .ibuf => 0x64
  | .bufData .ibuf => 0x68
  | .bufAddr .obuf => 0x6C
  | .bufData .obuf => 0x70
  | .bufSize .ibuf => 0x74
  | .bufSize .obuf => 0x78

/-- The register at a byte offset, none at a reserved one (10_state.md R32). -/
def regAt (off : Nat) : Option Reg :=
  match off with
  | 0x00 => some .id
  | 0x04 => some .version
  | 0x08 => some .ctrl
  | 0x0C => some .status
  | 0x10 => some .cmd
  | 0x14 => some .errCode
  | 0x18 => some .errInfo
  | 0x1C => some .inLen
  | 0x20 => some .bitLen
  | 0x24 => some .outLen
  | 0x28 => some .sym
  | 0x2C => some .codeLen
  | 0x30 => some (.codeW 0)
  | 0x34 => some (.codeW 1)
  | 0x38 => some (.codeW 2)
  | 0x3C => some (.codeW 3)
  | 0x40 => some (.codeW 4)
  | 0x44 => some (.codeW 5)
  | 0x48 => some (.codeW 6)
  | 0x4C => some (.codeW 7)
  | 0x50 => some .nodeIdx
  | 0x54 => some .nodeData
  | 0x58 => some .root
  | 0x5C => some .nodeCount
  | 0x60 => some .symCount
  | 0x64 => some (.bufAddr .ibuf)
  | 0x68 => some (.bufData .ibuf)
  | 0x6C => some (.bufAddr .obuf)
  | 0x70 => some (.bufData .obuf)
  | 0x74 => some (.bufSize .ibuf)
  | 0x78 => some (.bufSize .obuf)
  | _ => none

/-- Whether an access reads or writes, and the word it writes. -/
inductive Dir where
  | read
  | write (d : Word)
  deriving DecidableEq, Repr

/-- One host bus access: a host address, a width in bits, a number of beats (1: a single access, more: a
burst) and a direction. Only some shapes have a meaning (40_control.md R140). -/
structure Access where
  addr : Nat
  bits : Nat
  beats : Nat
  dir : Dir
  deriving DecidableEq, Repr

/-- What the world outside does next (log 2). -/
inductive Input where
  /-- One host access (00_scope.md R7). -/
  | access (a : Access)
  /-- The host's loop WAIT: RD STATUS repeated until BUSY reads 0, one read a host step (30_encoding.md R119;
  log 12). -/
  | wait
  /-- The reset input is asserted (70_reset_and_hazards.md R340; log 13). -/
  | reset
  deriving DecidableEq, Repr

/-- The two agents (00_scope.md R6). -/
inductive Agent where
  | host
  | engine
  deriving DecidableEq, Repr

end Sys2Proof.Machine
end

