-- ==== Sys2Proof/Machine/Memory.lean ====
section
/-! DEFINITION. A byte buffer as plain data: the bytes written since reset, by index, strictly rising. An index
that is not listed holds no value here; what a read of it gives is said in Machine/Ops.lean (log 5). -/

namespace Sys2Proof.Machine

/-- The bytes of one buffer (10_state.md R61, R62) that something has written since reset. -/
abbrev Memory := List Host.Cell

/-- The byte written last at index `a`, none where nothing has been written since reset. -/
def Memory.read : Memory → Nat → Option Byte
  | [], _ => none
  | (k, v) :: m, a => if k = a then some v else Memory.read m a

/-- Byte `v` written at index `a`, in the canonical form. -/
def Memory.write : Memory → Nat → Byte → Memory
  | [], a, v => [(a, v)]
  | (k, w) :: m, a, v =>
    if a < k then (a, v) :: (k, w) :: m
    else if a = k then (a, v) :: m
    else (k, w) :: Memory.write m a v

/-- The canonical form of a buffer of `size` bytes: indices strictly rising, each below `size`
(indices 0..size-1, 10_state.md R61, R62). -/
abbrev Memory.wf (m : Memory) (size : Nat) : Prop :=
  m.Pairwise (fun x y => x.1 < y.1) ∧ ∀ c ∈ m, c.1 < size

end Sys2Proof.Machine
end

