-- ==== Sys2Proof/Machine/State.lean ====
section
/-! DEFINITION. The state of HUFF-DP as plain data: every register, table and buffer that 10_state.md names, and
five fields of the model's own (the last five); why a step can stop; the state after reset. -/

namespace Sys2Proof.Machine

/-- A valid code-table entry (1, len, val) (10_state.md R58); an invalid entry, always (0, 0, 0), is `none` of
`Option Code` (log 16). -/
structure Code where
  len : Byte
  val : BitVec 256
  deriving DecidableEq, Repr

/-- Why a step stops although something could move. Each is raised only in states that no run from reset
reaches (log 10). -/
inductive Fault where
  /-- Raised by DECODE: SYM_COUNT = 1, but the table does not hold exactly one valid entry with a length of at
  least 1, so 44_decode.md R253 names no symbol or divides by 0. Safe: the model stops. -/
  | noSoleCode
  /-- Raised by DECODE's walk: the current slot is NIL, and TM has no slot 511 (10_state.md R60). Safe: the model
  stops. -/
  | noSuchSlot
  deriving DecidableEq, Repr

/-- What the model gives no meaning. -/
inductive Refusal where
  /-- Raised by an arm of exec whose command has no meaning yet (none now). Safe: the model stops. -/
  | notModelled (mnemonic : String)
  /-- Raised by a host access that is not 32 bits wide (20_memory.md R85). Safe: the spec gives it no meaning. -/
  | accessWidth
  /-- Raised by a burst (20_memory.md R85). Safe: the spec gives it no meaning. -/
  | burstAccess
  /-- Raised by a host access to an address outside the register window (20_memory.md R80, R81): no access to
  HUFF-DP. Safe: the spec gives it no meaning. -/
  | outsideWindow
  /-- Raised by a host access whose offset is no multiple of 4 (20_memory.md R85). Safe: the spec gives it no
  meaning. -/
  | misalignedOffset
  deriving DecidableEq, Repr

/-- The state of the machine. -/
structure State where
  /-- The parameters BASE, IBUF_BYTES and OBUF_BYTES; the registers IBUF_SIZE and OBUF_SIZE read them
  (00_scope.md R4; 10_state.md R56, R57). -/
  cfg : Config
  /-- CTRL bit 0 (10_state.md R35). -/
  lock : Bool
  /-- CTRL bit 1 (10_state.md R35). -/
  irqEn : Bool
  /-- STATUS bit 1 (10_state.md R36). -/
  done : Bool
  /-- STATUS bit 2 (10_state.md R36). -/
  err : Bool
  /-- STATUS bit 3 (10_state.md R36). -/
  ovr : Bool
  /-- STATUS bit 4 (10_state.md R36, R37). -/
  sync : Bool
  /-- The pending command (BUSY, PCMD): `some w` is BUSY = 1 with PCMD = w, `none` is BUSY = 0, where PCMD has no
  value (10_state.md R36, R63; log 7). -/
  pending : Option Word
  /-- ERR_CODE (10_state.md R39). -/
  errCode : Byte
  /-- ERR_INFO (10_state.md R40). -/
  errInfo : Word
  /-- IN_LEN (10_state.md R41). -/
  inLen : Word
  /-- BIT_LEN (10_state.md R42). -/
  bitLen : Word
  /-- OUT_LEN (10_state.md R43). -/
  outLen : Word
  /-- SYM (10_state.md R44). -/
  sym : Byte
  /-- CODE_LEN (10_state.md R45). -/
  codeLen : Byte
  /-- CODE_W0 .. CODE_W7 (10_state.md R46). -/
  codeW : Vector Word 8
  /-- NODE_IDX (10_state.md R47). -/
  nodeIdx : SlotIndex
  /-- NODE_DATA (10_state.md R48). -/
  nodeData : Word
  /-- ROOT (10_state.md R49). -/
  root : SlotIndex
  /-- NODE_COUNT (10_state.md R50). -/
  nodeCount : BitVec 10
  /-- SYM_COUNT (10_state.md R51). -/
  symCount : BitVec 9
  /-- IBUF_ADDR (10_state.md R52). -/
  ibufAddr : Word
  /-- OBUF_ADDR (10_state.md R54). -/
  obufAddr : Word
  /-- The code table CT (10_state.md R58). -/
  ct : Vector (Option Code) 256
  /-- The tree memory TM (10_state.md R60). -/
  tm : Vector Word 511
  /-- The input buffer IBUF (10_state.md R61). -/
  ibuf : Memory
  /-- The output buffer OBUF (10_state.md R62). -/
  obuf : Memory
  /-- The model's own: how many resets have happened; the index of the buffers' draws (log 5). -/
  epoch : Nat
  /-- The model's own: how many busy reads have drawn a value (log 6). -/
  draws : Nat
  /-- The model's own: what the world outside does next, in order (log 2). -/
  inputs : List Input
  /-- The model's own: the scheduler's choices while BUSY = 1 (log 1). -/
  sched : List Agent
  /-- The model's own: the word the last host read returned (log 8). -/
  rdata : Option Word
  deriving DecidableEq, Repr

/-- The state after reset of a block with parameters `c`, at reset number `e`: the table of
70_reset_and_hazards.md R340. The buffers list nothing: each byte is a draw. -/
def State.resetWith (c : Config) (e : Nat) : State where
  cfg := c
  lock := false
  irqEn := false
  done := false
  err := false
  ovr := false
  sync := false
  pending := none
  errCode := 0
  errInfo := 0
  inLen := 0
  bitLen := 0
  outLen := 0
  sym := 0
  codeLen := 0
  codeW := Vector.replicate 8 0
  nodeIdx := 0
  nodeData := 0
  root := 0x1FF
  nodeCount := 0
  symCount := 0
  ibufAddr := 0
  obufAddr := 0
  ct := Vector.replicate 256 none
  tm := Vector.replicate 511 0
  ibuf := []
  obuf := []
  epoch := e
  draws := 0
  inputs := []
  sched := []
  rdata := none

/-- The machine right after reset (70_reset_and_hazards.md R340), with nothing placed to do. -/
def State.reset : State := State.resetWith Config.params 0

end Sys2Proof.Machine
end

