-- ==== Sys2Proof/Machine/Operands.lean ====
section
/-! DEFINITION. The operand forms of the commands: the constants of the block, node words (30_encoding.md R114),
codes as bit strings (00_scope.md R10) and the code operand in CODE_W0..7 (30_encoding.md R115). -/

namespace Sys2Proof.Machine

/-- ID: the constant 0x4855_4646 (10_state.md R33). -/
def idWord : Word := 0x48554646

/-- VERSION: major 0x0001, minor 0x0000 (10_state.md R34). -/
def versionWord : Word := 0x00010000

/-- NIL, the index that names no slot (00_scope.md R3). -/
def nilIndex : SlotIndex := 0x1FF

/-- The implemented bits of a node word (30_encoding.md R114). -/
def nodeMask : Word := 0xC1FF01FF

/-- The slot an index names; none for NIL (10_state.md R60). -/
def slotOf (i : SlotIndex) : Option Slot :=
  if h : i.toNat < 511 then some ⟨i.toNat, h⟩ else none

/-- The index of a slot. -/
def indexOf (n : Slot) : SlotIndex := BitVec.ofNat 9 n.val

/-- A slot index as ERR_INFO records it (60_exceptions.md R300). -/
def slotInfo (n : Slot) : Word := BitVec.ofNat 32 n.val

/-- USED, bit 31 of a node word (00_scope.md R12). -/
def usedNode (w : Word) : Bool := w.getLsbD 31

/-- LEAF, bit 30 of a node word (00_scope.md R12). -/
def leafNode (w : Word) : Bool := w.getLsbD 30

/-- SYM, bits 7:0 of a node word (00_scope.md R12). -/
def nodeSym (w : Word) : Byte := w.extractLsb' 0 8

/-- LEFT, bits 8:0 of a node word (00_scope.md R12). -/
def nodeLeft (w : Word) : SlotIndex := w.extractLsb' 0 9

/-- RIGHT, bits 24:16 of a node word (00_scope.md R12). -/
def nodeRight (w : Word) : SlotIndex := w.extractLsb' 16 9

/-- The branch rule: bit 0 leads to LEFT, bit 1 to RIGHT (41_tree_assign.md R179); none is NIL. -/
def childOf (w : Word) (b : Bool) : Option Slot :=
  slotOf (if b then nodeRight w else nodeLeft w)

/-- The canonical leaf word of a symbol (30_encoding.md R114). -/
def leafWord (sym : Byte) : Word := 0xC0000000 ||| sym.setWidth 32

/-- The canonical internal word with no child, 0x81FF_01FF (43_code_table.md R225). -/
def emptyInternal : Word := 0x81FF01FF

/-- `link`: the LEFT (bit 0) or RIGHT (bit 1) field of a node word set to a slot, its other bits unchanged
(43_code_table.md R225). -/
def linkWord (w : Word) (b : Bool) (c : Slot) : Word :=
  if b then (w &&& 0xFE00FFFF) ||| ((indexOf c).setWidth 32 <<< 16)
  else (w &&& 0xFFFFFE00) ||| (indexOf c).setWidth 32

/-- All 256 symbols in ascending order (00_scope.md R3). -/
def allSymbols : List Byte := (List.range 256).map (BitVec.ofNat 8)

/-- The bit sequence a code denotes: V[L-1], ..., V[0] (00_scope.md R10). -/
def Code.bits (c : Code) : List Bool :=
  (List.range c.len.toNat).map fun i => c.val.getLsbD (c.len.toNat - 1 - i)

/-- The code of a path of `d` branches with value `p` (41_tree_assign.md R174). -/
def codeOfPath (d p : Nat) : Code := { len := BitVec.ofNat 8 d, val := BitVec.ofNat 256 p }

/-- The code "0" of a lone root leaf (41_tree_assign.md R178). -/
def loneCode : Code := { len := 1, val := 0 }

/-- CODEV, the 256-bit value in CODE_W0..7: the sum of CODE_Wk * 2^(32k) (30_encoding.md R115). -/
def codeValue (w : Vector Word 8) : BitVec 256 :=
  BitVec.ofNat 256
    (w[0].toNat + w[1].toNat * 2 ^ 32 + w[2].toNat * 2 ^ 64 + w[3].toNat * 2 ^ 96 + w[4].toNat * 2 ^ 128
      + w[5].toNat * 2 ^ 160 + w[6].toNat * 2 ^ 192 + w[7].toNat * 2 ^ 224)

/-- V = CODEV mod 2^L with its length (30_encoding.md R115). -/
def codeOperand (len : Byte) (w : Vector Word 8) : Code :=
  { len := len, val := BitVec.ofNat 256 ((codeValue w).toNat % 2 ^ len.toNat) }

/-- The words CODE_W0..7 of a value: (V div 2^(32k)) mod 2^32 (30_encoding.md R115). -/
def codeWords (v : BitVec 256) : Vector Word 8 :=
  Vector.ofFn fun k => BitVec.ofNat 32 (v.toNat / 2 ^ (32 * k.val))

/-- ceil8(n) = (n + 7) div 8 on natural numbers (00_scope.md R11). -/
def ceil8 (n : Nat) : Nat := (n + 7) / 8

/-- Bit `b` of a packed stream inside the byte that holds it: most significant bit first (00_scope.md R13,
20_memory.md R82). -/
def bitInByte (v : Byte) (b : Nat) : Bool := v.getLsbD (7 - b % 8)

end Sys2Proof.Machine
end

