-- ==== Sys2Proof/Machine/Flags.lean ====
section
/-! DEFINITION. The flags and the error codes: STATUS and CTRL as words (10_state.md R35, R36), the interrupt
output (R65), what a host write of STATUS clears, and the numbering of 60_exceptions.md R300. -/

namespace Sys2Proof.Machine

/-- The errors a command can raise (60_exceptions.md R300). -/
inductive ErrCode where
  | illegalCmd
  | locked
  | invalidInput
  | unknownSymbol
  | malformedRecord
  | badIndex
  | malformedTree
  | codeTooLong
  | prefixConflict
  | treeOverflow
  | notReady
  | invalidCode
  | trailingBits
  | badLength
  | outputOverflow
  deriving DecidableEq, Repr

/-- The code an error writes to ERR_CODE (60_exceptions.md R300). -/
def errNumber : ErrCode → Byte
  | .illegalCmd => 1
  | .locked => 2
  | .invalidInput => 3
  | .unknownSymbol => 4
  | .malformedRecord => 5
  | .badIndex => 6
  | .malformedTree => 7
  | .codeTooLong => 8
  | .prefixConflict => 9
  | .treeOverflow => 10
  | .notReady => 11
  | .invalidCode => 12
  | .trailingBits => 13
  | .badLength => 14
  | .outputOverflow => 15

/-- STATUS.BUSY: a command is pending (10_state.md R36, R63). -/
def State.busy (s : State) : Bool := s.pending.isSome

/-- A bit of a register word at a position. -/
def bitAt (b : Bool) (k : Nat) : Word := (BitVec.ofBool b).setWidth 32 <<< k

/-- STATUS as the host reads it: BUSY, DONE, ERR, OVR, SYNC in bits 0..4, the rest 0 (10_state.md R36). -/
def State.statusWord (s : State) : Word :=
  bitAt s.busy 0 ||| bitAt s.done 1 ||| bitAt s.err 2 ||| bitAt s.ovr 3 ||| bitAt s.sync 4

/-- CTRL as the host reads it: LOCK and IRQ_EN in bits 0 and 1, the rest 0 (10_state.md R35). -/
def State.ctrlWord (s : State) : Word := bitAt s.lock 0 ||| bitAt s.irqEn 1

/-- The interrupt output IRQ = CTRL.IRQ_EN AND STATUS.DONE (10_state.md R65, 60_exceptions.md R307). -/
def State.irq (s : State) : Bool := s.irqEn && s.done

/-- A host write of CTRL (40_control.md R142). -/
def State.writeCtrl (s : State) (d : Word) : State :=
  { s with lock := d.getLsbD 0, irqEn := d.getLsbD 1 }

/-- A host write of STATUS clears DONE, ERR and OVR where the data has a 1 (10_state.md R36, 40_control.md
R142). -/
def State.writeStatus (s : State) (d : Word) : State :=
  { s with
    done := s.done && !d.getLsbD 1
    err := s.err && !d.getLsbD 2
    ovr := s.ovr && !d.getLsbD 3 }

/-- STATUS.SYNC set or cleared by one of the events of 10_state.md R37. -/
def State.setSync (s : State) (b : Bool) : State := { s with sync := b }

/-- STATUS.OVR set by a dropped write (40_control.md R145). -/
def State.setOvr (s : State) : State := { s with ovr := true }

end Sys2Proof.Machine
end

