-- ==== Sys2Proof/Machine/Ops.lean ====
section
/-! DEFINITION. The named operations every command and host access is written over: the buffers, the code table,
the tree memory, issue (40_control.md R147), raising an error and completing (R148; 60_exceptions.md R304), and
reset (70_reset_and_hazards.md R340). HUFF-DP has no return from an error (60_exceptions.md R305). -/

namespace Sys2Proof.Machine

/-! ### The buffers -/

/-- The capacity of a buffer: IBUF_BYTES or OBUF_BYTES (00_scope.md R4). -/
def State.bufSize (s : State) : Buf → Nat
  | .ibuf => s.cfg.ibufBytes
  | .obuf => s.cfg.obufBytes

/-- The cells of a buffer that something has written since reset. -/
def State.bufMem (s : State) : Buf → Memory
  | .ibuf => s.ibuf
  | .obuf => s.obuf

/-- What byte `a` of a buffer holds while nothing has written it since reset: a draw (93_implementation_defined.md
U2; log 5). -/
def bufDraw (e : Nat) : Buf → Nat → Byte
  | .ibuf, a => Config.ibufDraw e a
  | .obuf, a => Config.obufDraw e a

/-- MemRead(B, a, 1) (00_scope.md R11). Callers ask for `a` below the buffer's size only. -/
def State.bufByte (s : State) (b : Buf) (a : Nat) : Byte :=
  ((s.bufMem b).read a).getD (bufDraw s.epoch b a)

/-- MemWrite(B, a, 1, v) (00_scope.md R11). Callers ask for `a` below the buffer's size only. -/
def State.writeBuf (s : State) (b : Buf) (a : Nat) (v : Byte) : State :=
  match b with
  | .ibuf => { s with ibuf := s.ibuf.write a v }
  | .obuf => { s with obuf := s.obuf.write a v }

/-- IBUF_ADDR or OBUF_ADDR (10_state.md R52, R54). -/
def State.bufAddr (s : State) : Buf → Word
  | .ibuf => s.ibufAddr
  | .obuf => s.obufAddr

/-- IBUF_ADDR or OBUF_ADDR written. -/
def State.setBufAddr (s : State) (b : Buf) (d : Word) : State :=
  match b with
  | .ibuf => { s with ibufAddr := d }
  | .obuf => { s with obufAddr := d }

/-- Bit `b` of the packed input (00_scope.md R13). -/
def State.streamBit (s : State) (b : Nat) : Bool := bitInByte (s.bufByte .ibuf (b / 8)) b

/-! ### The code table and the tree memory -/

/-- CT[sym]: none where the entry is invalid (10_state.md R58). -/
def State.ctAt (s : State) (sym : Byte) : Option Code := s.ct[sym.toNat]'sym.isLt

/-- CT[sym] written; SYM_COUNT is not touched. -/
def State.setCt (s : State) (sym : Byte) (e : Option Code) : State :=
  { s with ct := s.ct.set sym.toNat e sym.isLt }

/-- SYM_COUNT + 1. -/
def State.countSym (s : State) : State := { s with symCount := s.symCount + 1 }

/-- Every code-table entry invalid and SYM_COUNT 0 (43_code_table.md R220, 41_tree_assign.md R174). -/
def State.clearTable (s : State) : State := { s with ct := Vector.replicate 256 none, symCount := 0 }

/-- TM[n] (10_state.md R60). -/
def State.tmAt (s : State) (n : Slot) : Word := s.tm[n.val]

/-- TM[n] written. -/
def State.setTm (s : State) (n : Slot) (w : Word) : State := { s with tm := s.tm.set n.val w }

/-- NODE_COUNT written. -/
def State.setNodeCount (s : State) (k : Nat) : State := { s with nodeCount := BitVec.ofNat 10 k }

/-- Every tree-memory slot unused and NODE_COUNT 0 (41_tree_assign.md R170, 43_code_table.md R225). -/
def State.clearTree (s : State) : State := { s with tm := Vector.replicate 511 0, nodeCount := 0 }

/-- ROOT written. -/
def State.setRoot (s : State) (r : SlotIndex) : State := { s with root := r }

/-- The valid entries of the code table in ascending symbol order. -/
def State.validEntries (s : State) : List (Byte × Code) :=
  allSymbols.filterMap fun sym => (s.ctAt sym).map fun c => (sym, c)

/-! ### Issue, error, completion, reset -/

/-- What a part of a command's pseudocode does: it goes on with a value and a state, it raises an error with the
state it leaves (60_exceptions.md R302, R304), or the model stops (log 10). -/
inductive CmdResult (α : Type) where
  | ok (a : α) (s : State)
  | error (c : ErrCode) (info : Word) (s : State)
  | stop (f : Fault)
  deriving DecidableEq, Repr

/-- One part of a command after another: an error or a stop ends the command at once (40_control.md R148). -/
def CmdResult.andThen {α β : Type} (r : CmdResult α) (f : α → State → CmdResult β) : CmdResult β :=
  match r with
  | .ok a s => f a s
  | .error c info s => .error c info s
  | .stop e => .stop e

/-- Issue of a command word (40_control.md R147). -/
def State.issue (s : State) (d : Word) : State :=
  { s with pending := some d, done := false, err := false, errCode := 0, errInfo := 0 }

/-- What an error records: ERR_CODE, ERR_INFO and STATUS.ERR (60_exceptions.md R304). -/
def State.recordError (s : State) (c : ErrCode) (info : Word) : State :=
  { s with errCode := errNumber c, errInfo := info, err := true }

/-- BUSY <- 0 and DONE <- 1 (40_control.md R148). -/
def State.completed (s : State) : State := { s with pending := none, done := true }

/-- The end of an ENGINE step: an error is recorded, and the command completes (40_control.md R148,
60_exceptions.md R304). This is the whole of taking an exception on HUFF-DP. -/
def complete (r : CmdResult Unit) : Host.Outcome State Fault Refusal :=
  match r with
  | .ok _ s => .next s.completed
  | .error c info s => .next (s.recordError c info).completed
  | .stop f => .fault f

/-- ERR_INFO of LOCKED: the OPCODE (60_exceptions.md R300). -/
def lockedInfo (i : Instr) : Word := i.opcode.setWidth 32

/-- The LOCKED check that six commands make first (10_state.md R35, 60_exceptions.md R303). -/
def ifUnlocked (i : Instr) (s : State) (r : CmdResult Unit) : CmdResult Unit :=
  if s.lock then .error .locked (lockedInfo i) s else r

/-- The one entry of the code table, where there is exactly one valid entry and its length is at least 1
(44_decode.md R253). -/
def State.soleEntry (s : State) : Option (Byte × Code) :=
  match s.validEntries with
  | [e] => if e.2.len = 0 then none else some e
  | _ => none

/-- A word written at OBUF[OUT_LEN], and OUT_LEN + 1. -/
def State.appendOut (s : State) (v : Byte) : State :=
  { s.writeBuf .obuf s.outLen.toNat v with outLen := s.outLen + 1 }

/-- One output byte: OUTPUT_OVERFLOW when OBUF is full, else written at OUT_LEN (42_encode.md R206, 44_decode.md
R257). -/
def emitByte (v : Byte) (info : Word) (s : State) : CmdResult Unit :=
  if s.outLen.toNat = s.cfg.obufBytes then .error .outputOverflow info s else .ok () (s.appendOut v)

/-- A word that selects no command completes with ILLEGAL_CMD, ERR_INFO the whole word, and changes nothing else
(30_encoding.md R112). -/
def illegalCommand (w : Word) (s : State) : Host.Outcome State Fault Refusal :=
  complete (.error .illegalCmd w s)

/-- Reset: every piece of the block's state at its reset value, the buffers drawn anew
(70_reset_and_hazards.md R340, R341). The parameters, and what is outside the block (the inputs, the scheduler,
the last word read, the count of draws), stay (log 13). -/
def State.hardReset (s : State) : State :=
  { State.resetWith s.cfg (s.epoch + 1) with
    draws := s.draws, inputs := s.inputs, sched := s.sched, rdata := s.rdata }

end Sys2Proof.Machine
end

