-- ==== Sys2Proof/Machine/CodeTable.lean ====
section
/-! DEFINITION. The code-table family: TABLE_CLEAR, TABLE_WR, TABLE_RD and BUILD (43_code_table.md). -/

namespace Sys2Proof.Machine

/-- TABLE_CLEAR (43_code_table.md R220). -/
def execTableClear (s : State) : Host.Outcome State Fault Refusal :=
  complete (ifUnlocked .tableClear s (.ok () (s.clearTable.setSync false)))

/-- The entry TABLE_WR writes: SYM_COUNT counts an entry that was invalid (43_code_table.md R221). -/
def State.writeEntry (s : State) (sym : Byte) (c : Code) : State :=
  if (s.ctAt sym).isSome then s.setCt sym (some c) else s.countSym.setCt sym (some c)

/-- TABLE_WR after its LOCKED check (43_code_table.md R221). -/
def tableWrite (s : State) : CmdResult Unit :=
  if s.codeLen = 0 then .error .malformedRecord (s.sym.setWidth 32) s
  else .ok () ((s.writeEntry s.sym (codeOperand s.codeLen s.codeW)).setSync false)

/-- TABLE_WR (43_code_table.md R221). -/
def execTableWr (s : State) : Host.Outcome State Fault Refusal :=
  complete (ifUnlocked .tableWr s (tableWrite s))

/-- CODE_LEN and CODE_W0..7 written from an entry, zeros for an invalid one (43_code_table.md R222). -/
def State.readEntry (s : State) (e : Option Code) : State :=
  match e with
  | some c => { s with codeLen := c.len, codeW := codeWords c.val }
  | none => { s with codeLen := 0, codeW := codeWords 0 }

/-- TABLE_RD (43_code_table.md R222). -/
def execTableRd (s : State) : Host.Outcome State Fault Refusal :=
  complete (.ok () (s.readEntry (s.ctAt s.sym)))

/-- A new trie node: word `w` in slot `next`, linked below slot `n` on branch `b`; TREE_OVERFLOW when slot 511
would be needed (43_code_table.md R225, R228). -/
def allocNode (sym : Byte) (n : Slot) (b : Bool) (w : Word) (next : Nat) (s : State) : CmdResult Slot :=
  if h : next < 511 then
    let s1 := s.setTm ⟨next, h⟩ w
    let s2 := s1.setTm n (linkWord (s1.tmAt n) b ⟨next, h⟩)
    .ok ⟨next, h⟩ (s2.setNodeCount (next + 1))
  else .error .treeOverflow (sym.setWidth 32) s

/-- The code of one symbol inserted below slot `n`, slots allocated from `next`; the value is the next free slot
(43_code_table.md R225). -/
def buildCode (sym : Byte) : List Bool → Slot → Nat → State → CmdResult Nat
  | [], _, next, s => .ok next s
  | [b], n, next, s =>
    match childOf (s.tmAt n) b with
    | some _ => .error .prefixConflict (sym.setWidth 32) s
    | none => (allocNode sym n b (leafWord sym) next s).andThen fun _ s' => .ok (next + 1) s'
  | b :: b' :: bs, n, next, s =>
    match childOf (s.tmAt n) b with
    | some c =>
      if leafNode (s.tmAt c) then .error .prefixConflict (sym.setWidth 32) s
      else buildCode sym (b' :: bs) c next s
    | none =>
      (allocNode sym n b emptyInternal next s).andThen fun c s' => buildCode sym (b' :: bs) c (next + 1) s'

/-- The codes of a list of entries inserted in order, each from the root, slot 0 (43_code_table.md R225). -/
def buildEntries : List (Byte × Code) → Nat → State → CmdResult Nat
  | [], next, s => .ok next s
  | (sym, c) :: es, next, s =>
    (buildCode sym c.bits 0 next s).andThen fun next' s' => buildEntries es next' s'

/-- The state BUILD starts its trie in: TM cleared but for the root, slot 0 (43_code_table.md R225). -/
def State.plantRoot (s : State) : State := (s.setTm 0 emptyInternal).setNodeCount 1

/-- BUILD after its LOCKED check (43_code_table.md R225). -/
def buildTree (s : State) : CmdResult Unit :=
  let s1 := ((s.setSync false).clearTree).setRoot 0
  if s1.symCount = 0 then .error .invalidInput 0 s1
  else
    (buildEntries s1.validEntries 1 s1.plantRoot).andThen fun _ s' => .ok () (s'.setSync true)

/-- BUILD (43_code_table.md R224). -/
def execBuild (s : State) : Host.Outcome State Fault Refusal :=
  complete (ifUnlocked .build s (buildTree s))

end Sys2Proof.Machine
end

