-- ==== Sys2Proof/Machine/Control.lean ====
section
/-! DEFINITION. The control family: NOP (40_control.md R150). -/

namespace Sys2Proof.Machine

/-- NOP only completes (40_control.md R150). -/
def execNop (s : State) : Host.Outcome State Fault Refusal := complete (.ok () s)

end Sys2Proof.Machine
end

