-- ==== Sys2Proof/Machine/Packing.lean ====
section
/-! DEFINITION. The bit-packing engine: ENCODE (42_encode.md). -/

namespace Sys2Proof.Machine

/-- The running bit buffer: ACC and NACC (42_encode.md R202, 10_state.md R64). -/
structure Packer where
  acc : Byte
  nacc : Nat
  deriving DecidableEq, Repr

/-- The empty bit buffer. -/
def Packer.empty : Packer := { acc := 0, nacc := 0 }

/-- One code bit of symbol number `i` packed; the eighth bit emits the byte (42_encode.md R202). -/
def packBit (b : Bool) (i : Nat) (p : Packer) (s : State) : CmdResult Packer :=
  let acc := 2 * p.acc + (BitVec.ofBool b).setWidth 8
  if p.nacc + 1 = 8 then (emitByte acc (BitVec.ofNat 32 i) s).andThen fun _ s' => .ok Packer.empty s'
  else .ok { acc := acc, nacc := p.nacc + 1 } s

/-- The bits of one code packed, first to last (42_encode.md R202). -/
def packBits : List Bool → Nat → Packer → State → CmdResult Packer
  | [], _, p, s => .ok p s
  | b :: bs, i, p, s => (packBit b i p s).andThen fun p' s' => packBits bs i p' s'

/-- BIT_LEN <- BIT_LEN + L (42_encode.md R202). -/
def State.addBitLen (s : State) (len : Byte) : State := { s with bitLen := s.bitLen + len.setWidth 32 }

/-- `k` input symbols packed from IBUF byte `i` on (42_encode.md R202, R205). -/
def packSymbols : Nat → Nat → Packer → State → CmdResult Packer
  | 0, _, p, s => .ok p s
  | k + 1, i, p, s =>
    match s.ctAt (s.bufByte .ibuf i) with
    | none => .error .unknownSymbol (BitVec.ofNat 32 i) s
    | some c =>
      (packBits c.bits i p s).andThen fun p' s' => packSymbols k (i + 1) p' (s'.addBitLen c.len)

/-- The final partial byte, padded with zeros (42_encode.md R202, R204). -/
def packFlush (p : Packer) (s : State) : CmdResult Unit :=
  if p.nacc = 0 then .ok () s else emitByte (p.acc <<< (8 - p.nacc)) s.inLen s

/-- OUT_LEN <- 0 and BIT_LEN <- 0 (42_encode.md R202). -/
def State.encodeStart (s : State) : State := { s with outLen := 0, bitLen := 0 }

/-- ENCODE's effect (42_encode.md R202). -/
def encodeStream (s : State) : CmdResult Unit :=
  if s.cfg.ibufBytes < s.inLen.toNat then .error .badLength s.inLen s
  else (packSymbols s.inLen.toNat 0 Packer.empty s.encodeStart).andThen packFlush

/-- ENCODE (42_encode.md R200). -/
def execEncode (s : State) : Host.Outcome State Fault Refusal := complete (encodeStream s)

end Sys2Proof.Machine
end

