-- ==== Sys2Proof/Machine/Traversal.lean ====
section
/-! DEFINITION. The prefix-tree traversal unit's decode walk: DECODE (44_decode.md). -/

namespace Sys2Proof.Machine

/-- `k` stream bits walked from bit `b` on; `cur` is CUR (none: NIL) and `nres` NRES. The value is NRES at the end
(44_decode.md R252). -/
def decodeWalk : Nat → Nat → Option Slot → Nat → State → CmdResult Nat
  | 0, _, _, nres, s => .ok nres s
  | _ + 1, _, none, _, _ => .stop .noSuchSlot
  | k + 1, b, some n, nres, s =>
    match childOf (s.tmAt n) (s.streamBit b) with
    | none => .error .invalidCode (BitVec.ofNat 32 b) s
    | some c =>
      if leafNode (s.tmAt c) then
        (emitByte (nodeSym (s.tmAt c)) (BitVec.ofNat 32 b) s).andThen fun _ s' =>
          decodeWalk k (b + 1) (slotOf s'.root) 0 s'
      else decodeWalk k (b + 1) (some c) (nres + 1) s

/-- TRAILING_BITS where residual bits are left (44_decode.md R255). -/
def checkResidue (nres : Nat) (s : State) : CmdResult Unit :=
  if nres = 0 then .ok () s else .error .trailingBits (BitVec.ofNat 32 nres) s

/-- The single-symbol path's loop: `m` copies of a symbol with a code of `len` bits, from copy `k` on
(44_decode.md R253). -/
def decodeCopies (sym : Byte) (len : Nat) : Nat → Nat → State → CmdResult Unit
  | 0, _, s => .ok () s
  | m + 1, k, s =>
    (emitByte sym (BitVec.ofNat 32 (k * len + len - 1)) s).andThen fun _ s' => decodeCopies sym len m (k + 1) s'

/-- The single-symbol path (44_decode.md R253). -/
def decodeSingle (n : Nat) (s : State) : CmdResult Unit :=
  match s.soleEntry with
  | none => .stop .noSoleCode
  | some (sym, c) =>
    (decodeCopies sym c.len.toNat (n / c.len.toNat) 0 s).andThen fun _ s' => checkResidue (n % c.len.toNat) s'

/-- OUT_LEN <- 0 (44_decode.md R252). -/
def State.decodeStart (s : State) : State := { s with outLen := 0 }

/-- DECODE's effect (44_decode.md R251 to R253). -/
def decodeStream (s : State) : CmdResult Unit :=
  if !s.sync then .error .notReady 0 s
  else if s.cfg.ibufBytes < ceil8 s.bitLen.toNat then .error .badLength s.bitLen s
  else
    let s1 := s.decodeStart
    if s1.symCount = 1 then decodeSingle s1.bitLen.toNat s1
    else (decodeWalk s1.bitLen.toNat 0 (slotOf s1.root) 0 s1).andThen checkResidue

/-- DECODE (44_decode.md R250). -/
def execDecode (s : State) : Host.Outcome State Fault Refusal := complete (decodeStream s)

end Sys2Proof.Machine
end

