-- ==== Sys2Proof/Machine/Tree.lean ====
section
/-! DEFINITION. The tree family: TREE_CLEAR, NODE_WR, NODE_RD and ASSIGN (41_tree_assign.md). -/

namespace Sys2Proof.Machine

/-- TREE_CLEAR (41_tree_assign.md R170). -/
def execTreeClear (s : State) : Host.Outcome State Fault Refusal :=
  complete (ifUnlocked .treeClear s (.ok () (s.clearTree.setSync false)))

/-- NODE_WR after its LOCKED check (41_tree_assign.md R171). -/
def nodeWrite (s : State) : CmdResult Unit :=
  match slotOf s.nodeIdx with
  | none => .error .badIndex 0x1FF s
  | some n => .ok () ((s.setTm n s.nodeData).setSync false)

/-- NODE_WR (41_tree_assign.md R171). -/
def execNodeWr (s : State) : Host.Outcome State Fault Refusal :=
  complete (ifUnlocked .nodeWr s (nodeWrite s))

/-- NODE_DATA written by a command (10_state.md R48). -/
def State.setNodeData (s : State) (w : Word) : State := { s with nodeData := w }

/-- NODE_RD's effect (41_tree_assign.md R172). -/
def nodeRead (s : State) : CmdResult Unit :=
  match slotOf s.nodeIdx with
  | none => .error .badIndex 0x1FF s
  | some n => .ok () (s.setNodeData (s.tmAt n))

/-- NODE_RD (41_tree_assign.md R172). -/
def execNodeRd (s : State) : Host.Outcome State Fault Refusal := complete (nodeRead s)

/-- An entry of ASSIGN's stack: a slot, its depth and its path value (41_tree_assign.md R174). -/
structure Visit where
  slot : Slot
  depth : Nat
  path : Nat
  deriving DecidableEq, Repr

/-- A child pushed, where it is not NIL (41_tree_assign.md R174). -/
def pushChild (c : Option Slot) (d p : Nat) (stack : List Visit) : List Visit :=
  match c with
  | some n => ⟨n, d, p⟩ :: stack
  | none => stack

/-- The children of an internal node pushed: the right one first, so that the left one is popped first
(41_tree_assign.md R174). -/
def pushChildren (w : Word) (v : Visit) (stack : List Visit) : List Visit :=
  pushChild (childOf w false) (v.depth + 1) (2 * v.path)
    (pushChild (childOf w true) (v.depth + 1) (2 * v.path + 1) stack)

/-- The code a leaf gets: its path, or "0" for a lone root leaf (41_tree_assign.md R174, R178). -/
def leafCode (v : Visit) : Code := if v.depth = 0 then loneCode else codeOfPath v.depth v.path

/-- NODE_COUNT + 1. -/
def State.countNode (s : State) : State := { s with nodeCount := s.nodeCount + 1 }

/-- ASSIGN's walk (41_tree_assign.md R174). The first argument is how many slots are not yet visited: each round
that does not end the walk visits a new one, and with none left every slot that can be popped has been visited
(log 11). -/
def assignWalk : Nat → List Slot → List Visit → State → CmdResult Unit
  | _, _, [], s => .ok () s
  | 0, _, v :: _, s => .error .malformedTree (slotInfo v.slot) s
  | k + 1, visited, v :: stack, s =>
    let w := s.tmAt v.slot
    if !usedNode w then .error .malformedTree (slotInfo v.slot) s
    else if v.slot ∈ visited then .error .malformedTree (slotInfo v.slot) s
    else if 255 < v.depth then .error .codeTooLong (slotInfo v.slot) s
    else
      let s1 := s.countNode
      if leafNode w then
        if (s1.ctAt (nodeSym w)).isSome then .error .malformedTree (slotInfo v.slot) s1
        else
          assignWalk k (v.slot :: visited) stack ((s1.setCt (nodeSym w) (some (leafCode v))).countSym)
      else assignWalk k (v.slot :: visited) (pushChildren w v stack) s1

/-- The state ASSIGN starts its walk in (41_tree_assign.md R174). -/
def State.assignStart (s : State) : State := ((s.setSync false).clearTable).setNodeCount 0

/-- ASSIGN after its LOCKED check (41_tree_assign.md R174). -/
def assignCodes (s : State) : CmdResult Unit :=
  (assignWalk 511 [] (pushChild (slotOf s.root) 0 0 []) s.assignStart).andThen fun _ s' =>
    if s'.symCount = 0 then .error .invalidInput 0 s' else .ok () (s'.setSync true)

/-- ASSIGN (41_tree_assign.md R173). -/
def execAssign (s : State) : Host.Outcome State Fault Refusal :=
  complete (ifUnlocked .assign s (assignCodes s))

end Sys2Proof.Machine
end

