-- ==== Sys2Proof/Machine/Dispatch.lean ====
section
/-! DEFINITION. Execute and complete one command: one arm per row of the opcode map (40_control.md R148, R149). -/

namespace Sys2Proof.Machine

def exec (i : Instr) (s : State) : Host.Outcome State Fault Refusal :=
  match i with
  | .nop => Sys2Proof.Machine.execNop s
  | .tableClear => Sys2Proof.Machine.execTableClear s
  | .tableWr => Sys2Proof.Machine.execTableWr s
  | .tableRd => Sys2Proof.Machine.execTableRd s
  | .treeClear => Sys2Proof.Machine.execTreeClear s
  | .nodeWr => Sys2Proof.Machine.execNodeWr s
  | .nodeRd => Sys2Proof.Machine.execNodeRd s
  | .assign => Sys2Proof.Machine.execAssign s
  | .build => Sys2Proof.Machine.execBuild s
  | .encode => Sys2Proof.Machine.execEncode s
  | .decode => Sys2Proof.Machine.execDecode s

end Sys2Proof.Machine
end

