-- ==== Sys2Proof/Machine/HostAccess.lean ====
section
/-! DEFINITION. The HOST steps: reads and writes of the register window while idle and while busy
(40_control.md R140 to R145), the data ports (R143), WAIT (30_encoding.md R119), and which agent moves next. -/

namespace Sys2Proof.Machine

/-- PortRead: the byte at the buffer's address, 0 beyond its end; the address then counts on modulo 2^32
(40_control.md R143). -/
def portRead (b : Buf) (s : State) : Word × State :=
  let a := s.bufAddr b
  (if a.toNat < s.bufSize b then (s.bufByte b a.toNat).setWidth 32 else 0, s.setBufAddr b (a + 1))

/-- PortWrite: the byte stored at the buffer's address, ignored beyond its end; the address then counts on modulo
2^32 (40_control.md R143). -/
def portWrite (b : Buf) (v : Byte) (s : State) : State :=
  let a := s.bufAddr b
  (if a.toNat < s.bufSize b then s.writeBuf b a.toNat v else s).setBufAddr b (a + 1)

/-- What a register reads as while idle, its unimplemented bits as 0 (40_control.md R141). CMD reads 0; a data
port is read by `portRead`, and this is its value. -/
def State.regWord (s : State) : Reg → Word
  | .id => idWord
  | .version => versionWord
  | .ctrl => s.ctrlWord
  | .status => s.statusWord
  | .cmd => 0
  | .errCode => s.errCode.setWidth 32
  | .errInfo => s.errInfo
  | .inLen => s.inLen
  | .bitLen => s.bitLen
  | .outLen => s.outLen
  | .sym => s.sym.setWidth 32
  | .codeLen => s.codeLen.setWidth 32
  | .codeW k => s.codeW[k.val]
  | .nodeIdx => s.nodeIdx.setWidth 32
  | .nodeData => s.nodeData
  | .root => s.root.setWidth 32
  | .nodeCount => s.nodeCount.setWidth 32
  | .symCount => s.symCount.setWidth 32
  | .bufAddr b => s.bufAddr b
  | .bufData b => (portRead b s).1
  | .bufSize b => BitVec.ofNat 32 (s.bufSize b)

/-- HostRead while idle: the word and the state after it; only a data port changes anything (40_control.md
R141). -/
def readIdle (off : Nat) (s : State) : Word × State :=
  match regAt off with
  | none => (0, s)
  | some (.bufData b) => portRead b s
  | some r => (s.regWord r, s)

/-- HostRead while busy: ID, VERSION, CTRL and STATUS are exact, every other offset a draw with no side effect
(40_control.md R144). -/
def readBusy (off : Nat) (s : State) : Word × State :=
  match regAt off with
  | some .id => (s.regWord .id, s)
  | some .version => (s.regWord .version, s)
  | some .ctrl => (s.regWord .ctrl, s)
  | some .status => (s.regWord .status, s)
  | _ => (Config.busyRead s.draws, { s with draws := s.draws + 1 })

/-- A host write of ROOT while idle: it takes effect while unlocked only, and then clears SYNC (10_state.md
R49). -/
def writeRoot (d : Word) (s : State) : State :=
  if s.lock then s else { s with root := d.extractLsb' 0 9, sync := false }

/-- HostWrite of a register while idle (40_control.md R142). -/
def writeReg (r : Reg) (d : Word) (s : State) : State :=
  match r with
  | .id => s
  | .version => s
  | .ctrl => s.writeCtrl d
  | .status => s.writeStatus d
  | .cmd => s.issue d
  | .errCode => s
  | .errInfo => s
  | .inLen => { s with inLen := d }
  | .bitLen => { s with bitLen := d }
  | .outLen => s
  | .sym => { s with sym := d.extractLsb' 0 8 }
  | .codeLen => { s with codeLen := d.extractLsb' 0 8 }
  | .codeW k => { s with codeW := s.codeW.set k.val d }
  | .nodeIdx => { s with nodeIdx := d.extractLsb' 0 9 }
  | .nodeData => { s with nodeData := d &&& nodeMask }
  | .root => writeRoot d s
  | .nodeCount => s
  | .symCount => s
  | .bufAddr b => s.setBufAddr b d
  | .bufData b => portWrite b (d.extractLsb' 0 8) s
  | .bufSize _ => s

/-- HostWrite while idle: a reserved offset ignores it (40_control.md R142). -/
def writeIdle (off : Nat) (d : Word) (s : State) : State :=
  match regAt off with
  | none => s
  | some r => writeReg r d s

/-- HostWrite while busy: STATUS as while idle; any other write is dropped and sets OVR (40_control.md R145). -/
def writeBusy (off : Nat) (d : Word) (s : State) : State :=
  match regAt off with
  | some .status => s.writeStatus d
  | _ => s.setOvr

/-- HostRead (40_control.md R141, R144). -/
def hostRead (off : Nat) (s : State) : Word × State := if s.busy then readBusy off s else readIdle off s

/-- HostWrite (40_control.md R142, R145). -/
def hostWrite (off : Nat) (d : Word) (s : State) : State := if s.busy then writeBusy off d s else writeIdle off d s

/-- The word a host read returned, kept for the host (log 8). -/
def State.setRdata (s : State) (w : Word) : State := { s with rdata := some w }

/-- A host access to a byte offset of the window (40_control.md R146). -/
def accessOffset (off : Nat) (dir : Dir) (s : State) : State :=
  match dir with
  | .read => (hostRead off s).2.setRdata (hostRead off s).1
  | .write d => hostWrite off d s

/-- One host access; a shape that has no meaning is refused by name (40_control.md R140, 20_memory.md R85). -/
def hostAccess (a : Access) (s : State) : Host.Outcome State Fault Refusal :=
  if a.bits ≠ 32 then .refused .accessWidth
  else if a.beats ≠ 1 then .refused .burstAccess
  else if a.addr < s.cfg.base ∨ s.cfg.base + 256 ≤ a.addr then .refused .outsideWindow
  else if (a.addr - s.cfg.base) % 4 ≠ 0 then .refused .misalignedOffset
  else .next (accessOffset (a.addr - s.cfg.base) a.dir s)

/-- The inputs that are left to come. -/
def State.setInputs (s : State) (is : List Input) : State := { s with inputs := is }

/-- One pass of WAIT: RD STATUS; WAIT comes again while BUSY reads 1 (30_encoding.md R119). -/
def hostWait (s : State) (rest : List Input) : State :=
  (accessOffset (Reg.offset .status) .read s).setInputs (if s.statusWord.getLsbD 0 then .wait :: rest else rest)

/-- One step of the world outside: an access, a pass of WAIT, or reset. `rest` is what is left after it. -/
def hostStep (i : Input) (rest : List Input) (s : State) : Host.Outcome State Fault Refusal :=
  match i with
  | .access a => hostAccess a (s.setInputs rest)
  | .wait => .next (hostWait s rest)
  | .reset => .next (s.setInputs rest).hardReset

/-- What the next step is. -/
inductive Turn where
  /-- Nothing is pending and the world outside does nothing. -/
  | idle
  /-- The ENGINE executes a pending word. -/
  | engine (w : Word)
  /-- The world outside does something, and then what is left. -/
  | host (i : Input) (rest : List Input)
  deriving DecidableEq, Repr

/-- Which agent moves: the ENGINE is enabled exactly when BUSY = 1 (00_scope.md R8); where both could move, the
scheduler's next choice decides, and the ENGINE moves where it has none left (20_memory.md R97; log 1). -/
def State.turn (s : State) : Turn :=
  match s.pending, s.inputs, s.sched.headD .engine with
  | none, [], _ => .idle
  | none, i :: rest, _ => .host i rest
  | some w, [], _ => .engine w
  | some w, _ :: _, .engine => .engine w
  | some _, i :: rest, .host => .host i rest

/-- The scheduler's choice for this step used up, where one was asked for. -/
def State.tick (s : State) : State := if s.busy then { s with sched := s.sched.tail } else s

end Sys2Proof.Machine
end

