-- ==== Sys2Proof/Machine/Step.lean ====
section
/-! DEFINITION. One step of HUFF-DP: a HOST step, an ENGINE step (00_scope.md R7), or nothing while nothing can
move (log 3). -/

namespace Sys2Proof.Machine

/-- The ENGINE step for a pending word (40_control.md R148, R149). -/
def engineStep (w : Word) (s : State) : Host.Outcome State Fault Refusal :=
  match Sys2Proof.decode w with
  | .ok i => exec i s
  | .error _ => illegalCommand w s

/-- One step (00_scope.md R7, R8). -/
def step (s : State) : Host.Outcome State Fault Refusal :=
  match s.turn with
  | .idle => .next s
  | .engine w => engineStep w s.tick
  | .host i rest => hostStep i rest s.tick

/-- The state with a table word as the pending command and the ENGINE about to move: the very next step executes it
(log 2, log 19). -/
def State.withFetchWord (s : State) (nbits w : Nat) : State :=
  { s with pending := some (Sys2Proof.tableWord nbits w), sched := .engine :: s.sched }

end Sys2Proof.Machine
end

