-- ==== Sys2Proof/Machine/Program.lean ====
section
/-! DEFINITION. Host programs: the syntax of 30_encoding.md R118 and the pseudo-instructions of R119, expanded to
what the host does. -/

namespace Sys2Proof.Machine

/-- A line of a host program (30_encoding.md R118, R119). -/
inductive Line where
  /-- `WR <REG>, <value>`. -/
  | wr (r : Reg) (d : Word)
  /-- `RD <REG>`. -/
  | rd (r : Reg)
  /-- `CMD <MNEMONIC>`. -/
  | cmd (i : Instr)
  /-- `WAIT`. -/
  | wait
  /-- `DO <MNEMONIC>`. -/
  | run (i : Instr)
  /-- `LOADCODE s, L, V`, all eight words of V written. -/
  | loadCode (sym : Byte) (len : Byte) (v : BitVec 256)
  /-- `LOADCODE s, L, V` with V < 2^32, the writes of CODE_W1..7 left out because they hold 0. -/
  | loadShortCode (sym : Byte) (len : Byte) (v : Word)
  /-- `PUTNODE i, w`. -/
  | putNode (i : SlotIndex) (w : Word)
  /-- `PUTIN a, b0, b1, ..., bn`. -/
  | putIn (a : Word) (bs : List Byte)
  /-- `GETOUT a, n`. -/
  | getOut (a : Word) (n : Nat)
  deriving DecidableEq, Repr

/-- A 32-bit write of a register (30_encoding.md R118). -/
def wrInput (c : Config) (r : Reg) (d : Word) : Input :=
  .access { addr := c.base + r.offset, bits := 32, beats := 1, dir := .write d }

/-- A 32-bit read of a register (30_encoding.md R118). -/
def rdInput (c : Config) (r : Reg) : Input :=
  .access { addr := c.base + r.offset, bits := 32, beats := 1, dir := .read }

/-- What the host does for one line (30_encoding.md R118, R119). -/
def expandLine (c : Config) : Line → List Input
  | .wr r d => [wrInput c r d]
  | .rd r => [rdInput c r]
  | .cmd i => [wrInput c .cmd (Sys2Proof.encode i)]
  | .wait => [.wait]
  | .run i => [wrInput c .cmd (Sys2Proof.encode i), .wait]
  | .loadCode sym len v =>
    [wrInput c .sym (sym.setWidth 32), wrInput c .codeLen (len.setWidth 32)]
      ++ (List.finRange 8).map (fun k => wrInput c (.codeW k) (codeWords v)[k.val])
      ++ [wrInput c .cmd (Sys2Proof.encode .tableWr), .wait]
  | .loadShortCode sym len v =>
    [wrInput c .sym (sym.setWidth 32), wrInput c .codeLen (len.setWidth 32), wrInput c (.codeW 0) v,
      wrInput c .cmd (Sys2Proof.encode .tableWr), .wait]
  | .putNode i w =>
    [wrInput c .nodeIdx (i.setWidth 32), wrInput c .nodeData w, wrInput c .cmd (Sys2Proof.encode .nodeWr), .wait]
  | .putIn a bs => wrInput c (.bufAddr .ibuf) a :: bs.map fun b => wrInput c (.bufData .ibuf) (b.setWidth 32)
  | .getOut a n => wrInput c (.bufAddr .obuf) a :: List.replicate n (rdInput c (.bufData .obuf))

/-- What the host does for a program (30_encoding.md R118, R119). -/
def expandProgram (c : Config) (ls : List Line) : List Input := ls.flatMap (expandLine c)

/-- A state whose host is about to run a program: its inputs are the program's. -/
def State.withProgram (s : State) (ls : List Line) : State := s.setInputs (expandProgram s.cfg ls)

/-- A bit string read as a binary number, its first bit most significant (43_code_table.md R223). -/
def bitsValue (bs : List Bool) : Nat := bs.foldl (fun v b => 2 * v + b.toNat) 0

/-- The line that loads one record of the code-table artifact: a symbol and its bit string. A string longer than 255
bits cannot be represented, and the host rejects it (43_code_table.md R223). -/
def recordLine (sym : Byte) (code : List Bool) : Option Line :=
  if code.length ≤ 255 then
    some (.loadCode sym (BitVec.ofNat 8 code.length) (BitVec.ofNat 256 (bitsValue code)))
  else none

/-- The lines that load a table's records (43_code_table.md R223). R223 has the host reject a record that is too long
and is silent on the other records of its table: DESIGN CHOICE (log 22), with one such record there is no program at
all, so that no command runs on part of a table. -/
def loadTable (records : List (Byte × List Bool)) : Option (List Line) :=
  (records.mapM fun r => recordLine r.1 r.2).map fun ls => .run .tableClear :: ls

/-- The lines that hand over the external builder's tree and derive its codes (70_reset_and_hazards.md R343 (1a)). -/
def loadTree (nodes : List (SlotIndex × Word)) (root : SlotIndex) : List Line :=
  nodes.map (fun n => .putNode n.1 n.2) ++ [.wr .root (root.setWidth 32), .run .assign]

/-- The optional lock of the boot orders (70_reset_and_hazards.md R343 (2), R344 (3)). The write keeps IRQ_EN as
given. -/
def lockLines (lock irqEn : Bool) : List Line :=
  if lock then [.wr .ctrl (bitAt true 0 ||| bitAt irqEn 1)] else []

/-- The rest of the boot order for ENCODE, after the table is loaded (70_reset_and_hazards.md R343). -/
def encodeLines (lock irqEn : Bool) (input : List Byte) : List Line :=
  lockLines lock irqEn ++ [.putIn 0 input, .wr .inLen (BitVec.ofNat 32 input.length), .run .encode]

/-- Step (2) of the boot order for DECODE: BUILD, unless SYNC is already 1 (70_reset_and_hazards.md R344). -/
def buildLines (synced : Bool) : List Line := if synced then [] else [.run .build]

/-- The rest of the boot order for DECODE, after step (1); `synced` says whether SYNC is already 1 then
(70_reset_and_hazards.md R344). -/
def decodeLines (synced lock irqEn : Bool) (packed : List Byte) (bitCount : Word) : List Line :=
  buildLines synced ++ lockLines lock irqEn ++ [.putIn 0 packed, .wr .bitLen bitCount, .run .decode]

/-- Step (1) of the boot order for DECODE: the table loaded from an artifact's records, or the table that ASSIGN left
behind kept (70_reset_and_hazards.md R344). -/
inductive DecodeTable where
  | load (records : List (Byte × List Bool))
  | keep
  deriving DecidableEq, Repr

/-- The whole boot order for DECODE from a state of the block (70_reset_and_hazards.md R344). Loading starts with
TABLE_CLEAR, which clears SYNC, so BUILD follows it; a kept table needs BUILD only where SYNC is 0. -/
def decodeProgram (s : State) (table : DecodeTable) (lock : Bool) (packed : List Byte) (bitCount : Word) :
    Option (List Line) :=
  match table with
  | .load records => (loadTable records).map (· ++ decodeLines false lock s.irqEn packed bitCount)
  | .keep => some (decodeLines s.sync lock s.irqEn packed bitCount)

end Sys2Proof.Machine
end

