-- ==== Sys2Proof/WellFormed.lean ====
section
/-! DEFINITION. Which terms stand for something the spec gives a meaning. A command has no operand, so every
`Instr` is well-formed (30_encoding.md R111); a host access is well-formed when 40_control.md R140 defines it. -/

namespace Sys2Proof

/-- Every command is well-formed: it has no field that could hold an illegal value (30_encoding.md R111). -/
def Instr.wellFormed (_ : Instr) : Bool := true

/-- The access is 32 bits wide (20_memory.md R85). -/
def Machine.Access.wordWide (a : Machine.Access) : Bool := a.bits == 32

/-- The access is a single one, no burst (20_memory.md R85). -/
def Machine.Access.single (a : Machine.Access) : Bool := a.beats == 1

/-- The address lies in the 256-byte window at BASE (20_memory.md R81). -/
def Machine.Access.inWindow (c : Config) (a : Machine.Access) : Bool :=
  c.base ≤ a.addr && a.addr < c.base + 256

/-- The offset from BASE is a multiple of 4 (20_memory.md R85; BASE itself is one). -/
def Machine.Access.aligned (a : Machine.Access) : Bool := a.addr % 4 == 0

/-- The accesses that have a meaning (20_memory.md R85, 40_control.md R140). -/
def Machine.Access.wellFormed (c : Config) (a : Machine.Access) : Bool :=
  a.wordWide && a.single && a.inWindow c && a.aligned

end Sys2Proof
end

