-- ==== Sys2Proof/Safety.lean ====
section
/-! DEFINITION. The terms the claims use: which slots a tree reaches, when a tree decodes a table, prefix-freeness,
the source's string-matching decoder, and the invariants of the machine. -/

namespace Sys2Proof.Machine

/-! ### Trees and tables -/

/-- The slot a path leads to from slot `n`: bit 0 left, bit 1 right (41_tree_assign.md R179); a leaf has no
children, and NIL ends the path. -/
def walkTree (tm : Slot → Word) : Slot → List Bool → Option Slot
  | n, [] => some n
  | n, b :: bs =>
    if leafNode (tm n) then none
    else
      match childOf (tm n) b with
      | none => none
      | some c => walkTree tm c bs

/-- The slot a path leads to from ROOT. -/
def State.reach (s : State) (path : List Bool) : Option Slot :=
  (slotOf s.root).bind fun r => walkTree s.tmAt r path

/-- A path leads from ROOT to a leaf of symbol `sym`. -/
def State.LeafAt (s : State) (path : List Bool) (sym : Byte) : Prop :=
  ∃ n, s.reach path = some n ∧ leafNode (s.tmAt n) = true ∧ nodeSym (s.tmAt n) = sym

/-- The code a leaf's path stands for: the path itself, and "0" for the lone root leaf (41_tree_assign.md R176,
R178). -/
def leafBits (path : List Bool) : List Bool := if path = [] then [false] else path

/-- The code is one CT may hold: 1 <= len and val < 2^len (10_state.md R58). -/
def Code.Legal (c : Code) : Prop := 1 ≤ c.len.toNat ∧ c.val.toNat < 2 ^ c.len.toNat

/-- Every valid entry is legal (10_state.md R58). -/
def State.TableLegal (s : State) : Prop := ∀ sym c, s.ctAt sym = some c → c.Legal

/-- SYM_COUNT is the number of valid entries (10_state.md R51). -/
def State.CountsTable (s : State) : Prop := s.symCount.toNat = s.validEntries.length

/-- No code is equal to, or the beginning of, the code of another symbol (10_state.md R59). -/
def State.PrefixFree (s : State) : Prop :=
  ∀ a b ca cb, a ≠ b → s.ctAt a = some ca → s.ctAt b = some cb → ¬ ca.bits <+: cb.bits

/-- The tree from ROOT decodes the code table: every slot a path leads to is used, every leaf's path is its symbol's
code, and every code is the path of a leaf of its symbol (10_state.md R37, 41_tree_assign.md R177). -/
structure State.TreeMatches (s : State) : Prop where
  rooted : ∃ r, slotOf s.root = some r
  used : ∀ path n, s.reach path = some n → usedNode (s.tmAt n) = true
  leafCode : ∀ path sym, s.LeafAt path sym → ∃ c, s.ctAt sym = some c ∧ c.bits = leafBits path
  codeLeaf : ∀ sym c, s.ctAt sym = some c → ∃ path, s.LeafAt path sym ∧ c.bits = leafBits path

/-- Every slot a path leads to has a leaf below it: no dead branches, as BUILD leaves the tree
(43_code_table.md R226). -/
def State.TreeTight (s : State) : Prop :=
  ∀ path n, s.reach path = some n → ∃ rest sym, s.LeafAt (path ++ rest) sym

/-! ### The walk of ASSIGN -/

/-- Path `p` comes before path `q` in depth-first preorder: a node before its subtrees, the left one before the right
one (41_tree_assign.md R174). -/
def pathBefore : List Bool → List Bool → Bool
  | [], [] => false
  | [], _ :: _ => true
  | _ :: _, [] => false
  | a :: p, b :: q => if a = b then pathBefore p q else !a

/-- Slot `n`, which path `p` leads to, is reached by an earlier path (41_tree_assign.md R175). -/
def State.Revisited (s : State) (p : List Bool) (n : Slot) : Prop :=
  ∃ q, pathBefore q p = true ∧ s.reach q = some n

/-- Slot `n`, which path `p` leads to, is a leaf whose symbol an earlier leaf already holds (41_tree_assign.md R175). -/
def State.SymbolTaken (s : State) (p : List Bool) (n : Slot) : Prop :=
  leafNode (s.tmAt n) = true ∧ ∃ q, pathBefore q p = true ∧ s.LeafAt q (nodeSym (s.tmAt n))

/-- No error of 41_tree_assign.md R175 applies to slot `n`, reached by path `p`. -/
def State.VisitOk (s : State) (p : List Bool) (n : Slot) : Prop :=
  usedNode (s.tmAt n) = true ∧ ¬ s.Revisited p n ∧ p.length ≤ 255 ∧ ¬ s.SymbolTaken p n

/-- The walk stops at slot `n`, reached by path `p`: no error applies to an earlier path, and the error with this code
applies here; the checks come in the order of 41_tree_assign.md R174. `counted` is 1 where NODE_COUNT has counted the
slot before the check that stops the walk. -/
structure State.AssignStopsAt (s : State) (p : List Bool) (n : Slot) (code : Byte) (counted : Nat) : Prop where
  here : s.reach p = some n
  first : ∀ q m, pathBefore q p = true → s.reach q = some m → s.VisitOk q m
  error :
    (code = 7 ∧ counted = 0 ∧ (usedNode (s.tmAt n) = false ∨ s.Revisited p n)) ∨
    (code = 8 ∧ counted = 0 ∧ usedNode (s.tmAt n) = true ∧ ¬ s.Revisited p n ∧ 255 < p.length) ∨
    (code = 7 ∧ counted = 1 ∧ usedNode (s.tmAt n) = true ∧ ¬ s.Revisited p n ∧ p.length ≤ 255 ∧ s.SymbolTaken p n)

/-- What the walk wrote before path `p` is what `t` holds: the codes of the earlier leaves and no others, their number,
and the number of the earlier slots and of `counted` more (41_tree_assign.md R174, R175). -/
structure State.AssignedBefore (s t : State) (p : List Bool) (counted : Nat) : Prop where
  codes : ∀ a c, t.ctAt a = some c ↔
    c.Legal ∧ ∃ q, pathBefore q p = true ∧ s.LeafAt q a ∧ c.bits = leafBits q
  symCount : t.symCount.toNat = {q : List Bool | pathBefore q p = true ∧ ∃ a, s.LeafAt q a}.ncard
  nodeCount : t.nodeCount.toNat = {q : List Bool | pathBefore q p = true ∧ ∃ m, s.reach q = some m}.ncard + counted

/-! ### Streams -/

/-- The input symbols of ENCODE, IBUF bytes 0..IN_LEN-1 (42_encode.md R200). -/
def State.inputSyms (s : State) : List Byte := (List.range s.inLen.toNat).map (s.bufByte .ibuf)

/-- The concatenated codes of symbols, the bitstream (30_encoding.md R116); a symbol with no entry adds nothing. -/
def State.codeBits (s : State) (syms : List Byte) : List Bool :=
  syms.flatMap fun a => match s.ctAt a with
    | some c => c.bits
    | none => []

/-- The first `n` bits of the packed input (00_scope.md R13). -/
def State.streamBits (s : State) (n : Nat) : List Bool := (List.range n).map s.streamBit

/-- Bit `k` of the packed bytes of OBUF (20_memory.md R82). -/
def State.outBit (s : State) (k : Nat) : Bool := bitInByte (s.bufByte .obuf (k / 8)) k

/-- The symbol whose code is exactly `cand`, the inverted table (44_decode.md R256). -/
def State.keyOf (s : State) (cand : List Bool) : Option Byte :=
  (s.validEntries.find? fun e => e.2.bits == cand).map (·.1)

/-- The source's decoder (44_decode.md R256): bits accumulate in a candidate buffer; a match emits its symbol and
empties the buffer. The answer is the symbols and the residual candidate. -/
def State.matchStream (s : State) : List Bool → List Bool → List Byte × List Bool
  | cand, [] => ([], cand)
  | cand, b :: bs =>
    match s.keyOf (cand ++ [b]) with
    | some sym => (sym :: (s.matchStream [] bs).1, (s.matchStream [] bs).2)
    | none => s.matchStream (cand ++ [b]) bs

/-! ### Invariants -/

/-- Both buffers are in canonical form, inside their capacity. -/
def State.BuffersWf (s : State) : Prop := s.ibuf.wf s.cfg.ibufBytes ∧ s.obuf.wf s.cfg.obufBytes

/-- No unimplemented bit is set in NODE_DATA or in TM (10_state.md R48, R60). -/
def State.NodesMasked (s : State) : Prop :=
  s.nodeData &&& nodeMask = s.nodeData ∧ ∀ n, s.tmAt n &&& nodeMask = s.tmAt n

/-- While a command is pending, what its issue cleared is clear (40_control.md R147). -/
def State.IssueClean (s : State) : Prop :=
  s.busy = true → s.done = false ∧ s.err = false ∧ s.errCode = 0 ∧ s.errInfo = 0

/-- ERR_CODE is one of 60_exceptions.md R300's codes, ERR stands for a recorded error, and without an error code
ERR_INFO is 0. -/
def State.ErrorRecorded (s : State) : Prop :=
  s.errCode.toNat ≤ 15 ∧ (s.err = true → s.errCode ≠ 0) ∧ (s.errCode = 0 → s.errInfo = 0)

/-- What a model can rely on while SYNC = 1 (10_state.md R37): at least one symbol, and with two or more a used
internal root. -/
def State.SyncRooted (s : State) : Prop :=
  s.sync = true → 1 ≤ s.symCount.toNat ∧ ∃ r, slotOf s.root = some r ∧ usedNode (s.tmAt r) = true ∧
    (2 ≤ s.symCount.toNat → leafNode (s.tmAt r) = false)

/-- The machine's invariant: what every step keeps. -/
structure State.Inv (s : State) : Prop where
  buffers : s.BuffersWf
  legal : s.TableLegal
  counts : s.CountsTable
  masked : s.NodesMasked
  clean : s.IssueClean
  recorded : s.ErrorRecorded
  outLen : s.outLen.toNat ≤ s.cfg.obufBytes
  nodeCount : s.nodeCount.toNat ≤ 511
  rooted : s.SyncRooted

/-- While SYNC = 1 the tree decodes the table (10_state.md R37). -/
def State.SyncSound (s : State) : Prop := s.sync = true → s.TreeMatches

/-! ### Reset -/

/-- Every piece of state of the block has its reset value (the table of 70_reset_and_hazards.md R340); the bytes of
the buffers are the draws of reset number `e`. -/
structure State.AtReset (s : State) (e : Nat) : Prop where
  id : s.regWord .id = 0x48554646
  version : s.regWord .version = 0x00010000
  lock : s.lock = false
  irqEn : s.irqEn = false
  pending : s.pending = none
  done : s.done = false
  err : s.err = false
  ovr : s.ovr = false
  sync : s.sync = false
  errCode : s.errCode = 0
  errInfo : s.errInfo = 0
  inLen : s.inLen = 0
  bitLen : s.bitLen = 0
  outLen : s.outLen = 0
  sym : s.sym = 0
  codeLen : s.codeLen = 0
  codeW : ∀ k : Fin 8, s.codeW[k.val] = 0
  nodeIdx : s.nodeIdx = 0
  nodeData : s.nodeData = 0
  root : s.root = 0x1FF
  nodeCount : s.nodeCount = 0
  symCount : s.symCount = 0
  ibufAddr : s.ibufAddr = 0
  obufAddr : s.obufAddr = 0
  ibufSize : (s.regWord (.bufSize .ibuf)).toNat = s.cfg.ibufBytes
  obufSize : (s.regWord (.bufSize .obuf)).toNat = s.cfg.obufBytes
  table : ∀ a, s.ctAt a = none
  tree : ∀ n, s.tmAt n = 0
  buffers : ∀ b a, s.bufByte b a = bufDraw e b a
  irq : s.irq = false

/-! ### Outcomes of commands -/

/-- The state after a command that raised no error in a state `s` (40_control.md R148). -/
def State.succeeds (s : State) : State := { s with pending := none, done := true }

/-- The state after a command that raised an error in a state `s` (60_exceptions.md R304). -/
def State.fails (s : State) (code : Byte) (info : Word) : State :=
  { s with pending := none, done := true, err := true, errCode := code, errInfo := info }

/-- Whether a step from `s` is the ENGINE's execution of command `i`. -/
def State.Executes (s : State) (i : Instr) : Prop :=
  ∃ w, s.turn = .engine w ∧ Sys2Proof.decode w = .ok i

end Sys2Proof.Machine
end

