-- ==== Sys2Proof/Certificates/Slice0/Obligations.lean ====
section
/-! DEFINITION. The statements of HUFF-DP for the provers, from the numbered rules of spec/. -/

open Sys2Proof Sys2Proof.Machine

/-! ### Encodings -/

/-- Words written out from 30_encoding.md R111 and R112 decode to their command or are rejected by name. -/
def Obligations.SampleWordsDecode : Prop :=
  decode 0x00000000 = .ok .nop ∧ decode 0x00000002 = .ok .tableWr ∧ decode 0x00000005 = .ok .nodeWr ∧
  decode 0x00000007 = .ok .assign ∧ decode 0x00000009 = .ok .encode ∧ decode 0x0000000A = .ok .decode ∧
  decode 0x0000000B = .error .opcodeOutsideMap ∧ decode 0x00000109 = .error .reservedBits ∧
  decode 0xFFFFFFFF = .error .reservedBits

/-- 30_encoding.md R111: the opcode map, and that a word selects a command only when the whole word equals the
command's match value. -/
def Obligations.OpcodeMapIsExact : Prop :=
  (∀ (w : Word) (i : Instr), decode w = .ok i ↔ w = encode i) ∧
  encode .nop = 0x00000000 ∧ encode .tableClear = 0x00000001 ∧ encode .tableWr = 0x00000002 ∧
  encode .tableRd = 0x00000003 ∧ encode .treeClear = 0x00000004 ∧ encode .nodeWr = 0x00000005 ∧
  encode .nodeRd = 0x00000006 ∧ encode .assign = 0x00000007 ∧ encode .build = 0x00000008 ∧
  encode .encode = 0x00000009 ∧ encode .decode = 0x0000000A

/-- 30_encoding.md R112: an illegal word is issued like any command, and its ENGINE step raises ILLEGAL_CMD with the
whole word in ERR_INFO and changes nothing else (the ENGINE step uses up one choice of the model's scheduler). -/
def Obligations.IllegalWordsRaiseIllegalCmd : Prop :=
  ∀ (w : Word) (s : State), 0x0B ≤ (w.extractLsb' 0 8).toNat ∨ w.extractLsb' 8 24 ≠ 0 →
    (s.pending = none → hostWrite 0x10 w s =
      { s with pending := some w, done := false, err := false, errCode := 0, errInfo := 0 }) ∧
    (s.turn = .engine w → step s = .next (({ s with sched := s.sched.tail } : State).fails 1 w))

/-- 00_scope.md R12 and 30_encoding.md R114: the fields of a node word and the canonical words. -/
def Obligations.NodeWordFields : Prop :=
  (∀ w : Word, usedNode w = w.getLsbD 31 ∧ leafNode w = w.getLsbD 30 ∧ nodeSym w = w.extractLsb' 0 8 ∧
    nodeLeft w = w.extractLsb' 0 9 ∧ nodeRight w = w.extractLsb' 16 9) ∧
  (∀ a : Byte, leafWord a = 0xC0000000 ||| a.setWidth 32) ∧
  (∀ l r : Slot, linkWord (linkWord emptyInternal false l) true r =
    0x80000000 ||| (BitVec.ofNat 32 r.val <<< 16) ||| BitVec.ofNat 32 l.val)

/-- 00_scope.md R10 and R13, 20_memory.md R82 and R83: a legal code denotes its bits, L of them, first bit V[L-1]; read
as a binary number they give V back. Bit b of the stream is bit 7 - b mod 8 of IBUF byte b div 8. -/
def Obligations.BitOrderOfCodesAndStreams : Prop :=
  (∀ c : Code, c.Legal → c.bits.length = c.len.toNat ∧ bitsValue c.bits = c.val.toNat ∧
    ∀ i, i < c.len.toNat → c.bits.getD i false = c.val.getLsbD (c.len.toNat - 1 - i)) ∧
  ∀ (s : State) (b : Nat), s.streamBit b = (s.bufByte .ibuf (b / 8)).getLsbD (7 - b % 8)

/-! ### Steps -/

/-- A step at a pending word that decodes executes the decoded command, where the ENGINE moves; the model's scheduler
uses up one choice. -/
def Obligations.StepRunsDecodedCommand : Prop :=
  ∀ (s : State) (w : Word) (i : Instr), s.pending = some w → s.inputs = [] ∨ s.sched.head? ≠ some .host →
    decode w = .ok i → step s = exec i { s with sched := s.sched.tail }

/-- 00_scope.md R7, R8: while idle the next step is the outside world's next; while busy it is so where the scheduler
says HOST; with nothing pending and nothing to come, nothing changes (the model's choice, log 3). -/
def Obligations.StepRunsHostStep : Prop :=
  (∀ (s : State) (i : Input) (rest : List Input), s.inputs = i :: rest → s.pending = none →
    step s = hostStep i rest s) ∧
  (∀ (s : State) (w : Word) (i : Input) (rest : List Input) (sched : List Agent), s.inputs = i :: rest →
    s.pending = some w → s.sched = .host :: sched → step s = hostStep i rest { s with sched := sched }) ∧
  (∀ s : State, s.inputs = [] → s.pending = none → step s = .next s)

/-- 40_control.md R147: a host write of CMD while idle issues the word. -/
def Obligations.CmdWriteIssuesCommand : Prop :=
  ∀ (s : State) (d : Word) (rest : List Input), s.pending = none → s.inputs = wrInput s.cfg .cmd d :: rest →
    step s = .next { s with
      inputs := rest, pending := some d, done := false, err := false, errCode := 0, errInfo := 0 }

/-- 40_control.md R148, 60_exceptions.md R304: a command that answers a next state has completed (BUSY 0, DONE 1) and
either recorded nothing or recorded ERR with a code of 60_exceptions.md R300. -/
def Obligations.CommandsCompleteAndRecordErrors : Prop :=
  ∀ (i : Instr) (s t : State), exec i s = .next t → t.pending = none ∧ t.done = true ∧
    ((t.err = s.err ∧ t.errCode = s.errCode ∧ t.errInfo = s.errInfo) ∨
      (t.err = true ∧ 1 ≤ t.errCode.toNat ∧ t.errCode.toNat ≤ 15))

/-- 20_memory.md R97 as the model has it (log 1): a pending command has completed or been reset after at most one step
more than the scheduler's choices, in every run that goes that far. -/
def Obligations.EngineEventuallyMoves : Prop :=
  ∀ s t : State, s.busy = true → core.run (s.sched.length + 1) s = .next t →
    ∃ k u, k ≤ s.sched.length + 1 ∧ core.run k s = .next u ∧ u.busy = false

/-! ### Reset -/

/-- 70_reset_and_hazards.md R340: asserting reset is one step that puts every piece of state at its reset value,
whatever the block was doing (idle, or busy where the scheduler lets the world outside move); and `State.reset` has
those values. -/
def Obligations.ResetGivesResetValues : Prop :=
  (∀ (s : State) (rest : List Input), s.inputs = .reset :: rest → s.pending = none ∨ s.sched.head? = some .host →
    ∃ t, step s = .next t ∧ t.AtReset (s.epoch + 1)) ∧
  State.reset.AtReset State.reset.epoch

/-! ### The register window -/

/-- 20_memory.md R85, 40_control.md R140, R146: a host step that is a single 32-bit access at a multiple of 4 inside
the window is HostRead, whose word the host gets (`rdata`, log 8), or HostWrite, after the input and, while busy, one
scheduler choice are used up (log 1, log 2). Every other access is refused. Which name the refusal has where several
reasons apply is the model's choice, width before burst before window before alignment (log 15). -/
def Obligations.OnlyWordAccessesInWindow : Prop :=
  ∀ (s u : State) (a : Access) (rest : List Input), s.inputs = .access a :: rest →
    s.pending = none ∨ s.sched.head? = some .host →
    u = { s with inputs := rest, sched := if s.busy then s.sched.tail else s.sched } →
    (a.bits = 32 ∧ a.beats = 1 ∧ s.cfg.base ≤ a.addr ∧ a.addr < s.cfg.base + 256 ∧
      (a.addr - s.cfg.base) % 4 = 0 →
      (a.dir = .read → step s = .next { (hostRead (a.addr - s.cfg.base) u).2 with
        rdata := some (hostRead (a.addr - s.cfg.base) u).1 }) ∧
      ∀ d, a.dir = .write d → step s = .next (hostWrite (a.addr - s.cfg.base) d u)) ∧
    (a.bits ≠ 32 → step s = .refused .accessWidth) ∧
    (a.bits = 32 → a.beats ≠ 1 → step s = .refused .burstAccess) ∧
    (a.bits = 32 → a.beats = 1 → a.addr < s.cfg.base ∨ s.cfg.base + 256 ≤ a.addr →
      step s = .refused .outsideWindow) ∧
    (a.bits = 32 → a.beats = 1 → s.cfg.base ≤ a.addr → a.addr < s.cfg.base + 256 →
      (a.addr - s.cfg.base) % 4 ≠ 0 → step s = .refused .misalignedOffset)

/-- 40_control.md R141: what a read returns while idle at every offset; only the data ports have a side effect. -/
def Obligations.IdleReadsFollowRegisterMap : Prop :=
  ∀ s : State, s.pending = none →
    hostRead 0x00 s = (0x48554646, s) ∧ hostRead 0x04 s = (0x00010000, s) ∧
    hostRead 0x08 s = (BitVec.ofNat 32 (s.lock.toNat + 2 * s.irqEn.toNat), s) ∧
    hostRead 0x0C s =
      (BitVec.ofNat 32 (2 * s.done.toNat + 4 * s.err.toNat + 8 * s.ovr.toNat + 16 * s.sync.toNat), s) ∧
    hostRead 0x10 s = (0, s) ∧ hostRead 0x14 s = (s.errCode.setWidth 32, s) ∧ hostRead 0x18 s = (s.errInfo, s) ∧
    hostRead 0x1C s = (s.inLen, s) ∧ hostRead 0x20 s = (s.bitLen, s) ∧ hostRead 0x24 s = (s.outLen, s) ∧
    hostRead 0x28 s = (s.sym.setWidth 32, s) ∧ hostRead 0x2C s = (s.codeLen.setWidth 32, s) ∧
    (∀ k : Fin 8, hostRead (0x30 + 4 * k.val) s = (s.codeW[k.val], s)) ∧
    hostRead 0x50 s = (s.nodeIdx.setWidth 32, s) ∧ hostRead 0x54 s = (s.nodeData, s) ∧
    hostRead 0x58 s = (s.root.setWidth 32, s) ∧ hostRead 0x5C s = (s.nodeCount.setWidth 32, s) ∧
    hostRead 0x60 s = (s.symCount.setWidth 32, s) ∧ hostRead 0x64 s = (s.ibufAddr, s) ∧
    hostRead 0x68 s = (if s.ibufAddr.toNat < s.cfg.ibufBytes
      then (s.bufByte .ibuf s.ibufAddr.toNat).setWidth 32 else 0, { s with ibufAddr := s.ibufAddr + 1 }) ∧
    hostRead 0x6C s = (s.obufAddr, s) ∧
    hostRead 0x70 s = (if s.obufAddr.toNat < s.cfg.obufBytes
      then (s.bufByte .obuf s.obufAddr.toNat).setWidth 32 else 0, { s with obufAddr := s.obufAddr + 1 }) ∧
    hostRead 0x74 s = (BitVec.ofNat 32 s.cfg.ibufBytes, s) ∧ hostRead 0x78 s = (BitVec.ofNat 32 s.cfg.obufBytes, s) ∧
    ∀ off, 0x7C ≤ off → off ≤ 0xFC → hostRead off s = (0, s)

/-- 40_control.md R142: what a write does while idle at every offset; `DataPortsMoveOneByte` says what PortWrite
does. -/
def Obligations.IdleWritesFollowRegisterMap : Prop :=
  ∀ (s : State) (d : Word), s.pending = none →
    hostWrite 0x08 d s = { s with lock := d.getLsbD 0, irqEn := d.getLsbD 1 } ∧
    hostWrite 0x0C d s = { s with
      done := if d.getLsbD 1 then false else s.done
      err := if d.getLsbD 2 then false else s.err
      ovr := if d.getLsbD 3 then false else s.ovr } ∧
    hostWrite 0x10 d s = { s with pending := some d, done := false, err := false, errCode := 0, errInfo := 0 } ∧
    hostWrite 0x1C d s = { s with inLen := d } ∧ hostWrite 0x20 d s = { s with bitLen := d } ∧
    hostWrite 0x28 d s = { s with sym := d.setWidth 8 } ∧ hostWrite 0x2C d s = { s with codeLen := d.setWidth 8 } ∧
    (∀ k : Fin 8, hostWrite (0x30 + 4 * k.val) d s = { s with codeW := s.codeW.set k.val d }) ∧
    hostWrite 0x50 d s = { s with nodeIdx := d.setWidth 9 } ∧
    hostWrite 0x54 d s = { s with nodeData := d &&& 0xC1FF01FF } ∧
    (s.lock = false → hostWrite 0x58 d s = { s with root := d.setWidth 9, sync := false }) ∧
    (s.lock = true → hostWrite 0x58 d s = s) ∧
    hostWrite 0x64 d s = { s with ibufAddr := d } ∧ hostWrite 0x6C d s = { s with obufAddr := d } ∧
    hostWrite 0x68 d s = portWrite .ibuf (d.setWidth 8) s ∧ hostWrite 0x70 d s = portWrite .obuf (d.setWidth 8) s ∧
    (∀ off ∈ [0x00, 0x04, 0x14, 0x18, 0x24, 0x5C, 0x60, 0x74, 0x78], hostWrite off d s = s) ∧
    ∀ off, 0x7C ≤ off → off ≤ 0xFC → hostWrite off d s = s

/-- 40_control.md R143: a data-port access while idle moves one byte where the address is inside the buffer, and adds 1
to the address modulo 2^32 in every case. -/
def Obligations.DataPortsMoveOneByte : Prop :=
  ∀ s : State, s.pending = none →
    (hostRead 0x68 s).1 = (if s.ibufAddr.toNat < s.cfg.ibufBytes
      then (s.bufByte .ibuf s.ibufAddr.toNat).setWidth 32 else 0) ∧
    (hostRead 0x68 s).2 = { s with ibufAddr := BitVec.ofNat 32 (s.ibufAddr.toNat + 1) } ∧
    (hostRead 0x70 s).1 = (if s.obufAddr.toNat < s.cfg.obufBytes
      then (s.bufByte .obuf s.obufAddr.toNat).setWidth 32 else 0) ∧
    (hostRead 0x70 s).2 = { s with obufAddr := BitVec.ofNat 32 (s.obufAddr.toNat + 1) } ∧
    ∀ d : Word, ∃ t u,
      hostWrite 0x68 d s = t ∧ t = { s with ibuf := t.ibuf, ibufAddr := BitVec.ofNat 32 (s.ibufAddr.toNat + 1) } ∧
      (∀ a, t.bufByte .ibuf a = if a = s.ibufAddr.toNat ∧ a < s.cfg.ibufBytes then d.setWidth 8
        else s.bufByte .ibuf a) ∧
      hostWrite 0x70 d s = u ∧ u = { s with obuf := u.obuf, obufAddr := BitVec.ofNat 32 (s.obufAddr.toNat + 1) } ∧
      ∀ a, u.bufByte .obuf a = if a = s.obufAddr.toNat ∧ a < s.cfg.obufBytes then d.setWidth 8
        else s.bufByte .obuf a

/-- 40_control.md R144: while busy, ID, VERSION, CTRL and STATUS read exactly; every other offset returns a draw, of
which nothing is said, with no side effect on the block. -/
def Obligations.BusyReadsAreDraws : Prop :=
  ∀ s : State, s.busy = true →
    hostRead 0x00 s = (0x48554646, s) ∧ hostRead 0x04 s = (0x00010000, s) ∧
    hostRead 0x08 s = (BitVec.ofNat 32 (s.lock.toNat + 2 * s.irqEn.toNat), s) ∧
    hostRead 0x0C s =
      (BitVec.ofNat 32 (1 + 2 * s.done.toNat + 4 * s.err.toNat + 8 * s.ovr.toNat + 16 * s.sync.toNat), s) ∧
    ∀ off, off ≠ 0x00 → off ≠ 0x04 → off ≠ 0x08 → off ≠ 0x0C →
      hostRead off s = (Config.busyRead s.draws, { s with draws := s.draws + 1 })

/-- 40_control.md R145: while busy, a write of STATUS clears its flags as while idle, and any other write changes
nothing but OVR, which it sets. -/
def Obligations.BusyWritesAreDropped : Prop :=
  ∀ (s : State) (d : Word), s.busy = true →
    hostWrite 0x0C d s = { s with
      done := if d.getLsbD 1 then false else s.done
      err := if d.getLsbD 2 then false else s.err
      ovr := if d.getLsbD 3 then false else s.ovr } ∧
    ∀ off, off ≠ 0x0C → hostWrite off d s = { s with ovr := true }

/-- 20_memory.md R93 (c), 40_control.md R144, R145: while busy, no host access or pass of WAIT changes an operand, a
table, a buffer or the pending command; of the flags it can only clear DONE, ERR and OVR or set OVR. -/
def Obligations.BusyHostStepsKeepOperands : Prop :=
  ∀ (s t : State) (i : Input) (rest : List Input), s.busy = true → s.turn = .host i rest → i ≠ .reset →
    step s = .next t →
    t = { s with
      done := t.done, err := t.err, ovr := t.ovr, draws := t.draws, inputs := t.inputs, sched := t.sched,
      rdata := t.rdata } ∧
    (t.done = true → s.done = true) ∧ (t.err = true → s.err = true)

/-- 30_encoding.md R119: WAIT reads STATUS in one step and comes again exactly while BUSY reads 1. -/
def Obligations.WaitPollsBusy : Prop :=
  ∀ (s : State) (rest : List Input), ∃ t, hostStep .wait rest s = .next t ∧
    t.rdata = some s.statusWord ∧ t.inputs = (if s.busy then .wait :: rest else rest) ∧
    t = { s with rdata := t.rdata, inputs := t.inputs }

/-- 10_state.md R65, 60_exceptions.md R307: IRQ is IRQ_EN and DONE; after reset it is 0; it is 1 after the completion
of every command, successful or not, exactly while IRQ_EN = 1. -/
def Obligations.IrqRisesAtCompletion : Prop :=
  (∀ s : State, s.irq = (s.irqEn && s.done)) ∧ State.reset.irq = false ∧
  (∀ (i : Instr) (s t : State), exec i s = .next t → t.irqEn = s.irqEn ∧ t.irq = s.irqEn) ∧
  ∀ (w : Word) (s t : State), illegalCommand w s = .next t → t.irqEn = s.irqEn ∧ t.irq = s.irqEn

/-! ### NOP and the small commands -/

/-- 40_control.md R150: NOP only completes, whatever LOCK is; issued from idle it leaves DONE = 1, ERR = 0 and SYNC
as it was, and IRQ = IRQ_EN. -/
def Obligations.NopOnlyCompletes : Prop :=
  (∀ s : State, exec .nop s = .next s.succeeds) ∧
  ∀ s : State, s.pending = none → ∃ t, exec .nop (hostWrite 0x10 0x00000000 s) = .next t ∧
    t = { s with done := true, err := false, errCode := 0, errInfo := 0 } ∧ t.irq = s.irqEn

/-- 43_code_table.md R220. -/
def Obligations.TableClearEmptiesTable : Prop :=
  ∀ s : State, (s.lock = true → exec .tableClear s = .next (s.fails 2 0x01)) ∧
    (s.lock = false → ∃ t, exec .tableClear s = .next t ∧ (∀ a, t.ctAt a = none) ∧ t.symCount = 0 ∧ t.sync = false ∧
      t = { s.succeeds with ct := t.ct, symCount := t.symCount, sync := t.sync } ∧
      (0 < t.inLen.toNat → t.inLen.toNat ≤ t.cfg.ibufBytes →
        ∃ u, exec .encode t = .next u ∧ u.err = true ∧ u.errCode = 4 ∧ u.errInfo = 0))

/-- 43_code_table.md R221: the entry TABLE_WR writes is (1, L, CODEV mod 2^L). -/
def Obligations.TableWrWritesEntry : Prop :=
  ∀ s : State, (s.lock = true → exec .tableWr s = .next (s.fails 2 0x02)) ∧
    (s.lock = false → s.codeLen = 0 → exec .tableWr s = .next (s.fails 5 (s.sym.setWidth 32))) ∧
    (s.lock = false → s.codeLen ≠ 0 → ∃ t c, exec .tableWr s = .next t ∧ t.ctAt s.sym = some c ∧ c.len = s.codeLen ∧
      c.val.toNat = (∑ k : Fin 8, (s.codeW[k.val]).toNat * 2 ^ (32 * k.val)) % 2 ^ s.codeLen.toNat ∧
      (∀ a, a ≠ s.sym → t.ctAt a = s.ctAt a) ∧
      t.symCount = (if (s.ctAt s.sym).isSome then s.symCount else s.symCount + 1) ∧ t.sync = false ∧
      t = { s.succeeds with ct := t.ct, symCount := t.symCount, sync := t.sync })

/-- 43_code_table.md R222: TABLE_RD has no error, and an invalid entry reads as zeros. -/
def Obligations.TableRdReadsEntry : Prop :=
  ∀ s : State, ∃ t, exec .tableRd s = .next t ∧ t = { s.succeeds with codeLen := t.codeLen, codeW := t.codeW } ∧
    (s.ctAt s.sym = none → t.codeLen = 0 ∧ ∀ k : Fin 8, t.codeW[k.val] = 0) ∧
    ∀ c, s.ctAt s.sym = some c → t.codeLen = c.len ∧
      ∀ k : Fin 8, (t.codeW[k.val]).toNat = c.val.toNat / 2 ^ (32 * k.val) % 2 ^ 32

/-- 10_state.md R46, 30_encoding.md R115: what TABLE_WR wrote, TABLE_RD reads back, with the bits at and above L as
0. -/
def Obligations.TableWrThenTableRd : Prop :=
  ∀ s : State, s.lock = false → s.codeLen ≠ 0 → ∃ t u, exec .tableWr s = .next t ∧ exec .tableRd t = .next u ∧
    u.codeLen = s.codeLen ∧
    (∑ k : Fin 8, (u.codeW[k.val]).toNat * 2 ^ (32 * k.val)) =
      (∑ k : Fin 8, (s.codeW[k.val]).toNat * 2 ^ (32 * k.val)) % 2 ^ s.codeLen.toNat

/-- 41_tree_assign.md R170. -/
def Obligations.TreeClearEmptiesTree : Prop :=
  ∀ s : State, (s.lock = true → exec .treeClear s = .next (s.fails 2 0x04)) ∧
    (s.lock = false → ∃ t, exec .treeClear s = .next t ∧ (∀ n, t.tmAt n = 0) ∧ t.nodeCount = 0 ∧ t.sync = false ∧
      t = { s.succeeds with tm := t.tm, nodeCount := t.nodeCount, sync := t.sync } ∧
      (t.root ≠ 0x1FF → ∃ u, exec .assign t = .next u ∧ u.err = true ∧ u.errCode = 7 ∧
        u.errInfo = t.root.setWidth 32) ∧
      ∀ n : Slot, ∃ u, exec .nodeRd { t with nodeIdx := BitVec.ofNat 9 n.val } = .next u ∧ u.nodeData = 0)

/-- 41_tree_assign.md R171. -/
def Obligations.NodeWrWritesSlot : Prop :=
  ∀ s : State, (s.lock = true → exec .nodeWr s = .next (s.fails 2 0x05)) ∧
    (s.lock = false → s.nodeIdx = 0x1FF → exec .nodeWr s = .next (s.fails 6 0x1FF)) ∧
    (s.lock = false → ∀ n : Slot, s.nodeIdx.toNat = n.val → ∃ t, exec .nodeWr s = .next t ∧
      t.tmAt n = s.nodeData ∧ (∀ m, m ≠ n → t.tmAt m = s.tmAt m) ∧ t.sync = false ∧
      t = { s.succeeds with tm := t.tm, sync := t.sync })

/-- 41_tree_assign.md R172. -/
def Obligations.NodeRdReadsSlot : Prop :=
  ∀ s : State, (s.nodeIdx = 0x1FF → exec .nodeRd s = .next (s.fails 6 0x1FF)) ∧
    ∀ n : Slot, s.nodeIdx.toNat = n.val → exec .nodeRd s = .next { s.succeeds with nodeData := s.tmAt n }

/-- 10_state.md R35, 60_exceptions.md R300 (code 2): while LOCK = 1 the six writing commands complete with LOCKED, the
opcode in ERR_INFO, and change nothing else. -/
def Obligations.LockedCommandsChangeNothing : Prop :=
  ∀ (s : State) (i : Instr), s.lock = true →
    i ∈ [.tableClear, .tableWr, .treeClear, .nodeWr, .assign, .build] →
    exec i s = .next (s.fails 2 (i.opcode.setWidth 32))

/-! ### ASSIGN -/

/-- 41_tree_assign.md R174, R175: ASSIGN always ends, changes nothing but CT, SYM_COUNT, NODE_COUNT, SYNC and what a
completion records, and either succeeds with SYNC = 1 or raises one of its errors with SYNC = 0: INVALID_INPUT where
no path leads to a leaf, or, at the first path of the walk where one applies, MALFORMED_TREE or CODE_TOO_LONG with the
slot in ERR_INFO and exactly what the walk wrote before it in CT, SYM_COUNT and NODE_COUNT. -/
def Obligations.AssignCompletes : Prop :=
  ∀ s : State, s.lock = false → ∃ t, exec .assign s = .next t ∧
    t = { s.succeeds with
      ct := t.ct, symCount := t.symCount, nodeCount := t.nodeCount, sync := t.sync, err := t.err,
      errCode := t.errCode, errInfo := t.errInfo } ∧
    ((t.sync = true ∧ t.err = s.err ∧ t.errCode = s.errCode ∧ t.errInfo = s.errInfo ∧ 1 ≤ t.symCount.toNat) ∨
      (t.sync = false ∧ t.err = true ∧
        ((t.errCode = 3 ∧ t.errInfo = 0 ∧ t.symCount = 0 ∧ (∀ a, t.ctAt a = none) ∧ ∀ p a, ¬ s.LeafAt p a) ∨
          ∃ p n counted, s.AssignStopsAt p n t.errCode counted ∧ t.errInfo = BitVec.ofNat 32 n.val ∧
            s.AssignedBefore t p counted)))

/-- 41_tree_assign.md R175: the errors ASSIGN raises at the root. -/
def Obligations.AssignRootErrors : Prop :=
  ∀ s : State, s.lock = false →
    (s.root = 0x1FF → exec .assign s = .next (({ s with
      ct := Vector.replicate 256 none, symCount := 0, nodeCount := 0, sync := false } : State).fails 3 0)) ∧
    ∀ r : Slot, s.root.toNat = r.val → (s.tmAt r).getLsbD 31 = false →
      exec .assign s = .next (({ s with
        ct := Vector.replicate 256 none, symCount := 0, nodeCount := 0, sync := false } : State).fails 7
          (BitVec.ofNat 32 r.val))

/-- 41_tree_assign.md R178: a lone root leaf gets the code "0", and the table is ready for the single-symbol path. -/
def Obligations.AssignLoneLeafGetsZero : Prop :=
  ∀ (s : State) (r : Slot), s.lock = false → s.root.toNat = r.val → (s.tmAt r).getLsbD 31 = true →
    (s.tmAt r).getLsbD 30 = true →
    ∃ t c, exec .assign s = .next t ∧ t.ctAt ((s.tmAt r).setWidth 8) = some c ∧ c.len = 1 ∧ c.val = 0 ∧
      (∀ a, a ≠ (s.tmAt r).setWidth 8 → t.ctAt a = none) ∧ t.symCount = 1 ∧ t.nodeCount = 1 ∧ t.sync = true ∧
      t.soleEntry = some ((s.tmAt r).setWidth 8, c) ∧
      t = { s.succeeds with ct := t.ct, symCount := t.symCount, nodeCount := t.nodeCount, sync := t.sync }

/-- 41_tree_assign.md R176: the state a successful ASSIGN leaves. -/
def Obligations.AssignGivesPathCodes : Prop :=
  ∀ s t : State, s.lock = false → exec .assign s = .next t → t.sync = true →
    (∀ a c, t.ctAt a = some c ↔ c.Legal ∧ ∃ path, s.LeafAt path a ∧ c.bits = leafBits path) ∧
    t.symCount.toNat = {n : Slot | ∃ path, s.reach path = some n ∧ leafNode (s.tmAt n) = true}.ncard ∧
    1 ≤ t.symCount.toNat ∧ t.nodeCount.toNat = {n : Slot | ∃ path, s.reach path = some n}.ncard ∧
    t.tm = s.tm ∧ t.root = s.root

/-- 41_tree_assign.md R177: the table ASSIGN leaves is prefix-free, and with two or more symbols walking a code's bits
from ROOT reaches the code's leaf. -/
def Obligations.AssignCodesArePrefixFree : Prop :=
  ∀ s t : State, s.lock = false → exec .assign s = .next t → t.sync = true →
    t.PrefixFree ∧ (2 ≤ t.symCount.toNat → ∀ a c, t.ctAt a = some c → t.LeafAt c.bits a)

/-- 41_tree_assign.md R174, R175, R180: ASSIGN succeeds exactly on the trees in which every slot a path leads to is
used and at most 255 deep, no slot is reached by two paths, no symbol stands on two leaves, and there is a leaf. -/
def Obligations.AssignSucceedsExactlyOnGoodTrees : Prop :=
  ∀ s : State, s.lock = false → ∃ t, exec .assign s = .next t ∧
    (t.sync = true ↔
      (∀ path n, s.reach path = some n → usedNode (s.tmAt n) = true ∧ path.length ≤ 255) ∧
      (∀ p q n, s.reach p = some n → s.reach q = some n → p = q) ∧
      (∀ p q a, s.LeafAt p a → s.LeafAt q a → p = q) ∧ ∃ p a, s.LeafAt p a)

/-! ### BUILD -/

/-- 43_code_table.md R225, R229 (a): BUILD always ends, changes nothing but TM, ROOT, NODE_COUNT, SYNC and what a
completion records, and either succeeds with SYNC = 1 or raises one of its errors with SYNC = 0. -/
def Obligations.BuildCompletes : Prop :=
  ∀ s : State, s.lock = false → ∃ t, exec .build s = .next t ∧
    t = { s.succeeds with
      tm := t.tm, root := 0, nodeCount := t.nodeCount, sync := t.sync, err := t.err, errCode := t.errCode,
      errInfo := t.errInfo } ∧
    ((t.sync = true ∧ t.err = s.err ∧ t.errCode = s.errCode ∧ t.errInfo = s.errInfo) ∨
      (t.sync = false ∧ t.err = true ∧
        ((s.symCount = 0 ∧ t.errCode = 3 ∧ t.errInfo = 0) ∨
          (s.symCount ≠ 0 ∧ (t.errCode = 9 ∨ (t.errCode = 10 ∧ t.nodeCount = 511)) ∧
            ∃ a c, t.errInfo = a.setWidth 32 ∧ s.ctAt a = some c))))

/-- 43_code_table.md R226: the state a successful BUILD leaves. -/
def Obligations.BuildLeavesTrie : Prop :=
  ∀ s t : State, s.lock = false → s.TableLegal → s.CountsTable → exec .build s = .next t → t.sync = true →
    t.root = 0 ∧ t.ct = s.ct ∧ t.symCount = s.symCount ∧
    t.nodeCount.toNat = {p : List Bool | ∃ a c, s.ctAt a = some c ∧ p <+: c.bits}.ncard ∧
    (∀ n : Slot, n.val < t.nodeCount.toNat ↔ ∃ path, t.reach path = some n) ∧
    (∀ n : Slot, n.val < t.nodeCount.toNat → (∃ a : Byte, t.tmAt n = 0xC0000000 ||| a.setWidth 32) ∨
      ∃ l r : SlotIndex, t.tmAt n = 0x80000000 ||| (r.setWidth 32 <<< 16) ||| l.setWidth 32) ∧
    (∀ n : Slot, t.nodeCount.toNat ≤ n.val → t.tmAt n = 0) ∧
    ∀ path a, t.LeafAt path a ↔ ∃ c, s.ctAt a = some c ∧ c.bits = path

/-- 43_code_table.md R227: BUILD succeeds only on a prefix-free table with distinct codes, raises PREFIX_CONFLICT on
none such, and where it raises it, the symbol it names has a code that begins, or is begun by, an earlier symbol's. -/
def Obligations.BuildChecksPrefixFreeness : Prop :=
  ∀ s t : State, s.lock = false → s.TableLegal → s.CountsTable → exec .build s = .next t →
    (t.sync = true → s.PrefixFree) ∧
    (t.sync = false → t.errCode = 9 → ¬ s.PrefixFree ∧ ∃ a b ca cb, t.errInfo = a.setWidth 32 ∧
      b.toNat < a.toNat ∧ s.ctAt a = some ca ∧ s.ctAt b = some cb ∧ (cb.bits <+: ca.bits ∨ ca.bits <+: cb.bits))

/-- 43_code_table.md R225, R227, R228: on a non-empty prefix-free table with distinct codes BUILD succeeds where the
trie of the codes needs at most 511 slots, and otherwise raises TREE_OVERFLOW with all 511 slots taken. -/
def Obligations.BuildSucceedsUpTo511Nodes : Prop :=
  ∀ s : State, s.lock = false → s.TableLegal → s.CountsTable → s.symCount ≠ 0 → s.PrefixFree →
    ∃ t, exec .build s = .next t ∧
      (if {p : List Bool | ∃ a c, s.ctAt a = some c ∧ p <+: c.bits}.ncard ≤ 511 then
        t = { s.succeeds with tm := t.tm, root := 0, nodeCount := t.nodeCount, sync := true } ∧
        t.nodeCount.toNat = {p : List Bool | ∃ a c, s.ctAt a = some c ∧ p <+: c.bits}.ncard
      else t.sync = false ∧ t.err = true ∧ t.errCode = 10 ∧ t.nodeCount = 511)

/-- 43_code_table.md R229 (d): BUILD followed by ASSIGN gives back the same table. -/
def Obligations.BuildThenAssignGivesTableBack : Prop :=
  ∀ s t : State, s.lock = false → s.TableLegal → s.CountsTable → exec .build s = .next t → t.sync = true →
    ∃ u, exec .assign t = .next u ∧ u.ct = s.ct ∧ u.symCount = s.symCount ∧ u.nodeCount = t.nodeCount ∧
      u.sync = true ∧ u.tm = t.tm

/-! ### ENCODE -/

/-- 42_encode.md R201, 44_decode.md R251: the checks of the two streaming commands, before anything else is done. -/
def Obligations.StreamCommandsCheckOperands : Prop :=
  ∀ s : State, (s.cfg.ibufBytes < s.inLen.toNat → exec .encode s = .next (s.fails 14 s.inLen)) ∧
    (s.sync = false → exec .decode s = .next (s.fails 11 0)) ∧
    (s.sync = true → s.cfg.ibufBytes < (s.bitLen.toNat + 7) / 8 → exec .decode s = .next (s.fails 14 s.bitLen))

/-- 42_encode.md R203: the closed form of ENCODE. -/
def Obligations.EncodePacksConcatenatedCodes : Prop :=
  ∀ s : State, ∃ t, exec .encode s = .next t ∧
    (if s.inLen.toNat ≤ s.cfg.ibufBytes ∧ (∀ a ∈ s.inputSyms, s.ctAt a ≠ none) ∧
        (s.codeBits s.inputSyms).length ≤ 8 * s.cfg.obufBytes then
      t = { s.succeeds with obuf := t.obuf, outLen := t.outLen, bitLen := t.bitLen } ∧
      t.bitLen.toNat = (s.codeBits s.inputSyms).length ∧
      t.outLen.toNat = ((s.codeBits s.inputSyms).length + 7) / 8 ∧
      (∀ k j, k < ((s.codeBits s.inputSyms).length + 7) / 8 → j < 8 →
        (t.bufByte .obuf k).getLsbD (7 - j) = (s.codeBits s.inputSyms).getD (8 * k + j) false) ∧
      ∀ a, ((s.codeBits s.inputSyms).length + 7) / 8 ≤ a → t.bufByte .obuf a = s.bufByte .obuf a
    else t.err = true ∧ (t.errCode = 4 ∨ t.errCode = 14 ∨ t.errCode = 15))

/-- 42_encode.md R205: what UNKNOWN_SYMBOL at input index i leaves, where OBUF had room for the whole bytes before it. -/
def Obligations.EncodeUnknownSymbolLeavesPrefix : Prop :=
  ∀ (s : State) (i : Nat), s.inLen.toNat ≤ s.cfg.ibufBytes → i < s.inLen.toNat →
    (∀ j, j < i → s.ctAt (s.bufByte .ibuf j) ≠ none) → s.ctAt (s.bufByte .ibuf i) = none →
    (s.codeBits (s.inputSyms.take i)).length / 8 ≤ s.cfg.obufBytes →
    ∃ t, exec .encode s = .next t ∧
      t = { s.fails 4 (BitVec.ofNat 32 i) with obuf := t.obuf, outLen := t.outLen, bitLen := t.bitLen } ∧
      t.bitLen.toNat = (s.codeBits (s.inputSyms.take i)).length ∧
      t.outLen.toNat = (s.codeBits (s.inputSyms.take i)).length / 8 ∧
      (∀ k j, k < t.outLen.toNat → j < 8 →
        (t.bufByte .obuf k).getLsbD (7 - j) = (s.codeBits (s.inputSyms.take i)).getD (8 * k + j) false) ∧
      ∀ a, t.outLen.toNat ≤ a → t.bufByte .obuf a = s.bufByte .obuf a

/-- 42_encode.md R206: what OUTPUT_OVERFLOW leaves, for the symbol whose bit completed the byte too many, and for the
final padded byte. -/
def Obligations.EncodeOverflowFillsBuffer : Prop :=
  ∀ (s : State) (i : Nat), s.inLen.toNat ≤ s.cfg.ibufBytes → i ≤ s.inLen.toNat →
    (∀ j, j < i + 1 → j < s.inLen.toNat → s.ctAt (s.bufByte .ibuf j) ≠ none) →
    (s.codeBits (s.inputSyms.take i)).length < 8 * (s.cfg.obufBytes + 1) →
    ((i < s.inLen.toNat ∧ 8 * (s.cfg.obufBytes + 1) ≤ (s.codeBits (s.inputSyms.take (i + 1))).length) ∨
      (i = s.inLen.toNat ∧ 8 * s.cfg.obufBytes < (s.codeBits (s.inputSyms.take i)).length)) →
    ∃ t, exec .encode s = .next t ∧
      t = { s.fails 15 (BitVec.ofNat 32 i) with obuf := t.obuf, outLen := t.outLen, bitLen := t.bitLen } ∧
      t.outLen.toNat = s.cfg.obufBytes ∧ t.bitLen.toNat = (s.codeBits (s.inputSyms.take i)).length ∧
      ∀ k j, k < s.cfg.obufBytes → j < 8 →
        (t.bufByte .obuf k).getLsbD (7 - j) = (s.codeBits s.inputSyms).getD (8 * k + j) false

/-! ### DECODE -/

/-- 44_decode.md R250, R259 (c): from every state that meets the invariant DECODE completes, and changes nothing but
OBUF below OUT_LEN, OUT_LEN and what a completion records. -/
def Obligations.DecodeCompletes : Prop :=
  ∀ s : State, s.Inv → ∃ t, exec .decode s = .next t ∧
    t = { s.succeeds with
      obuf := t.obuf, outLen := t.outLen, err := t.err, errCode := t.errCode, errInfo := t.errInfo } ∧
    (∀ a, t.outLen.toNat ≤ a → t.bufByte .obuf a = s.bufByte .obuf a) ∧
    ((t.err = s.err ∧ t.errCode = s.errCode ∧ t.errInfo = s.errInfo) ∨
      (t.err = true ∧ 11 ≤ t.errCode.toNat ∧ t.errCode.toNat ≤ 15))

/-- 44_decode.md R253: the single-symbol path emits the symbol BIT_LEN div L times. -/
def Obligations.DecodeSingleSymbolCopies : Prop :=
  ∀ (s : State) (a : Byte) (c : Code), s.sync = true → (s.bitLen.toNat + 7) / 8 ≤ s.cfg.ibufBytes → s.symCount = 1 →
    s.validEntries = [(a, c)] → c.len ≠ 0 →
    ∃ t, exec .decode s = .next t ∧
      t.outLen.toNat = min (s.bitLen.toNat / c.len.toNat) s.cfg.obufBytes ∧
      (∀ k, k < t.outLen.toNat → t.bufByte .obuf k = a) ∧
      (∀ k, t.outLen.toNat ≤ k → t.bufByte .obuf k = s.bufByte .obuf k) ∧
      (if s.cfg.obufBytes < s.bitLen.toNat / c.len.toNat then
        t = { s.fails 15 (BitVec.ofNat 32 (s.cfg.obufBytes * c.len.toNat + c.len.toNat - 1)) with
          obuf := t.obuf, outLen := t.outLen }
      else if s.bitLen.toNat % c.len.toNat ≠ 0 then
        t = { s.fails 13 (BitVec.ofNat 32 (s.bitLen.toNat % c.len.toNat)) with obuf := t.obuf, outLen := t.outLen }
      else t = { s.succeeds with obuf := t.obuf, outLen := t.outLen })

/-- 44_decode.md R256, R254, R255: on a tree that decodes the table, DECODE emits what the source's string matching
emits, and it raises an error exactly where a residual is left: TRAILING_BITS with its length where the residual is a
path of the tree, else INVALID_CODE with the index of the first bit that leads to NIL. -/
def Obligations.DecodeMatchesStringMatching : Prop :=
  ∀ (s : State) (syms : List Byte) (residual : List Bool), s.Inv → s.TreeMatches → s.sync = true →
    (s.bitLen.toNat + 7) / 8 ≤ s.cfg.ibufBytes → 2 ≤ s.symCount.toNat →
    s.matchStream [] (s.streamBits s.bitLen.toNat) = (syms, residual) → syms.length ≤ s.cfg.obufBytes →
    ∃ t, exec .decode s = .next t ∧ t.outLen.toNat = syms.length ∧
      (∀ k, k < t.outLen.toNat → syms[k]? = some (t.bufByte .obuf k)) ∧
      (∀ k, t.outLen.toNat ≤ k → t.bufByte .obuf k = s.bufByte .obuf k) ∧
      (residual = [] → t = { s.succeeds with obuf := t.obuf, outLen := t.outLen }) ∧
      (residual ≠ [] → (s.reach residual).isSome = true →
        t = { s.fails 13 (BitVec.ofNat 32 residual.length) with obuf := t.obuf, outLen := t.outLen }) ∧
      (s.reach residual = none → ∃ k, k < residual.length ∧ (s.reach (residual.take k)).isSome = true ∧
        s.reach (residual.take (k + 1)) = none ∧
        t = { s.fails 12 (BitVec.ofNat 32 (s.bitLen.toNat - residual.length + k)) with
          obuf := t.obuf, outLen := t.outLen })

/-- 44_decode.md R257: what DECODE leaves where the stream holds more symbols than OBUF bytes. ERR_INFO is the index of
the last bit of the code of the first symbol that found no room. -/
def Obligations.DecodeOverflowFillsBuffer : Prop :=
  ∀ (s : State) (syms : List Byte) (residual : List Bool), s.Inv → s.TreeMatches → s.sync = true →
    (s.bitLen.toNat + 7) / 8 ≤ s.cfg.ibufBytes → 2 ≤ s.symCount.toNat →
    s.matchStream [] (s.streamBits s.bitLen.toNat) = (syms, residual) → s.cfg.obufBytes < syms.length →
    ∃ t, exec .decode s = .next t ∧
      t = { s.fails 15 (BitVec.ofNat 32 ((s.codeBits (syms.take (s.cfg.obufBytes + 1))).length - 1)) with
        obuf := t.obuf, outLen := t.outLen } ∧
      t.outLen.toNat = s.cfg.obufBytes ∧
      (∀ k, k < s.cfg.obufBytes → syms[k]? = some (t.bufByte .obuf k)) ∧
      ∀ k, s.cfg.obufBytes ≤ k → t.bufByte .obuf k = s.bufByte .obuf k

/-- 44_decode.md R256, on a tree with no dead branch: which of the two errors DECODE raises says whether the residual
begins a code. -/
def Obligations.DecodeResidualErrorOnTightTree : Prop :=
  ∀ (s t : State) (syms : List Byte) (residual : List Bool), s.Inv → s.TreeMatches → s.TreeTight → s.sync = true →
    (s.bitLen.toNat + 7) / 8 ≤ s.cfg.ibufBytes → 2 ≤ s.symCount.toNat →
    s.matchStream [] (s.streamBits s.bitLen.toNat) = (syms, residual) → syms.length ≤ s.cfg.obufBytes →
    residual ≠ [] → exec .decode s = .next t →
    (t.errCode = 13 ↔ ∃ a c, s.ctAt a = some c ∧ residual <+: c.bits) ∧
    (t.errCode = 12 ↔ ¬ ∃ a c, s.ctAt a = some c ∧ residual <+: c.bits)

/-- 44_decode.md R258: DECODE of what a successful ENCODE packed gives the input back. `s` is the state ENCODE starts
from and `t` the one it leaves; `u` is a later state with the same table and bit count, the packed bytes in IBUF, and a
tree that decodes the table. -/
def Obligations.DecodeInvertsEncode : Prop :=
  ∀ s t u : State, s.err = false → exec .encode s = .next t → t.err = false →
    u.cfg = s.cfg → u.ct = s.ct → u.bitLen = t.bitLen → (t.bitLen.toNat + 7) / 8 ≤ s.cfg.ibufBytes →
    (∀ k, k < (t.bitLen.toNat + 7) / 8 → u.bufByte .ibuf k = t.bufByte .obuf k) →
    u.Inv → u.sync = true → u.TreeMatches → s.inLen.toNat ≤ s.cfg.obufBytes →
    ∃ v, exec .decode u = .next v ∧ v = { u.succeeds with obuf := v.obuf, outLen := v.outLen } ∧
      v.outLen = s.inLen ∧ ∀ k, k < s.inLen.toNat → v.bufByte .obuf k = s.bufByte .ibuf k

/-! ### Frames and whole-machine rules -/

/-- 30_encoding.md R113: which fields each command can write; every other field of the state, the buffers among them,
is unchanged. -/
def Obligations.CommandsWriteOnlyTheirRegisters : Prop :=
  ∀ (i : Instr) (s t : State), exec i s = .next t →
    match i with
    | .nop => t = s.succeeds
    | .tableClear | .tableWr => t = { s.succeeds with
        ct := t.ct, symCount := t.symCount, sync := t.sync, err := t.err, errCode := t.errCode, errInfo := t.errInfo }
    | .tableRd => t = { s.succeeds with codeLen := t.codeLen, codeW := t.codeW }
    | .treeClear => t = { s.succeeds with
        tm := t.tm, nodeCount := t.nodeCount, sync := t.sync, err := t.err, errCode := t.errCode,
        errInfo := t.errInfo }
    | .nodeWr => t = { s.succeeds with
        tm := t.tm, sync := t.sync, err := t.err, errCode := t.errCode, errInfo := t.errInfo }
    | .nodeRd => t = { s.succeeds with
        nodeData := t.nodeData, err := t.err, errCode := t.errCode, errInfo := t.errInfo }
    | .assign => t = { s.succeeds with
        ct := t.ct, symCount := t.symCount, nodeCount := t.nodeCount, sync := t.sync, err := t.err,
        errCode := t.errCode, errInfo := t.errInfo }
    | .build => t = { s.succeeds with
        tm := t.tm, root := t.root, nodeCount := t.nodeCount, sync := t.sync, err := t.err, errCode := t.errCode,
        errInfo := t.errInfo }
    | .encode => t = { s.succeeds with
        obuf := t.obuf, outLen := t.outLen, bitLen := t.bitLen, err := t.err, errCode := t.errCode,
        errInfo := t.errInfo }
    | .decode => t = { s.succeeds with
        obuf := t.obuf, outLen := t.outLen, err := t.err, errCode := t.errCode, errInfo := t.errInfo }

/-- Every byte of both buffers that a command does not store reads as before: only ENCODE and DECODE store, and only
OBUF bytes at indices below the OUT_LEN they leave (10_state.md R43, R61). -/
def Obligations.CommandsKeepOtherBytes : Prop :=
  ∀ (i : Instr) (s t : State), exec i s = .next t →
    (∀ a, t.bufByte .ibuf a = s.bufByte .ibuf a) ∧
    (i ≠ .encode → i ≠ .decode → ∀ a, t.bufByte .obuf a = s.bufByte .obuf a) ∧
    (i = .encode ∨ i = .decode → ∀ a, t.outLen.toNat ≤ a → t.bufByte .obuf a = s.bufByte .obuf a)

/-- 10_state.md R35, 60_exceptions.md R311: while LOCK = 1 no step but reset changes CT, TM, ROOT or SYNC. -/
def Obligations.LockMakesTablesReadOnly : Prop :=
  ∀ s t : State, s.lock = true → (∀ rest, s.turn ≠ .host .reset rest) → step s = .next t →
    t.ct = s.ct ∧ t.tm = s.tm ∧ t.root = s.root ∧ t.sync = s.sync

/-- 10_state.md R37: SYNC rises only at ASSIGN and BUILD, and falls only at the six commands that change the table or
the tree, unlocked, at an effective write of ROOT, and at reset. -/
def Obligations.OnlyListedEventsChangeSync : Prop :=
  ∀ s t : State, step s = .next t →
    (s.sync = false → t.sync = true → s.lock = false ∧ (s.Executes .assign ∨ s.Executes .build)) ∧
    (s.sync = true → t.sync = false →
      (s.lock = false ∧ ∃ i ∈ [Instr.tableClear, .tableWr, .treeClear, .nodeWr, .assign, .build], s.Executes i) ∨
      (s.lock = false ∧ s.busy = false ∧ ∃ a rest d, s.turn = .host (.access a) rest ∧ a.dir = .write d ∧
        a.addr = s.cfg.base + 0x58) ∨
      ∃ rest, s.turn = .host .reset rest)

/-- 10_state.md R36, 40_control.md R145: OVR rises only at a write, other than to STATUS, while busy, and falls only at
a write of STATUS with bit 3, and at reset. -/
def Obligations.OnlyDroppedWritesSetOvr : Prop :=
  ∀ s t : State, step s = .next t →
    (s.ovr = false → t.ovr = true → s.busy = true ∧ ∃ a rest d, s.turn = .host (.access a) rest ∧ a.dir = .write d ∧
      a.addr ≠ s.cfg.base + 0x0C) ∧
    (s.ovr = true → t.ovr = false → (∃ a rest d, s.turn = .host (.access a) rest ∧ a.dir = .write d ∧
      a.addr = s.cfg.base + 0x0C ∧ d.getLsbD 3 = true) ∨ ∃ rest, s.turn = .host .reset rest)

/-- 00_scope.md R4, R5: no step changes the parameters, and the capacities lie in 1 .. 2^24. -/
def Obligations.ParametersAreFixed : Prop :=
  ∀ s t : State, step s = .next t → t.cfg = s.cfg ∧ t.cfg.base % 256 = 0 ∧
    1 ≤ t.cfg.ibufBytes ∧ t.cfg.ibufBytes ≤ 2 ^ 24 ∧ 1 ≤ t.cfg.obufBytes ∧ t.cfg.obufBytes ≤ 2 ^ 24

/-! ### Invariants -/

/-- The reset state meets the machine's invariants. -/
def Obligations.ResetMeetsInvariants : Prop := State.reset.Inv ∧ State.reset.SyncSound

/-- Every step keeps the machine's invariant: the buffers' canonical form, legal codes, SYM_COUNT, the unimplemented
bits of node words, what issue clears, recorded errors, the counts' ranges, and a rooted tree while SYNC = 1. -/
def Obligations.StepKeepsInvariant : Prop := ∀ s t : State, s.Inv → step s = .next t → t.Inv

/-- Every step keeps: while SYNC = 1, the tree from ROOT decodes the code table (10_state.md R37). -/
def Obligations.StepKeepsSyncSound : Prop :=
  ∀ s t : State, s.Inv → s.SyncSound → step s = .next t → t.SyncSound

/-- From every state that meets the invariant, a step stops only at an access the spec gives no meaning: it never
faults. -/
def Obligations.StepNeverFaults : Prop := ∀ (s : State) (f : Fault), s.Inv → step s ≠ .fault f
end

