-- ==== Sys2Proof/Laws/State.lean ====
section
/-! SUPPORT. One lemma per field per state update: what each named update of Machine/ leaves in each field. -/

namespace Sys2Proof.Machine

variable (s : State)

@[simp] theorem State.writeCtrl_cfg (d : Word) : (s.writeCtrl d).cfg = s.cfg := rfl
@[simp] theorem State.writeCtrl_lock (d : Word) : (s.writeCtrl d).lock = d.getLsbD 0 := rfl
@[simp] theorem State.writeCtrl_irqEn (d : Word) : (s.writeCtrl d).irqEn = d.getLsbD 1 := rfl
@[simp] theorem State.writeCtrl_done (d : Word) : (s.writeCtrl d).done = s.done := rfl
@[simp] theorem State.writeCtrl_err (d : Word) : (s.writeCtrl d).err = s.err := rfl
@[simp] theorem State.writeCtrl_ovr (d : Word) : (s.writeCtrl d).ovr = s.ovr := rfl
@[simp] theorem State.writeCtrl_sync (d : Word) : (s.writeCtrl d).sync = s.sync := rfl
@[simp] theorem State.writeCtrl_pending (d : Word) : (s.writeCtrl d).pending = s.pending := rfl
@[simp] theorem State.writeCtrl_errCode (d : Word) : (s.writeCtrl d).errCode = s.errCode := rfl
@[simp] theorem State.writeCtrl_errInfo (d : Word) : (s.writeCtrl d).errInfo = s.errInfo := rfl
@[simp] theorem State.writeCtrl_inLen (d : Word) : (s.writeCtrl d).inLen = s.inLen := rfl
@[simp] theorem State.writeCtrl_bitLen (d : Word) : (s.writeCtrl d).bitLen = s.bitLen := rfl
@[simp] theorem State.writeCtrl_outLen (d : Word) : (s.writeCtrl d).outLen = s.outLen := rfl
@[simp] theorem State.writeCtrl_sym (d : Word) : (s.writeCtrl d).sym = s.sym := rfl
@[simp] theorem State.writeCtrl_codeLen (d : Word) : (s.writeCtrl d).codeLen = s.codeLen := rfl
@[simp] theorem State.writeCtrl_codeW (d : Word) : (s.writeCtrl d).codeW = s.codeW := rfl
@[simp] theorem State.writeCtrl_nodeIdx (d : Word) : (s.writeCtrl d).nodeIdx = s.nodeIdx := rfl
@[simp] theorem State.writeCtrl_nodeData (d : Word) : (s.writeCtrl d).nodeData = s.nodeData := rfl
@[simp] theorem State.writeCtrl_root (d : Word) : (s.writeCtrl d).root = s.root := rfl
@[simp] theorem State.writeCtrl_nodeCount (d : Word) : (s.writeCtrl d).nodeCount = s.nodeCount := rfl
@[simp] theorem State.writeCtrl_symCount (d : Word) : (s.writeCtrl d).symCount = s.symCount := rfl
@[simp] theorem State.writeCtrl_ibufAddr (d : Word) : (s.writeCtrl d).ibufAddr = s.ibufAddr := rfl
@[simp] theorem State.writeCtrl_obufAddr (d : Word) : (s.writeCtrl d).obufAddr = s.obufAddr := rfl
@[simp] theorem State.writeCtrl_ct (d : Word) : (s.writeCtrl d).ct = s.ct := rfl
@[simp] theorem State.writeCtrl_tm (d : Word) : (s.writeCtrl d).tm = s.tm := rfl
@[simp] theorem State.writeCtrl_ibuf (d : Word) : (s.writeCtrl d).ibuf = s.ibuf := rfl
@[simp] theorem State.writeCtrl_obuf (d : Word) : (s.writeCtrl d).obuf = s.obuf := rfl
@[simp] theorem State.writeCtrl_epoch (d : Word) : (s.writeCtrl d).epoch = s.epoch := rfl
@[simp] theorem State.writeCtrl_draws (d : Word) : (s.writeCtrl d).draws = s.draws := rfl
@[simp] theorem State.writeCtrl_inputs (d : Word) : (s.writeCtrl d).inputs = s.inputs := rfl
@[simp] theorem State.writeCtrl_sched (d : Word) : (s.writeCtrl d).sched = s.sched := rfl
@[simp] theorem State.writeCtrl_rdata (d : Word) : (s.writeCtrl d).rdata = s.rdata := rfl

@[simp] theorem State.writeStatus_cfg (d : Word) : (s.writeStatus d).cfg = s.cfg := rfl
@[simp] theorem State.writeStatus_lock (d : Word) : (s.writeStatus d).lock = s.lock := rfl
@[simp] theorem State.writeStatus_irqEn (d : Word) : (s.writeStatus d).irqEn = s.irqEn := rfl
@[simp] theorem State.writeStatus_done (d : Word) : (s.writeStatus d).done = (s.done && !d.getLsbD 1) := rfl
@[simp] theorem State.writeStatus_err (d : Word) : (s.writeStatus d).err = (s.err && !d.getLsbD 2) := rfl
@[simp] theorem State.writeStatus_ovr (d : Word) : (s.writeStatus d).ovr = (s.ovr && !d.getLsbD 3) := rfl
@[simp] theorem State.writeStatus_sync (d : Word) : (s.writeStatus d).sync = s.sync := rfl
@[simp] theorem State.writeStatus_pending (d : Word) : (s.writeStatus d).pending = s.pending := rfl
@[simp] theorem State.writeStatus_errCode (d : Word) : (s.writeStatus d).errCode = s.errCode := rfl
@[simp] theorem State.writeStatus_errInfo (d : Word) : (s.writeStatus d).errInfo = s.errInfo := rfl
@[simp] theorem State.writeStatus_inLen (d : Word) : (s.writeStatus d).inLen = s.inLen := rfl
@[simp] theorem State.writeStatus_bitLen (d : Word) : (s.writeStatus d).bitLen = s.bitLen := rfl
@[simp] theorem State.writeStatus_outLen (d : Word) : (s.writeStatus d).outLen = s.outLen := rfl
@[simp] theorem State.writeStatus_sym (d : Word) : (s.writeStatus d).sym = s.sym := rfl
@[simp] theorem State.writeStatus_codeLen (d : Word) : (s.writeStatus d).codeLen = s.codeLen := rfl
@[simp] theorem State.writeStatus_codeW (d : Word) : (s.writeStatus d).codeW = s.codeW := rfl
@[simp] theorem State.writeStatus_nodeIdx (d : Word) : (s.writeStatus d).nodeIdx = s.nodeIdx := rfl
@[simp] theorem State.writeStatus_nodeData (d : Word) : (s.writeStatus d).nodeData = s.nodeData := rfl
@[simp] theorem State.writeStatus_root (d : Word) : (s.writeStatus d).root = s.root := rfl
@[simp] theorem State.writeStatus_nodeCount (d : Word) : (s.writeStatus d).nodeCount = s.nodeCount := rfl
@[simp] theorem State.writeStatus_symCount (d : Word) : (s.writeStatus d).symCount = s.symCount := rfl
@[simp] theorem State.writeStatus_ibufAddr (d : Word) : (s.writeStatus d).ibufAddr = s.ibufAddr := rfl
@[simp] theorem State.writeStatus_obufAddr (d : Word) : (s.writeStatus d).obufAddr = s.obufAddr := rfl
@[simp] theorem State.writeStatus_ct (d : Word) : (s.writeStatus d).ct = s.ct := rfl
@[simp] theorem State.writeStatus_tm (d : Word) : (s.writeStatus d).tm = s.tm := rfl
@[simp] theorem State.writeStatus_ibuf (d : Word) : (s.writeStatus d).ibuf = s.ibuf := rfl
@[simp] theorem State.writeStatus_obuf (d : Word) : (s.writeStatus d).obuf = s.obuf := rfl
@[simp] theorem State.writeStatus_epoch (d : Word) : (s.writeStatus d).epoch = s.epoch := rfl
@[simp] theorem State.writeStatus_draws (d : Word) : (s.writeStatus d).draws = s.draws := rfl
@[simp] theorem State.writeStatus_inputs (d : Word) : (s.writeStatus d).inputs = s.inputs := rfl
@[simp] theorem State.writeStatus_sched (d : Word) : (s.writeStatus d).sched = s.sched := rfl
@[simp] theorem State.writeStatus_rdata (d : Word) : (s.writeStatus d).rdata = s.rdata := rfl

@[simp] theorem State.setSync_cfg (b : Bool) : (s.setSync b).cfg = s.cfg := rfl
@[simp] theorem State.setSync_lock (b : Bool) : (s.setSync b).lock = s.lock := rfl
@[simp] theorem State.setSync_irqEn (b : Bool) : (s.setSync b).irqEn = s.irqEn := rfl
@[simp] theorem State.setSync_done (b : Bool) : (s.setSync b).done = s.done := rfl
@[simp] theorem State.setSync_err (b : Bool) : (s.setSync b).err = s.err := rfl
@[simp] theorem State.setSync_ovr (b : Bool) : (s.setSync b).ovr = s.ovr := rfl
@[simp] theorem State.setSync_sync (b : Bool) : (s.setSync b).sync = b := rfl
@[simp] theorem State.setSync_pending (b : Bool) : (s.setSync b).pending = s.pending := rfl
@[simp] theorem State.setSync_errCode (b : Bool) : (s.setSync b).errCode = s.errCode := rfl
@[simp] theorem State.setSync_errInfo (b : Bool) : (s.setSync b).errInfo = s.errInfo := rfl
@[simp] theorem State.setSync_inLen (b : Bool) : (s.setSync b).inLen = s.inLen := rfl
@[simp] theorem State.setSync_bitLen (b : Bool) : (s.setSync b).bitLen = s.bitLen := rfl
@[simp] theorem State.setSync_outLen (b : Bool) : (s.setSync b).outLen = s.outLen := rfl
@[simp] theorem State.setSync_sym (b : Bool) : (s.setSync b).sym = s.sym := rfl
@[simp] theorem State.setSync_codeLen (b : Bool) : (s.setSync b).codeLen = s.codeLen := rfl
@[simp] theorem State.setSync_codeW (b : Bool) : (s.setSync b).codeW = s.codeW := rfl
@[simp] theorem State.setSync_nodeIdx (b : Bool) : (s.setSync b).nodeIdx = s.nodeIdx := rfl
@[simp] theorem State.setSync_nodeData (b : Bool) : (s.setSync b).nodeData = s.nodeData := rfl
@[simp] theorem State.setSync_root (b : Bool) : (s.setSync b).root = s.root := rfl
@[simp] theorem State.setSync_nodeCount (b : Bool) : (s.setSync b).nodeCount = s.nodeCount := rfl
@[simp] theorem State.setSync_symCount (b : Bool) : (s.setSync b).symCount = s.symCount := rfl
@[simp] theorem State.setSync_ibufAddr (b : Bool) : (s.setSync b).ibufAddr = s.ibufAddr := rfl
@[simp] theorem State.setSync_obufAddr (b : Bool) : (s.setSync b).obufAddr = s.obufAddr := rfl
@[simp] theorem State.setSync_ct (b : Bool) : (s.setSync b).ct = s.ct := rfl
@[simp] theorem State.setSync_tm (b : Bool) : (s.setSync b).tm = s.tm := rfl
@[simp] theorem State.setSync_ibuf (b : Bool) : (s.setSync b).ibuf = s.ibuf := rfl
@[simp] theorem State.setSync_obuf (b : Bool) : (s.setSync b).obuf = s.obuf := rfl
@[simp] theorem State.setSync_epoch (b : Bool) : (s.setSync b).epoch = s.epoch := rfl
@[simp] theorem State.setSync_draws (b : Bool) : (s.setSync b).draws = s.draws := rfl
@[simp] theorem State.setSync_inputs (b : Bool) : (s.setSync b).inputs = s.inputs := rfl
@[simp] theorem State.setSync_sched (b : Bool) : (s.setSync b).sched = s.sched := rfl
@[simp] theorem State.setSync_rdata (b : Bool) : (s.setSync b).rdata = s.rdata := rfl

@[simp] theorem State.setOvr_cfg : s.setOvr.cfg = s.cfg := rfl
@[simp] theorem State.setOvr_lock : s.setOvr.lock = s.lock := rfl
@[simp] theorem State.setOvr_irqEn : s.setOvr.irqEn = s.irqEn := rfl
@[simp] theorem State.setOvr_done : s.setOvr.done = s.done := rfl
@[simp] theorem State.setOvr_err : s.setOvr.err = s.err := rfl
@[simp] theorem State.setOvr_ovr : s.setOvr.ovr = true := rfl
@[simp] theorem State.setOvr_sync : s.setOvr.sync = s.sync := rfl
@[simp] theorem State.setOvr_pending : s.setOvr.pending = s.pending := rfl
@[simp] theorem State.setOvr_errCode : s.setOvr.errCode = s.errCode := rfl
@[simp] theorem State.setOvr_errInfo : s.setOvr.errInfo = s.errInfo := rfl
@[simp] theorem State.setOvr_inLen : s.setOvr.inLen = s.inLen := rfl
@[simp] theorem State.setOvr_bitLen : s.setOvr.bitLen = s.bitLen := rfl
@[simp] theorem State.setOvr_outLen : s.setOvr.outLen = s.outLen := rfl
@[simp] theorem State.setOvr_sym : s.setOvr.sym = s.sym := rfl
@[simp] theorem State.setOvr_codeLen : s.setOvr.codeLen = s.codeLen := rfl
@[simp] theorem State.setOvr_codeW : s.setOvr.codeW = s.codeW := rfl
@[simp] theorem State.setOvr_nodeIdx : s.setOvr.nodeIdx = s.nodeIdx := rfl
@[simp] theorem State.setOvr_nodeData : s.setOvr.nodeData = s.nodeData := rfl
@[simp] theorem State.setOvr_root : s.setOvr.root = s.root := rfl
@[simp] theorem State.setOvr_nodeCount : s.setOvr.nodeCount = s.nodeCount := rfl
@[simp] theorem State.setOvr_symCount : s.setOvr.symCount = s.symCount := rfl
@[simp] theorem State.setOvr_ibufAddr : s.setOvr.ibufAddr = s.ibufAddr := rfl
@[simp] theorem State.setOvr_obufAddr : s.setOvr.obufAddr = s.obufAddr := rfl
@[simp] theorem State.setOvr_ct : s.setOvr.ct = s.ct := rfl
@[simp] theorem State.setOvr_tm : s.setOvr.tm = s.tm := rfl
@[simp] theorem State.setOvr_ibuf : s.setOvr.ibuf = s.ibuf := rfl
@[simp] theorem State.setOvr_obuf : s.setOvr.obuf = s.obuf := rfl
@[simp] theorem State.setOvr_epoch : s.setOvr.epoch = s.epoch := rfl
@[simp] theorem State.setOvr_draws : s.setOvr.draws = s.draws := rfl
@[simp] theorem State.setOvr_inputs : s.setOvr.inputs = s.inputs := rfl
@[simp] theorem State.setOvr_sched : s.setOvr.sched = s.sched := rfl
@[simp] theorem State.setOvr_rdata : s.setOvr.rdata = s.rdata := rfl

@[simp] theorem State.setCt_cfg (a : Byte) (e : Option Code) : (s.setCt a e).cfg = s.cfg := rfl
@[simp] theorem State.setCt_lock (a : Byte) (e : Option Code) : (s.setCt a e).lock = s.lock := rfl
@[simp] theorem State.setCt_irqEn (a : Byte) (e : Option Code) : (s.setCt a e).irqEn = s.irqEn := rfl
@[simp] theorem State.setCt_done (a : Byte) (e : Option Code) : (s.setCt a e).done = s.done := rfl
@[simp] theorem State.setCt_err (a : Byte) (e : Option Code) : (s.setCt a e).err = s.err := rfl
@[simp] theorem State.setCt_ovr (a : Byte) (e : Option Code) : (s.setCt a e).ovr = s.ovr := rfl
@[simp] theorem State.setCt_sync (a : Byte) (e : Option Code) : (s.setCt a e).sync = s.sync := rfl
@[simp] theorem State.setCt_pending (a : Byte) (e : Option Code) : (s.setCt a e).pending = s.pending := rfl
@[simp] theorem State.setCt_errCode (a : Byte) (e : Option Code) : (s.setCt a e).errCode = s.errCode := rfl
@[simp] theorem State.setCt_errInfo (a : Byte) (e : Option Code) : (s.setCt a e).errInfo = s.errInfo := rfl
@[simp] theorem State.setCt_inLen (a : Byte) (e : Option Code) : (s.setCt a e).inLen = s.inLen := rfl
@[simp] theorem State.setCt_bitLen (a : Byte) (e : Option Code) : (s.setCt a e).bitLen = s.bitLen := rfl
@[simp] theorem State.setCt_outLen (a : Byte) (e : Option Code) : (s.setCt a e).outLen = s.outLen := rfl
@[simp] theorem State.setCt_sym (a : Byte) (e : Option Code) : (s.setCt a e).sym = s.sym := rfl
@[simp] theorem State.setCt_codeLen (a : Byte) (e : Option Code) : (s.setCt a e).codeLen = s.codeLen := rfl
@[simp] theorem State.setCt_codeW (a : Byte) (e : Option Code) : (s.setCt a e).codeW = s.codeW := rfl
@[simp] theorem State.setCt_nodeIdx (a : Byte) (e : Option Code) : (s.setCt a e).nodeIdx = s.nodeIdx := rfl
@[simp] theorem State.setCt_nodeData (a : Byte) (e : Option Code) : (s.setCt a e).nodeData = s.nodeData := rfl
@[simp] theorem State.setCt_root (a : Byte) (e : Option Code) : (s.setCt a e).root = s.root := rfl
@[simp] theorem State.setCt_nodeCount (a : Byte) (e : Option Code) : (s.setCt a e).nodeCount = s.nodeCount := rfl
@[simp] theorem State.setCt_symCount (a : Byte) (e : Option Code) : (s.setCt a e).symCount = s.symCount := rfl
@[simp] theorem State.setCt_ibufAddr (a : Byte) (e : Option Code) : (s.setCt a e).ibufAddr = s.ibufAddr := rfl
@[simp] theorem State.setCt_obufAddr (a : Byte) (e : Option Code) : (s.setCt a e).obufAddr = s.obufAddr := rfl
@[simp] theorem State.setCt_ct (a : Byte) (e : Option Code) : (s.setCt a e).ct = s.ct.set a.toNat e a.isLt := rfl
@[simp] theorem State.setCt_tm (a : Byte) (e : Option Code) : (s.setCt a e).tm = s.tm := rfl
@[simp] theorem State.setCt_ibuf (a : Byte) (e : Option Code) : (s.setCt a e).ibuf = s.ibuf := rfl
@[simp] theorem State.setCt_obuf (a : Byte) (e : Option Code) : (s.setCt a e).obuf = s.obuf := rfl
@[simp] theorem State.setCt_epoch (a : Byte) (e : Option Code) : (s.setCt a e).epoch = s.epoch := rfl
@[simp] theorem State.setCt_draws (a : Byte) (e : Option Code) : (s.setCt a e).draws = s.draws := rfl
@[simp] theorem State.setCt_inputs (a : Byte) (e : Option Code) : (s.setCt a e).inputs = s.inputs := rfl
@[simp] theorem State.setCt_sched (a : Byte) (e : Option Code) : (s.setCt a e).sched = s.sched := rfl
@[simp] theorem State.setCt_rdata (a : Byte) (e : Option Code) : (s.setCt a e).rdata = s.rdata := rfl

@[simp] theorem State.countSym_cfg : s.countSym.cfg = s.cfg := rfl
@[simp] theorem State.countSym_lock : s.countSym.lock = s.lock := rfl
@[simp] theorem State.countSym_irqEn : s.countSym.irqEn = s.irqEn := rfl
@[simp] theorem State.countSym_done : s.countSym.done = s.done := rfl
@[simp] theorem State.countSym_err : s.countSym.err = s.err := rfl
@[simp] theorem State.countSym_ovr : s.countSym.ovr = s.ovr := rfl
@[simp] theorem State.countSym_sync : s.countSym.sync = s.sync := rfl
@[simp] theorem State.countSym_pending : s.countSym.pending = s.pending := rfl
@[simp] theorem State.countSym_errCode : s.countSym.errCode = s.errCode := rfl
@[simp] theorem State.countSym_errInfo : s.countSym.errInfo = s.errInfo := rfl
@[simp] theorem State.countSym_inLen : s.countSym.inLen = s.inLen := rfl
@[simp] theorem State.countSym_bitLen : s.countSym.bitLen = s.bitLen := rfl
@[simp] theorem State.countSym_outLen : s.countSym.outLen = s.outLen := rfl
@[simp] theorem State.countSym_sym : s.countSym.sym = s.sym := rfl
@[simp] theorem State.countSym_codeLen : s.countSym.codeLen = s.codeLen := rfl
@[simp] theorem State.countSym_codeW : s.countSym.codeW = s.codeW := rfl
@[simp] theorem State.countSym_nodeIdx : s.countSym.nodeIdx = s.nodeIdx := rfl
@[simp] theorem State.countSym_nodeData : s.countSym.nodeData = s.nodeData := rfl
@[simp] theorem State.countSym_root : s.countSym.root = s.root := rfl
@[simp] theorem State.countSym_nodeCount : s.countSym.nodeCount = s.nodeCount := rfl
@[simp] theorem State.countSym_symCount : s.countSym.symCount = s.symCount + 1 := rfl
@[simp] theorem State.countSym_ibufAddr : s.countSym.ibufAddr = s.ibufAddr := rfl
@[simp] theorem State.countSym_obufAddr : s.countSym.obufAddr = s.obufAddr := rfl
@[simp] theorem State.countSym_ct : s.countSym.ct = s.ct := rfl
@[simp] theorem State.countSym_tm : s.countSym.tm = s.tm := rfl
@[simp] theorem State.countSym_ibuf : s.countSym.ibuf = s.ibuf := rfl
@[simp] theorem State.countSym_obuf : s.countSym.obuf = s.obuf := rfl
@[simp] theorem State.countSym_epoch : s.countSym.epoch = s.epoch := rfl
@[simp] theorem State.countSym_draws : s.countSym.draws = s.draws := rfl
@[simp] theorem State.countSym_inputs : s.countSym.inputs = s.inputs := rfl
@[simp] theorem State.countSym_sched : s.countSym.sched = s.sched := rfl
@[simp] theorem State.countSym_rdata : s.countSym.rdata = s.rdata := rfl

@[simp] theorem State.clearTable_cfg : s.clearTable.cfg = s.cfg := rfl
@[simp] theorem State.clearTable_lock : s.clearTable.lock = s.lock := rfl
@[simp] theorem State.clearTable_irqEn : s.clearTable.irqEn = s.irqEn := rfl
@[simp] theorem State.clearTable_done : s.clearTable.done = s.done := rfl
@[simp] theorem State.clearTable_err : s.clearTable.err = s.err := rfl
@[simp] theorem State.clearTable_ovr : s.clearTable.ovr = s.ovr := rfl
@[simp] theorem State.clearTable_sync : s.clearTable.sync = s.sync := rfl
@[simp] theorem State.clearTable_pending : s.clearTable.pending = s.pending := rfl
@[simp] theorem State.clearTable_errCode : s.clearTable.errCode = s.errCode := rfl
@[simp] theorem State.clearTable_errInfo : s.clearTable.errInfo = s.errInfo := rfl
@[simp] theorem State.clearTable_inLen : s.clearTable.inLen = s.inLen := rfl
@[simp] theorem State.clearTable_bitLen : s.clearTable.bitLen = s.bitLen := rfl
@[simp] theorem State.clearTable_outLen : s.clearTable.outLen = s.outLen := rfl
@[simp] theorem State.clearTable_sym : s.clearTable.sym = s.sym := rfl
@[simp] theorem State.clearTable_codeLen : s.clearTable.codeLen = s.codeLen := rfl
@[simp] theorem State.clearTable_codeW : s.clearTable.codeW = s.codeW := rfl
@[simp] theorem State.clearTable_nodeIdx : s.clearTable.nodeIdx = s.nodeIdx := rfl
@[simp] theorem State.clearTable_nodeData : s.clearTable.nodeData = s.nodeData := rfl
@[simp] theorem State.clearTable_root : s.clearTable.root = s.root := rfl
@[simp] theorem State.clearTable_nodeCount : s.clearTable.nodeCount = s.nodeCount := rfl
@[simp] theorem State.clearTable_symCount : s.clearTable.symCount = 0 := rfl
@[simp] theorem State.clearTable_ibufAddr : s.clearTable.ibufAddr = s.ibufAddr := rfl
@[simp] theorem State.clearTable_obufAddr : s.clearTable.obufAddr = s.obufAddr := rfl
@[simp] theorem State.clearTable_ct : s.clearTable.ct = Vector.replicate 256 none := rfl
@[simp] theorem State.clearTable_tm : s.clearTable.tm = s.tm := rfl
@[simp] theorem State.clearTable_ibuf : s.clearTable.ibuf = s.ibuf := rfl
@[simp] theorem State.clearTable_obuf : s.clearTable.obuf = s.obuf := rfl
@[simp] theorem State.clearTable_epoch : s.clearTable.epoch = s.epoch := rfl
@[simp] theorem State.clearTable_draws : s.clearTable.draws = s.draws := rfl
@[simp] theorem State.clearTable_inputs : s.clearTable.inputs = s.inputs := rfl
@[simp] theorem State.clearTable_sched : s.clearTable.sched = s.sched := rfl
@[simp] theorem State.clearTable_rdata : s.clearTable.rdata = s.rdata := rfl

@[simp] theorem State.setTm_cfg (n : Slot) (w : Word) : (s.setTm n w).cfg = s.cfg := rfl
@[simp] theorem State.setTm_lock (n : Slot) (w : Word) : (s.setTm n w).lock = s.lock := rfl
@[simp] theorem State.setTm_irqEn (n : Slot) (w : Word) : (s.setTm n w).irqEn = s.irqEn := rfl
@[simp] theorem State.setTm_done (n : Slot) (w : Word) : (s.setTm n w).done = s.done := rfl
@[simp] theorem State.setTm_err (n : Slot) (w : Word) : (s.setTm n w).err = s.err := rfl
@[simp] theorem State.setTm_ovr (n : Slot) (w : Word) : (s.setTm n w).ovr = s.ovr := rfl
@[simp] theorem State.setTm_sync (n : Slot) (w : Word) : (s.setTm n w).sync = s.sync := rfl
@[simp] theorem State.setTm_pending (n : Slot) (w : Word) : (s.setTm n w).pending = s.pending := rfl
@[simp] theorem State.setTm_errCode (n : Slot) (w : Word) : (s.setTm n w).errCode = s.errCode := rfl
@[simp] theorem State.setTm_errInfo (n : Slot) (w : Word) : (s.setTm n w).errInfo = s.errInfo := rfl
@[simp] theorem State.setTm_inLen (n : Slot) (w : Word) : (s.setTm n w).inLen = s.inLen := rfl
@[simp] theorem State.setTm_bitLen (n : Slot) (w : Word) : (s.setTm n w).bitLen = s.bitLen := rfl
@[simp] theorem State.setTm_outLen (n : Slot) (w : Word) : (s.setTm n w).outLen = s.outLen := rfl
@[simp] theorem State.setTm_sym (n : Slot) (w : Word) : (s.setTm n w).sym = s.sym := rfl
@[simp] theorem State.setTm_codeLen (n : Slot) (w : Word) : (s.setTm n w).codeLen = s.codeLen := rfl
@[simp] theorem State.setTm_codeW (n : Slot) (w : Word) : (s.setTm n w).codeW = s.codeW := rfl
@[simp] theorem State.setTm_nodeIdx (n : Slot) (w : Word) : (s.setTm n w).nodeIdx = s.nodeIdx := rfl
@[simp] theorem State.setTm_nodeData (n : Slot) (w : Word) : (s.setTm n w).nodeData = s.nodeData := rfl
@[simp] theorem State.setTm_root (n : Slot) (w : Word) : (s.setTm n w).root = s.root := rfl
@[simp] theorem State.setTm_nodeCount (n : Slot) (w : Word) : (s.setTm n w).nodeCount = s.nodeCount := rfl
@[simp] theorem State.setTm_symCount (n : Slot) (w : Word) : (s.setTm n w).symCount = s.symCount := rfl
@[simp] theorem State.setTm_ibufAddr (n : Slot) (w : Word) : (s.setTm n w).ibufAddr = s.ibufAddr := rfl
@[simp] theorem State.setTm_obufAddr (n : Slot) (w : Word) : (s.setTm n w).obufAddr = s.obufAddr := rfl
@[simp] theorem State.setTm_ct (n : Slot) (w : Word) : (s.setTm n w).ct = s.ct := rfl
@[simp] theorem State.setTm_tm (n : Slot) (w : Word) : (s.setTm n w).tm = s.tm.set n.val w := rfl
@[simp] theorem State.setTm_ibuf (n : Slot) (w : Word) : (s.setTm n w).ibuf = s.ibuf := rfl
@[simp] theorem State.setTm_obuf (n : Slot) (w : Word) : (s.setTm n w).obuf = s.obuf := rfl
@[simp] theorem State.setTm_epoch (n : Slot) (w : Word) : (s.setTm n w).epoch = s.epoch := rfl
@[simp] theorem State.setTm_draws (n : Slot) (w : Word) : (s.setTm n w).draws = s.draws := rfl
@[simp] theorem State.setTm_inputs (n : Slot) (w : Word) : (s.setTm n w).inputs = s.inputs := rfl
@[simp] theorem State.setTm_sched (n : Slot) (w : Word) : (s.setTm n w).sched = s.sched := rfl
@[simp] theorem State.setTm_rdata (n : Slot) (w : Word) : (s.setTm n w).rdata = s.rdata := rfl

@[simp] theorem State.setNodeCount_cfg (k : Nat) : (s.setNodeCount k).cfg = s.cfg := rfl
@[simp] theorem State.setNodeCount_lock (k : Nat) : (s.setNodeCount k).lock = s.lock := rfl
@[simp] theorem State.setNodeCount_irqEn (k : Nat) : (s.setNodeCount k).irqEn = s.irqEn := rfl
@[simp] theorem State.setNodeCount_done (k : Nat) : (s.setNodeCount k).done = s.done := rfl
@[simp] theorem State.setNodeCount_err (k : Nat) : (s.setNodeCount k).err = s.err := rfl
@[simp] theorem State.setNodeCount_ovr (k : Nat) : (s.setNodeCount k).ovr = s.ovr := rfl
@[simp] theorem State.setNodeCount_sync (k : Nat) : (s.setNodeCount k).sync = s.sync := rfl
@[simp] theorem State.setNodeCount_pending (k : Nat) : (s.setNodeCount k).pending = s.pending := rfl
@[simp] theorem State.setNodeCount_errCode (k : Nat) : (s.setNodeCount k).errCode = s.errCode := rfl
@[simp] theorem State.setNodeCount_errInfo (k : Nat) : (s.setNodeCount k).errInfo = s.errInfo := rfl
@[simp] theorem State.setNodeCount_inLen (k : Nat) : (s.setNodeCount k).inLen = s.inLen := rfl
@[simp] theorem State.setNodeCount_bitLen (k : Nat) : (s.setNodeCount k).bitLen = s.bitLen := rfl
@[simp] theorem State.setNodeCount_outLen (k : Nat) : (s.setNodeCount k).outLen = s.outLen := rfl
@[simp] theorem State.setNodeCount_sym (k : Nat) : (s.setNodeCount k).sym = s.sym := rfl
@[simp] theorem State.setNodeCount_codeLen (k : Nat) : (s.setNodeCount k).codeLen = s.codeLen := rfl
@[simp] theorem State.setNodeCount_codeW (k : Nat) : (s.setNodeCount k).codeW = s.codeW := rfl
@[simp] theorem State.setNodeCount_nodeIdx (k : Nat) : (s.setNodeCount k).nodeIdx = s.nodeIdx := rfl
@[simp] theorem State.setNodeCount_nodeData (k : Nat) : (s.setNodeCount k).nodeData = s.nodeData := rfl
@[simp] theorem State.setNodeCount_root (k : Nat) : (s.setNodeCount k).root = s.root := rfl
@[simp] theorem State.setNodeCount_nodeCount (k : Nat) : (s.setNodeCount k).nodeCount = BitVec.ofNat 10 k := rfl
@[simp] theorem State.setNodeCount_symCount (k : Nat) : (s.setNodeCount k).symCount = s.symCount := rfl
@[simp] theorem State.setNodeCount_ibufAddr (k : Nat) : (s.setNodeCount k).ibufAddr = s.ibufAddr := rfl
@[simp] theorem State.setNodeCount_obufAddr (k : Nat) : (s.setNodeCount k).obufAddr = s.obufAddr := rfl
@[simp] theorem State.setNodeCount_ct (k : Nat) : (s.setNodeCount k).ct = s.ct := rfl
@[simp] theorem State.setNodeCount_tm (k : Nat) : (s.setNodeCount k).tm = s.tm := rfl
@[simp] theorem State.setNodeCount_ibuf (k : Nat) : (s.setNodeCount k).ibuf = s.ibuf := rfl
@[simp] theorem State.setNodeCount_obuf (k : Nat) : (s.setNodeCount k).obuf = s.obuf := rfl
@[simp] theorem State.setNodeCount_epoch (k : Nat) : (s.setNodeCount k).epoch = s.epoch := rfl
@[simp] theorem State.setNodeCount_draws (k : Nat) : (s.setNodeCount k).draws = s.draws := rfl
@[simp] theorem State.setNodeCount_inputs (k : Nat) : (s.setNodeCount k).inputs = s.inputs := rfl
@[simp] theorem State.setNodeCount_sched (k : Nat) : (s.setNodeCount k).sched = s.sched := rfl
@[simp] theorem State.setNodeCount_rdata (k : Nat) : (s.setNodeCount k).rdata = s.rdata := rfl

@[simp] theorem State.clearTree_cfg : s.clearTree.cfg = s.cfg := rfl
@[simp] theorem State.clearTree_lock : s.clearTree.lock = s.lock := rfl
@[simp] theorem State.clearTree_irqEn : s.clearTree.irqEn = s.irqEn := rfl
@[simp] theorem State.clearTree_done : s.clearTree.done = s.done := rfl
@[simp] theorem State.clearTree_err : s.clearTree.err = s.err := rfl
@[simp] theorem State.clearTree_ovr : s.clearTree.ovr = s.ovr := rfl
@[simp] theorem State.clearTree_sync : s.clearTree.sync = s.sync := rfl
@[simp] theorem State.clearTree_pending : s.clearTree.pending = s.pending := rfl
@[simp] theorem State.clearTree_errCode : s.clearTree.errCode = s.errCode := rfl
@[simp] theorem State.clearTree_errInfo : s.clearTree.errInfo = s.errInfo := rfl
@[simp] theorem State.clearTree_inLen : s.clearTree.inLen = s.inLen := rfl
@[simp] theorem State.clearTree_bitLen : s.clearTree.bitLen = s.bitLen := rfl
@[simp] theorem State.clearTree_outLen : s.clearTree.outLen = s.outLen := rfl
@[simp] theorem State.clearTree_sym : s.clearTree.sym = s.sym := rfl
@[simp] theorem State.clearTree_codeLen : s.clearTree.codeLen = s.codeLen := rfl
@[simp] theorem State.clearTree_codeW : s.clearTree.codeW = s.codeW := rfl
@[simp] theorem State.clearTree_nodeIdx : s.clearTree.nodeIdx = s.nodeIdx := rfl
@[simp] theorem State.clearTree_nodeData : s.clearTree.nodeData = s.nodeData := rfl
@[simp] theorem State.clearTree_root : s.clearTree.root = s.root := rfl
@[simp] theorem State.clearTree_nodeCount : s.clearTree.nodeCount = 0 := rfl
@[simp] theorem State.clearTree_symCount : s.clearTree.symCount = s.symCount := rfl
@[simp] theorem State.clearTree_ibufAddr : s.clearTree.ibufAddr = s.ibufAddr := rfl
@[simp] theorem State.clearTree_obufAddr : s.clearTree.obufAddr = s.obufAddr := rfl
@[simp] theorem State.clearTree_ct : s.clearTree.ct = s.ct := rfl
@[simp] theorem State.clearTree_tm : s.clearTree.tm = Vector.replicate 511 0 := rfl
@[simp] theorem State.clearTree_ibuf : s.clearTree.ibuf = s.ibuf := rfl
@[simp] theorem State.clearTree_obuf : s.clearTree.obuf = s.obuf := rfl
@[simp] theorem State.clearTree_epoch : s.clearTree.epoch = s.epoch := rfl
@[simp] theorem State.clearTree_draws : s.clearTree.draws = s.draws := rfl
@[simp] theorem State.clearTree_inputs : s.clearTree.inputs = s.inputs := rfl
@[simp] theorem State.clearTree_sched : s.clearTree.sched = s.sched := rfl
@[simp] theorem State.clearTree_rdata : s.clearTree.rdata = s.rdata := rfl

@[simp] theorem State.setRoot_cfg (r : SlotIndex) : (s.setRoot r).cfg = s.cfg := rfl
@[simp] theorem State.setRoot_lock (r : SlotIndex) : (s.setRoot r).lock = s.lock := rfl
@[simp] theorem State.setRoot_irqEn (r : SlotIndex) : (s.setRoot r).irqEn = s.irqEn := rfl
@[simp] theorem State.setRoot_done (r : SlotIndex) : (s.setRoot r).done = s.done := rfl
@[simp] theorem State.setRoot_err (r : SlotIndex) : (s.setRoot r).err = s.err := rfl
@[simp] theorem State.setRoot_ovr (r : SlotIndex) : (s.setRoot r).ovr = s.ovr := rfl
@[simp] theorem State.setRoot_sync (r : SlotIndex) : (s.setRoot r).sync = s.sync := rfl
@[simp] theorem State.setRoot_pending (r : SlotIndex) : (s.setRoot r).pending = s.pending := rfl
@[simp] theorem State.setRoot_errCode (r : SlotIndex) : (s.setRoot r).errCode = s.errCode := rfl
@[simp] theorem State.setRoot_errInfo (r : SlotIndex) : (s.setRoot r).errInfo = s.errInfo := rfl
@[simp] theorem State.setRoot_inLen (r : SlotIndex) : (s.setRoot r).inLen = s.inLen := rfl
@[simp] theorem State.setRoot_bitLen (r : SlotIndex) : (s.setRoot r).bitLen = s.bitLen := rfl
@[simp] theorem State.setRoot_outLen (r : SlotIndex) : (s.setRoot r).outLen = s.outLen := rfl
@[simp] theorem State.setRoot_sym (r : SlotIndex) : (s.setRoot r).sym = s.sym := rfl
@[simp] theorem State.setRoot_codeLen (r : SlotIndex) : (s.setRoot r).codeLen = s.codeLen := rfl
@[simp] theorem State.setRoot_codeW (r : SlotIndex) : (s.setRoot r).codeW = s.codeW := rfl
@[simp] theorem State.setRoot_nodeIdx (r : SlotIndex) : (s.setRoot r).nodeIdx = s.nodeIdx := rfl
@[simp] theorem State.setRoot_nodeData (r : SlotIndex) : (s.setRoot r).nodeData = s.nodeData := rfl
@[simp] theorem State.setRoot_root (r : SlotIndex) : (s.setRoot r).root = r := rfl
@[simp] theorem State.setRoot_nodeCount (r : SlotIndex) : (s.setRoot r).nodeCount = s.nodeCount := rfl
@[simp] theorem State.setRoot_symCount (r : SlotIndex) : (s.setRoot r).symCount = s.symCount := rfl
@[simp] theorem State.setRoot_ibufAddr (r : SlotIndex) : (s.setRoot r).ibufAddr = s.ibufAddr := rfl
@[simp] theorem State.setRoot_obufAddr (r : SlotIndex) : (s.setRoot r).obufAddr = s.obufAddr := rfl
@[simp] theorem State.setRoot_ct (r : SlotIndex) : (s.setRoot r).ct = s.ct := rfl
@[simp] theorem State.setRoot_tm (r : SlotIndex) : (s.setRoot r).tm = s.tm := rfl
@[simp] theorem State.setRoot_ibuf (r : SlotIndex) : (s.setRoot r).ibuf = s.ibuf := rfl
@[simp] theorem State.setRoot_obuf (r : SlotIndex) : (s.setRoot r).obuf = s.obuf := rfl
@[simp] theorem State.setRoot_epoch (r : SlotIndex) : (s.setRoot r).epoch = s.epoch := rfl
@[simp] theorem State.setRoot_draws (r : SlotIndex) : (s.setRoot r).draws = s.draws := rfl
@[simp] theorem State.setRoot_inputs (r : SlotIndex) : (s.setRoot r).inputs = s.inputs := rfl
@[simp] theorem State.setRoot_sched (r : SlotIndex) : (s.setRoot r).sched = s.sched := rfl
@[simp] theorem State.setRoot_rdata (r : SlotIndex) : (s.setRoot r).rdata = s.rdata := rfl

@[simp] theorem State.issue_cfg (d : Word) : (s.issue d).cfg = s.cfg := rfl
@[simp] theorem State.issue_lock (d : Word) : (s.issue d).lock = s.lock := rfl
@[simp] theorem State.issue_irqEn (d : Word) : (s.issue d).irqEn = s.irqEn := rfl
@[simp] theorem State.issue_done (d : Word) : (s.issue d).done = false := rfl
@[simp] theorem State.issue_err (d : Word) : (s.issue d).err = false := rfl
@[simp] theorem State.issue_ovr (d : Word) : (s.issue d).ovr = s.ovr := rfl
@[simp] theorem State.issue_sync (d : Word) : (s.issue d).sync = s.sync := rfl
@[simp] theorem State.issue_pending (d : Word) : (s.issue d).pending = some d := rfl
@[simp] theorem State.issue_errCode (d : Word) : (s.issue d).errCode = 0 := rfl
@[simp] theorem State.issue_errInfo (d : Word) : (s.issue d).errInfo = 0 := rfl
@[simp] theorem State.issue_inLen (d : Word) : (s.issue d).inLen = s.inLen := rfl
@[simp] theorem State.issue_bitLen (d : Word) : (s.issue d).bitLen = s.bitLen := rfl
@[simp] theorem State.issue_outLen (d : Word) : (s.issue d).outLen = s.outLen := rfl
@[simp] theorem State.issue_sym (d : Word) : (s.issue d).sym = s.sym := rfl
@[simp] theorem State.issue_codeLen (d : Word) : (s.issue d).codeLen = s.codeLen := rfl
@[simp] theorem State.issue_codeW (d : Word) : (s.issue d).codeW = s.codeW := rfl
@[simp] theorem State.issue_nodeIdx (d : Word) : (s.issue d).nodeIdx = s.nodeIdx := rfl
@[simp] theorem State.issue_nodeData (d : Word) : (s.issue d).nodeData = s.nodeData := rfl
@[simp] theorem State.issue_root (d : Word) : (s.issue d).root = s.root := rfl
@[simp] theorem State.issue_nodeCount (d : Word) : (s.issue d).nodeCount = s.nodeCount := rfl
@[simp] theorem State.issue_symCount (d : Word) : (s.issue d).symCount = s.symCount := rfl
@[simp] theorem State.issue_ibufAddr (d : Word) : (s.issue d).ibufAddr = s.ibufAddr := rfl
@[simp] theorem State.issue_obufAddr (d : Word) : (s.issue d).obufAddr = s.obufAddr := rfl
@[simp] theorem State.issue_ct (d : Word) : (s.issue d).ct = s.ct := rfl
@[simp] theorem State.issue_tm (d : Word) : (s.issue d).tm = s.tm := rfl
@[simp] theorem State.issue_ibuf (d : Word) : (s.issue d).ibuf = s.ibuf := rfl
@[simp] theorem State.issue_obuf (d : Word) : (s.issue d).obuf = s.obuf := rfl
@[simp] theorem State.issue_epoch (d : Word) : (s.issue d).epoch = s.epoch := rfl
@[simp] theorem State.issue_draws (d : Word) : (s.issue d).draws = s.draws := rfl
@[simp] theorem State.issue_inputs (d : Word) : (s.issue d).inputs = s.inputs := rfl
@[simp] theorem State.issue_sched (d : Word) : (s.issue d).sched = s.sched := rfl
@[simp] theorem State.issue_rdata (d : Word) : (s.issue d).rdata = s.rdata := rfl

@[simp] theorem State.recordError_cfg (c : ErrCode) (info : Word) : (s.recordError c info).cfg = s.cfg := rfl
@[simp] theorem State.recordError_lock (c : ErrCode) (info : Word) : (s.recordError c info).lock = s.lock := rfl
@[simp] theorem State.recordError_irqEn (c : ErrCode) (info : Word) : (s.recordError c info).irqEn = s.irqEn := rfl
@[simp] theorem State.recordError_done (c : ErrCode) (info : Word) : (s.recordError c info).done = s.done := rfl
@[simp] theorem State.recordError_err (c : ErrCode) (info : Word) : (s.recordError c info).err = true := rfl
@[simp] theorem State.recordError_ovr (c : ErrCode) (info : Word) : (s.recordError c info).ovr = s.ovr := rfl
@[simp] theorem State.recordError_sync (c : ErrCode) (info : Word) : (s.recordError c info).sync = s.sync := rfl
@[simp] theorem State.recordError_pending (c : ErrCode) (info : Word) : (s.recordError c info).pending = s.pending := rfl
@[simp] theorem State.recordError_errCode (c : ErrCode) (info : Word) : (s.recordError c info).errCode = errNumber c := rfl
@[simp] theorem State.recordError_errInfo (c : ErrCode) (info : Word) : (s.recordError c info).errInfo = info := rfl
@[simp] theorem State.recordError_inLen (c : ErrCode) (info : Word) : (s.recordError c info).inLen = s.inLen := rfl
@[simp] theorem State.recordError_bitLen (c : ErrCode) (info : Word) : (s.recordError c info).bitLen = s.bitLen := rfl
@[simp] theorem State.recordError_outLen (c : ErrCode) (info : Word) : (s.recordError c info).outLen = s.outLen := rfl
@[simp] theorem State.recordError_sym (c : ErrCode) (info : Word) : (s.recordError c info).sym = s.sym := rfl
@[simp] theorem State.recordError_codeLen (c : ErrCode) (info : Word) : (s.recordError c info).codeLen = s.codeLen := rfl
@[simp] theorem State.recordError_codeW (c : ErrCode) (info : Word) : (s.recordError c info).codeW = s.codeW := rfl
@[simp] theorem State.recordError_nodeIdx (c : ErrCode) (info : Word) : (s.recordError c info).nodeIdx = s.nodeIdx := rfl
@[simp] theorem State.recordError_nodeData (c : ErrCode) (info : Word) : (s.recordError c info).nodeData = s.nodeData := rfl
@[simp] theorem State.recordError_root (c : ErrCode) (info : Word) : (s.recordError c info).root = s.root := rfl
@[simp] theorem State.recordError_nodeCount (c : ErrCode) (info : Word) : (s.recordError c info).nodeCount = s.nodeCount := rfl
@[simp] theorem State.recordError_symCount (c : ErrCode) (info : Word) : (s.recordError c info).symCount = s.symCount := rfl
@[simp] theorem State.recordError_ibufAddr (c : ErrCode) (info : Word) : (s.recordError c info).ibufAddr = s.ibufAddr := rfl
@[simp] theorem State.recordError_obufAddr (c : ErrCode) (info : Word) : (s.recordError c info).obufAddr = s.obufAddr := rfl
@[simp] theorem State.recordError_ct (c : ErrCode) (info : Word) : (s.recordError c info).ct = s.ct := rfl
@[simp] theorem State.recordError_tm (c : ErrCode) (info : Word) : (s.recordError c info).tm = s.tm := rfl
@[simp] theorem State.recordError_ibuf (c : ErrCode) (info : Word) : (s.recordError c info).ibuf = s.ibuf := rfl
@[simp] theorem State.recordError_obuf (c : ErrCode) (info : Word) : (s.recordError c info).obuf = s.obuf := rfl
@[simp] theorem State.recordError_epoch (c : ErrCode) (info : Word) : (s.recordError c info).epoch = s.epoch := rfl
@[simp] theorem State.recordError_draws (c : ErrCode) (info : Word) : (s.recordError c info).draws = s.draws := rfl
@[simp] theorem State.recordError_inputs (c : ErrCode) (info : Word) : (s.recordError c info).inputs = s.inputs := rfl
@[simp] theorem State.recordError_sched (c : ErrCode) (info : Word) : (s.recordError c info).sched = s.sched := rfl
@[simp] theorem State.recordError_rdata (c : ErrCode) (info : Word) : (s.recordError c info).rdata = s.rdata := rfl

@[simp] theorem State.completed_cfg : s.completed.cfg = s.cfg := rfl
@[simp] theorem State.completed_lock : s.completed.lock = s.lock := rfl
@[simp] theorem State.completed_irqEn : s.completed.irqEn = s.irqEn := rfl
@[simp] theorem State.completed_done : s.completed.done = true := rfl
@[simp] theorem State.completed_err : s.completed.err = s.err := rfl
@[simp] theorem State.completed_ovr : s.completed.ovr = s.ovr := rfl
@[simp] theorem State.completed_sync : s.completed.sync = s.sync := rfl
@[simp] theorem State.completed_pending : s.completed.pending = none := rfl
@[simp] theorem State.completed_errCode : s.completed.errCode = s.errCode := rfl
@[simp] theorem State.completed_errInfo : s.completed.errInfo = s.errInfo := rfl
@[simp] theorem State.completed_inLen : s.completed.inLen = s.inLen := rfl
@[simp] theorem State.completed_bitLen : s.completed.bitLen = s.bitLen := rfl
@[simp] theorem State.completed_outLen : s.completed.outLen = s.outLen := rfl
@[simp] theorem State.completed_sym : s.completed.sym = s.sym := rfl
@[simp] theorem State.completed_codeLen : s.completed.codeLen = s.codeLen := rfl
@[simp] theorem State.completed_codeW : s.completed.codeW = s.codeW := rfl
@[simp] theorem State.completed_nodeIdx : s.completed.nodeIdx = s.nodeIdx := rfl
@[simp] theorem State.completed_nodeData : s.completed.nodeData = s.nodeData := rfl
@[simp] theorem State.completed_root : s.completed.root = s.root := rfl
@[simp] theorem State.completed_nodeCount : s.completed.nodeCount = s.nodeCount := rfl
@[simp] theorem State.completed_symCount : s.completed.symCount = s.symCount := rfl
@[simp] theorem State.completed_ibufAddr : s.completed.ibufAddr = s.ibufAddr := rfl
@[simp] theorem State.completed_obufAddr : s.completed.obufAddr = s.obufAddr := rfl
@[simp] theorem State.completed_ct : s.completed.ct = s.ct := rfl
@[simp] theorem State.completed_tm : s.completed.tm = s.tm := rfl
@[simp] theorem State.completed_ibuf : s.completed.ibuf = s.ibuf := rfl
@[simp] theorem State.completed_obuf : s.completed.obuf = s.obuf := rfl
@[simp] theorem State.completed_epoch : s.completed.epoch = s.epoch := rfl
@[simp] theorem State.completed_draws : s.completed.draws = s.draws := rfl
@[simp] theorem State.completed_inputs : s.completed.inputs = s.inputs := rfl
@[simp] theorem State.completed_sched : s.completed.sched = s.sched := rfl
@[simp] theorem State.completed_rdata : s.completed.rdata = s.rdata := rfl

@[simp] theorem State.appendOut_cfg (v : Byte) : (s.appendOut v).cfg = s.cfg := rfl
@[simp] theorem State.appendOut_lock (v : Byte) : (s.appendOut v).lock = s.lock := rfl
@[simp] theorem State.appendOut_irqEn (v : Byte) : (s.appendOut v).irqEn = s.irqEn := rfl
@[simp] theorem State.appendOut_done (v : Byte) : (s.appendOut v).done = s.done := rfl
@[simp] theorem State.appendOut_err (v : Byte) : (s.appendOut v).err = s.err := rfl
@[simp] theorem State.appendOut_ovr (v : Byte) : (s.appendOut v).ovr = s.ovr := rfl
@[simp] theorem State.appendOut_sync (v : Byte) : (s.appendOut v).sync = s.sync := rfl
@[simp] theorem State.appendOut_pending (v : Byte) : (s.appendOut v).pending = s.pending := rfl
@[simp] theorem State.appendOut_errCode (v : Byte) : (s.appendOut v).errCode = s.errCode := rfl
@[simp] theorem State.appendOut_errInfo (v : Byte) : (s.appendOut v).errInfo = s.errInfo := rfl
@[simp] theorem State.appendOut_inLen (v : Byte) : (s.appendOut v).inLen = s.inLen := rfl
@[simp] theorem State.appendOut_bitLen (v : Byte) : (s.appendOut v).bitLen = s.bitLen := rfl
@[simp] theorem State.appendOut_outLen (v : Byte) : (s.appendOut v).outLen = s.outLen + 1 := rfl
@[simp] theorem State.appendOut_sym (v : Byte) : (s.appendOut v).sym = s.sym := rfl
@[simp] theorem State.appendOut_codeLen (v : Byte) : (s.appendOut v).codeLen = s.codeLen := rfl
@[simp] theorem State.appendOut_codeW (v : Byte) : (s.appendOut v).codeW = s.codeW := rfl
@[simp] theorem State.appendOut_nodeIdx (v : Byte) : (s.appendOut v).nodeIdx = s.nodeIdx := rfl
@[simp] theorem State.appendOut_nodeData (v : Byte) : (s.appendOut v).nodeData = s.nodeData := rfl
@[simp] theorem State.appendOut_root (v : Byte) : (s.appendOut v).root = s.root := rfl
@[simp] theorem State.appendOut_nodeCount (v : Byte) : (s.appendOut v).nodeCount = s.nodeCount := rfl
@[simp] theorem State.appendOut_symCount (v : Byte) : (s.appendOut v).symCount = s.symCount := rfl
@[simp] theorem State.appendOut_ibufAddr (v : Byte) : (s.appendOut v).ibufAddr = s.ibufAddr := rfl
@[simp] theorem State.appendOut_obufAddr (v : Byte) : (s.appendOut v).obufAddr = s.obufAddr := rfl
@[simp] theorem State.appendOut_ct (v : Byte) : (s.appendOut v).ct = s.ct := rfl
@[simp] theorem State.appendOut_tm (v : Byte) : (s.appendOut v).tm = s.tm := rfl
@[simp] theorem State.appendOut_ibuf (v : Byte) : (s.appendOut v).ibuf = s.ibuf := rfl
@[simp] theorem State.appendOut_obuf (v : Byte) : (s.appendOut v).obuf = s.obuf.write s.outLen.toNat v := rfl
@[simp] theorem State.appendOut_epoch (v : Byte) : (s.appendOut v).epoch = s.epoch := rfl
@[simp] theorem State.appendOut_draws (v : Byte) : (s.appendOut v).draws = s.draws := rfl
@[simp] theorem State.appendOut_inputs (v : Byte) : (s.appendOut v).inputs = s.inputs := rfl
@[simp] theorem State.appendOut_sched (v : Byte) : (s.appendOut v).sched = s.sched := rfl
@[simp] theorem State.appendOut_rdata (v : Byte) : (s.appendOut v).rdata = s.rdata := rfl

@[simp] theorem State.setNodeData_cfg (w : Word) : (s.setNodeData w).cfg = s.cfg := rfl
@[simp] theorem State.setNodeData_lock (w : Word) : (s.setNodeData w).lock = s.lock := rfl
@[simp] theorem State.setNodeData_irqEn (w : Word) : (s.setNodeData w).irqEn = s.irqEn := rfl
@[simp] theorem State.setNodeData_done (w : Word) : (s.setNodeData w).done = s.done := rfl
@[simp] theorem State.setNodeData_err (w : Word) : (s.setNodeData w).err = s.err := rfl
@[simp] theorem State.setNodeData_ovr (w : Word) : (s.setNodeData w).ovr = s.ovr := rfl
@[simp] theorem State.setNodeData_sync (w : Word) : (s.setNodeData w).sync = s.sync := rfl
@[simp] theorem State.setNodeData_pending (w : Word) : (s.setNodeData w).pending = s.pending := rfl
@[simp] theorem State.setNodeData_errCode (w : Word) : (s.setNodeData w).errCode = s.errCode := rfl
@[simp] theorem State.setNodeData_errInfo (w : Word) : (s.setNodeData w).errInfo = s.errInfo := rfl
@[simp] theorem State.setNodeData_inLen (w : Word) : (s.setNodeData w).inLen = s.inLen := rfl
@[simp] theorem State.setNodeData_bitLen (w : Word) : (s.setNodeData w).bitLen = s.bitLen := rfl
@[simp] theorem State.setNodeData_outLen (w : Word) : (s.setNodeData w).outLen = s.outLen := rfl
@[simp] theorem State.setNodeData_sym (w : Word) : (s.setNodeData w).sym = s.sym := rfl
@[simp] theorem State.setNodeData_codeLen (w : Word) : (s.setNodeData w).codeLen = s.codeLen := rfl
@[simp] theorem State.setNodeData_codeW (w : Word) : (s.setNodeData w).codeW = s.codeW := rfl
@[simp] theorem State.setNodeData_nodeIdx (w : Word) : (s.setNodeData w).nodeIdx = s.nodeIdx := rfl
@[simp] theorem State.setNodeData_nodeData (w : Word) : (s.setNodeData w).nodeData = w := rfl
@[simp] theorem State.setNodeData_root (w : Word) : (s.setNodeData w).root = s.root := rfl
@[simp] theorem State.setNodeData_nodeCount (w : Word) : (s.setNodeData w).nodeCount = s.nodeCount := rfl
@[simp] theorem State.setNodeData_symCount (w : Word) : (s.setNodeData w).symCount = s.symCount := rfl
@[simp] theorem State.setNodeData_ibufAddr (w : Word) : (s.setNodeData w).ibufAddr = s.ibufAddr := rfl
@[simp] theorem State.setNodeData_obufAddr (w : Word) : (s.setNodeData w).obufAddr = s.obufAddr := rfl
@[simp] theorem State.setNodeData_ct (w : Word) : (s.setNodeData w).ct = s.ct := rfl
@[simp] theorem State.setNodeData_tm (w : Word) : (s.setNodeData w).tm = s.tm := rfl
@[simp] theorem State.setNodeData_ibuf (w : Word) : (s.setNodeData w).ibuf = s.ibuf := rfl
@[simp] theorem State.setNodeData_obuf (w : Word) : (s.setNodeData w).obuf = s.obuf := rfl
@[simp] theorem State.setNodeData_epoch (w : Word) : (s.setNodeData w).epoch = s.epoch := rfl
@[simp] theorem State.setNodeData_draws (w : Word) : (s.setNodeData w).draws = s.draws := rfl
@[simp] theorem State.setNodeData_inputs (w : Word) : (s.setNodeData w).inputs = s.inputs := rfl
@[simp] theorem State.setNodeData_sched (w : Word) : (s.setNodeData w).sched = s.sched := rfl
@[simp] theorem State.setNodeData_rdata (w : Word) : (s.setNodeData w).rdata = s.rdata := rfl

@[simp] theorem State.countNode_cfg : s.countNode.cfg = s.cfg := rfl
@[simp] theorem State.countNode_lock : s.countNode.lock = s.lock := rfl
@[simp] theorem State.countNode_irqEn : s.countNode.irqEn = s.irqEn := rfl
@[simp] theorem State.countNode_done : s.countNode.done = s.done := rfl
@[simp] theorem State.countNode_err : s.countNode.err = s.err := rfl
@[simp] theorem State.countNode_ovr : s.countNode.ovr = s.ovr := rfl
@[simp] theorem State.countNode_sync : s.countNode.sync = s.sync := rfl
@[simp] theorem State.countNode_pending : s.countNode.pending = s.pending := rfl
@[simp] theorem State.countNode_errCode : s.countNode.errCode = s.errCode := rfl
@[simp] theorem State.countNode_errInfo : s.countNode.errInfo = s.errInfo := rfl
@[simp] theorem State.countNode_inLen : s.countNode.inLen = s.inLen := rfl
@[simp] theorem State.countNode_bitLen : s.countNode.bitLen = s.bitLen := rfl
@[simp] theorem State.countNode_outLen : s.countNode.outLen = s.outLen := rfl
@[simp] theorem State.countNode_sym : s.countNode.sym = s.sym := rfl
@[simp] theorem State.countNode_codeLen : s.countNode.codeLen = s.codeLen := rfl
@[simp] theorem State.countNode_codeW : s.countNode.codeW = s.codeW := rfl
@[simp] theorem State.countNode_nodeIdx : s.countNode.nodeIdx = s.nodeIdx := rfl
@[simp] theorem State.countNode_nodeData : s.countNode.nodeData = s.nodeData := rfl
@[simp] theorem State.countNode_root : s.countNode.root = s.root := rfl
@[simp] theorem State.countNode_nodeCount : s.countNode.nodeCount = s.nodeCount + 1 := rfl
@[simp] theorem State.countNode_symCount : s.countNode.symCount = s.symCount := rfl
@[simp] theorem State.countNode_ibufAddr : s.countNode.ibufAddr = s.ibufAddr := rfl
@[simp] theorem State.countNode_obufAddr : s.countNode.obufAddr = s.obufAddr := rfl
@[simp] theorem State.countNode_ct : s.countNode.ct = s.ct := rfl
@[simp] theorem State.countNode_tm : s.countNode.tm = s.tm := rfl
@[simp] theorem State.countNode_ibuf : s.countNode.ibuf = s.ibuf := rfl
@[simp] theorem State.countNode_obuf : s.countNode.obuf = s.obuf := rfl
@[simp] theorem State.countNode_epoch : s.countNode.epoch = s.epoch := rfl
@[simp] theorem State.countNode_draws : s.countNode.draws = s.draws := rfl
@[simp] theorem State.countNode_inputs : s.countNode.inputs = s.inputs := rfl
@[simp] theorem State.countNode_sched : s.countNode.sched = s.sched := rfl
@[simp] theorem State.countNode_rdata : s.countNode.rdata = s.rdata := rfl

@[simp] theorem State.addBitLen_cfg (l : Byte) : (s.addBitLen l).cfg = s.cfg := rfl
@[simp] theorem State.addBitLen_lock (l : Byte) : (s.addBitLen l).lock = s.lock := rfl
@[simp] theorem State.addBitLen_irqEn (l : Byte) : (s.addBitLen l).irqEn = s.irqEn := rfl
@[simp] theorem State.addBitLen_done (l : Byte) : (s.addBitLen l).done = s.done := rfl
@[simp] theorem State.addBitLen_err (l : Byte) : (s.addBitLen l).err = s.err := rfl
@[simp] theorem State.addBitLen_ovr (l : Byte) : (s.addBitLen l).ovr = s.ovr := rfl
@[simp] theorem State.addBitLen_sync (l : Byte) : (s.addBitLen l).sync = s.sync := rfl
@[simp] theorem State.addBitLen_pending (l : Byte) : (s.addBitLen l).pending = s.pending := rfl
@[simp] theorem State.addBitLen_errCode (l : Byte) : (s.addBitLen l).errCode = s.errCode := rfl
@[simp] theorem State.addBitLen_errInfo (l : Byte) : (s.addBitLen l).errInfo = s.errInfo := rfl
@[simp] theorem State.addBitLen_inLen (l : Byte) : (s.addBitLen l).inLen = s.inLen := rfl
@[simp] theorem State.addBitLen_bitLen (l : Byte) : (s.addBitLen l).bitLen = s.bitLen + l.setWidth 32 := rfl
@[simp] theorem State.addBitLen_outLen (l : Byte) : (s.addBitLen l).outLen = s.outLen := rfl
@[simp] theorem State.addBitLen_sym (l : Byte) : (s.addBitLen l).sym = s.sym := rfl
@[simp] theorem State.addBitLen_codeLen (l : Byte) : (s.addBitLen l).codeLen = s.codeLen := rfl
@[simp] theorem State.addBitLen_codeW (l : Byte) : (s.addBitLen l).codeW = s.codeW := rfl
@[simp] theorem State.addBitLen_nodeIdx (l : Byte) : (s.addBitLen l).nodeIdx = s.nodeIdx := rfl
@[simp] theorem State.addBitLen_nodeData (l : Byte) : (s.addBitLen l).nodeData = s.nodeData := rfl
@[simp] theorem State.addBitLen_root (l : Byte) : (s.addBitLen l).root = s.root := rfl
@[simp] theorem State.addBitLen_nodeCount (l : Byte) : (s.addBitLen l).nodeCount = s.nodeCount := rfl
@[simp] theorem State.addBitLen_symCount (l : Byte) : (s.addBitLen l).symCount = s.symCount := rfl
@[simp] theorem State.addBitLen_ibufAddr (l : Byte) : (s.addBitLen l).ibufAddr = s.ibufAddr := rfl
@[simp] theorem State.addBitLen_obufAddr (l : Byte) : (s.addBitLen l).obufAddr = s.obufAddr := rfl
@[simp] theorem State.addBitLen_ct (l : Byte) : (s.addBitLen l).ct = s.ct := rfl
@[simp] theorem State.addBitLen_tm (l : Byte) : (s.addBitLen l).tm = s.tm := rfl
@[simp] theorem State.addBitLen_ibuf (l : Byte) : (s.addBitLen l).ibuf = s.ibuf := rfl
@[simp] theorem State.addBitLen_obuf (l : Byte) : (s.addBitLen l).obuf = s.obuf := rfl
@[simp] theorem State.addBitLen_epoch (l : Byte) : (s.addBitLen l).epoch = s.epoch := rfl
@[simp] theorem State.addBitLen_draws (l : Byte) : (s.addBitLen l).draws = s.draws := rfl
@[simp] theorem State.addBitLen_inputs (l : Byte) : (s.addBitLen l).inputs = s.inputs := rfl
@[simp] theorem State.addBitLen_sched (l : Byte) : (s.addBitLen l).sched = s.sched := rfl
@[simp] theorem State.addBitLen_rdata (l : Byte) : (s.addBitLen l).rdata = s.rdata := rfl

@[simp] theorem State.encodeStart_cfg : s.encodeStart.cfg = s.cfg := rfl
@[simp] theorem State.encodeStart_lock : s.encodeStart.lock = s.lock := rfl
@[simp] theorem State.encodeStart_irqEn : s.encodeStart.irqEn = s.irqEn := rfl
@[simp] theorem State.encodeStart_done : s.encodeStart.done = s.done := rfl
@[simp] theorem State.encodeStart_err : s.encodeStart.err = s.err := rfl
@[simp] theorem State.encodeStart_ovr : s.encodeStart.ovr = s.ovr := rfl
@[simp] theorem State.encodeStart_sync : s.encodeStart.sync = s.sync := rfl
@[simp] theorem State.encodeStart_pending : s.encodeStart.pending = s.pending := rfl
@[simp] theorem State.encodeStart_errCode : s.encodeStart.errCode = s.errCode := rfl
@[simp] theorem State.encodeStart_errInfo : s.encodeStart.errInfo = s.errInfo := rfl
@[simp] theorem State.encodeStart_inLen : s.encodeStart.inLen = s.inLen := rfl
@[simp] theorem State.encodeStart_bitLen : s.encodeStart.bitLen = 0 := rfl
@[simp] theorem State.encodeStart_outLen : s.encodeStart.outLen = 0 := rfl
@[simp] theorem State.encodeStart_sym : s.encodeStart.sym = s.sym := rfl
@[simp] theorem State.encodeStart_codeLen : s.encodeStart.codeLen = s.codeLen := rfl
@[simp] theorem State.encodeStart_codeW : s.encodeStart.codeW = s.codeW := rfl
@[simp] theorem State.encodeStart_nodeIdx : s.encodeStart.nodeIdx = s.nodeIdx := rfl
@[simp] theorem State.encodeStart_nodeData : s.encodeStart.nodeData = s.nodeData := rfl
@[simp] theorem State.encodeStart_root : s.encodeStart.root = s.root := rfl
@[simp] theorem State.encodeStart_nodeCount : s.encodeStart.nodeCount = s.nodeCount := rfl
@[simp] theorem State.encodeStart_symCount : s.encodeStart.symCount = s.symCount := rfl
@[simp] theorem State.encodeStart_ibufAddr : s.encodeStart.ibufAddr = s.ibufAddr := rfl
@[simp] theorem State.encodeStart_obufAddr : s.encodeStart.obufAddr = s.obufAddr := rfl
@[simp] theorem State.encodeStart_ct : s.encodeStart.ct = s.ct := rfl
@[simp] theorem State.encodeStart_tm : s.encodeStart.tm = s.tm := rfl
@[simp] theorem State.encodeStart_ibuf : s.encodeStart.ibuf = s.ibuf := rfl
@[simp] theorem State.encodeStart_obuf : s.encodeStart.obuf = s.obuf := rfl
@[simp] theorem State.encodeStart_epoch : s.encodeStart.epoch = s.epoch := rfl
@[simp] theorem State.encodeStart_draws : s.encodeStart.draws = s.draws := rfl
@[simp] theorem State.encodeStart_inputs : s.encodeStart.inputs = s.inputs := rfl
@[simp] theorem State.encodeStart_sched : s.encodeStart.sched = s.sched := rfl
@[simp] theorem State.encodeStart_rdata : s.encodeStart.rdata = s.rdata := rfl

@[simp] theorem State.decodeStart_cfg : s.decodeStart.cfg = s.cfg := rfl
@[simp] theorem State.decodeStart_lock : s.decodeStart.lock = s.lock := rfl
@[simp] theorem State.decodeStart_irqEn : s.decodeStart.irqEn = s.irqEn := rfl
@[simp] theorem State.decodeStart_done : s.decodeStart.done = s.done := rfl
@[simp] theorem State.decodeStart_err : s.decodeStart.err = s.err := rfl
@[simp] theorem State.decodeStart_ovr : s.decodeStart.ovr = s.ovr := rfl
@[simp] theorem State.decodeStart_sync : s.decodeStart.sync = s.sync := rfl
@[simp] theorem State.decodeStart_pending : s.decodeStart.pending = s.pending := rfl
@[simp] theorem State.decodeStart_errCode : s.decodeStart.errCode = s.errCode := rfl
@[simp] theorem State.decodeStart_errInfo : s.decodeStart.errInfo = s.errInfo := rfl
@[simp] theorem State.decodeStart_inLen : s.decodeStart.inLen = s.inLen := rfl
@[simp] theorem State.decodeStart_bitLen : s.decodeStart.bitLen = s.bitLen := rfl
@[simp] theorem State.decodeStart_outLen : s.decodeStart.outLen = 0 := rfl
@[simp] theorem State.decodeStart_sym : s.decodeStart.sym = s.sym := rfl
@[simp] theorem State.decodeStart_codeLen : s.decodeStart.codeLen = s.codeLen := rfl
@[simp] theorem State.decodeStart_codeW : s.decodeStart.codeW = s.codeW := rfl
@[simp] theorem State.decodeStart_nodeIdx : s.decodeStart.nodeIdx = s.nodeIdx := rfl
@[simp] theorem State.decodeStart_nodeData : s.decodeStart.nodeData = s.nodeData := rfl
@[simp] theorem State.decodeStart_root : s.decodeStart.root = s.root := rfl
@[simp] theorem State.decodeStart_nodeCount : s.decodeStart.nodeCount = s.nodeCount := rfl
@[simp] theorem State.decodeStart_symCount : s.decodeStart.symCount = s.symCount := rfl
@[simp] theorem State.decodeStart_ibufAddr : s.decodeStart.ibufAddr = s.ibufAddr := rfl
@[simp] theorem State.decodeStart_obufAddr : s.decodeStart.obufAddr = s.obufAddr := rfl
@[simp] theorem State.decodeStart_ct : s.decodeStart.ct = s.ct := rfl
@[simp] theorem State.decodeStart_tm : s.decodeStart.tm = s.tm := rfl
@[simp] theorem State.decodeStart_ibuf : s.decodeStart.ibuf = s.ibuf := rfl
@[simp] theorem State.decodeStart_obuf : s.decodeStart.obuf = s.obuf := rfl
@[simp] theorem State.decodeStart_epoch : s.decodeStart.epoch = s.epoch := rfl
@[simp] theorem State.decodeStart_draws : s.decodeStart.draws = s.draws := rfl
@[simp] theorem State.decodeStart_inputs : s.decodeStart.inputs = s.inputs := rfl
@[simp] theorem State.decodeStart_sched : s.decodeStart.sched = s.sched := rfl
@[simp] theorem State.decodeStart_rdata : s.decodeStart.rdata = s.rdata := rfl

@[simp] theorem State.plantRoot_cfg : s.plantRoot.cfg = s.cfg := rfl
@[simp] theorem State.plantRoot_lock : s.plantRoot.lock = s.lock := rfl
@[simp] theorem State.plantRoot_irqEn : s.plantRoot.irqEn = s.irqEn := rfl
@[simp] theorem State.plantRoot_done : s.plantRoot.done = s.done := rfl
@[simp] theorem State.plantRoot_err : s.plantRoot.err = s.err := rfl
@[simp] theorem State.plantRoot_ovr : s.plantRoot.ovr = s.ovr := rfl
@[simp] theorem State.plantRoot_sync : s.plantRoot.sync = s.sync := rfl
@[simp] theorem State.plantRoot_pending : s.plantRoot.pending = s.pending := rfl
@[simp] theorem State.plantRoot_errCode : s.plantRoot.errCode = s.errCode := rfl
@[simp] theorem State.plantRoot_errInfo : s.plantRoot.errInfo = s.errInfo := rfl
@[simp] theorem State.plantRoot_inLen : s.plantRoot.inLen = s.inLen := rfl
@[simp] theorem State.plantRoot_bitLen : s.plantRoot.bitLen = s.bitLen := rfl
@[simp] theorem State.plantRoot_outLen : s.plantRoot.outLen = s.outLen := rfl
@[simp] theorem State.plantRoot_sym : s.plantRoot.sym = s.sym := rfl
@[simp] theorem State.plantRoot_codeLen : s.plantRoot.codeLen = s.codeLen := rfl
@[simp] theorem State.plantRoot_codeW : s.plantRoot.codeW = s.codeW := rfl
@[simp] theorem State.plantRoot_nodeIdx : s.plantRoot.nodeIdx = s.nodeIdx := rfl
@[simp] theorem State.plantRoot_nodeData : s.plantRoot.nodeData = s.nodeData := rfl
@[simp] theorem State.plantRoot_root : s.plantRoot.root = s.root := rfl
@[simp] theorem State.plantRoot_nodeCount : s.plantRoot.nodeCount = BitVec.ofNat 10 1 := rfl
@[simp] theorem State.plantRoot_symCount : s.plantRoot.symCount = s.symCount := rfl
@[simp] theorem State.plantRoot_ibufAddr : s.plantRoot.ibufAddr = s.ibufAddr := rfl
@[simp] theorem State.plantRoot_obufAddr : s.plantRoot.obufAddr = s.obufAddr := rfl
@[simp] theorem State.plantRoot_ct : s.plantRoot.ct = s.ct := rfl
@[simp] theorem State.plantRoot_tm : s.plantRoot.tm = s.tm.set 0 emptyInternal := rfl
@[simp] theorem State.plantRoot_ibuf : s.plantRoot.ibuf = s.ibuf := rfl
@[simp] theorem State.plantRoot_obuf : s.plantRoot.obuf = s.obuf := rfl
@[simp] theorem State.plantRoot_epoch : s.plantRoot.epoch = s.epoch := rfl
@[simp] theorem State.plantRoot_draws : s.plantRoot.draws = s.draws := rfl
@[simp] theorem State.plantRoot_inputs : s.plantRoot.inputs = s.inputs := rfl
@[simp] theorem State.plantRoot_sched : s.plantRoot.sched = s.sched := rfl
@[simp] theorem State.plantRoot_rdata : s.plantRoot.rdata = s.rdata := rfl

@[simp] theorem State.assignStart_cfg : s.assignStart.cfg = s.cfg := rfl
@[simp] theorem State.assignStart_lock : s.assignStart.lock = s.lock := rfl
@[simp] theorem State.assignStart_irqEn : s.assignStart.irqEn = s.irqEn := rfl
@[simp] theorem State.assignStart_done : s.assignStart.done = s.done := rfl
@[simp] theorem State.assignStart_err : s.assignStart.err = s.err := rfl
@[simp] theorem State.assignStart_ovr : s.assignStart.ovr = s.ovr := rfl
@[simp] theorem State.assignStart_sync : s.assignStart.sync = false := rfl
@[simp] theorem State.assignStart_pending : s.assignStart.pending = s.pending := rfl
@[simp] theorem State.assignStart_errCode : s.assignStart.errCode = s.errCode := rfl
@[simp] theorem State.assignStart_errInfo : s.assignStart.errInfo = s.errInfo := rfl
@[simp] theorem State.assignStart_inLen : s.assignStart.inLen = s.inLen := rfl
@[simp] theorem State.assignStart_bitLen : s.assignStart.bitLen = s.bitLen := rfl
@[simp] theorem State.assignStart_outLen : s.assignStart.outLen = s.outLen := rfl
@[simp] theorem State.assignStart_sym : s.assignStart.sym = s.sym := rfl
@[simp] theorem State.assignStart_codeLen : s.assignStart.codeLen = s.codeLen := rfl
@[simp] theorem State.assignStart_codeW : s.assignStart.codeW = s.codeW := rfl
@[simp] theorem State.assignStart_nodeIdx : s.assignStart.nodeIdx = s.nodeIdx := rfl
@[simp] theorem State.assignStart_nodeData : s.assignStart.nodeData = s.nodeData := rfl
@[simp] theorem State.assignStart_root : s.assignStart.root = s.root := rfl
@[simp] theorem State.assignStart_nodeCount : s.assignStart.nodeCount = BitVec.ofNat 10 0 := rfl
@[simp] theorem State.assignStart_symCount : s.assignStart.symCount = 0 := rfl
@[simp] theorem State.assignStart_ibufAddr : s.assignStart.ibufAddr = s.ibufAddr := rfl
@[simp] theorem State.assignStart_obufAddr : s.assignStart.obufAddr = s.obufAddr := rfl
@[simp] theorem State.assignStart_ct : s.assignStart.ct = Vector.replicate 256 none := rfl
@[simp] theorem State.assignStart_tm : s.assignStart.tm = s.tm := rfl
@[simp] theorem State.assignStart_ibuf : s.assignStart.ibuf = s.ibuf := rfl
@[simp] theorem State.assignStart_obuf : s.assignStart.obuf = s.obuf := rfl
@[simp] theorem State.assignStart_epoch : s.assignStart.epoch = s.epoch := rfl
@[simp] theorem State.assignStart_draws : s.assignStart.draws = s.draws := rfl
@[simp] theorem State.assignStart_inputs : s.assignStart.inputs = s.inputs := rfl
@[simp] theorem State.assignStart_sched : s.assignStart.sched = s.sched := rfl
@[simp] theorem State.assignStart_rdata : s.assignStart.rdata = s.rdata := rfl

@[simp] theorem State.setRdata_cfg (w : Word) : (s.setRdata w).cfg = s.cfg := rfl
@[simp] theorem State.setRdata_lock (w : Word) : (s.setRdata w).lock = s.lock := rfl
@[simp] theorem State.setRdata_irqEn (w : Word) : (s.setRdata w).irqEn = s.irqEn := rfl
@[simp] theorem State.setRdata_done (w : Word) : (s.setRdata w).done = s.done := rfl
@[simp] theorem State.setRdata_err (w : Word) : (s.setRdata w).err = s.err := rfl
@[simp] theorem State.setRdata_ovr (w : Word) : (s.setRdata w).ovr = s.ovr := rfl
@[simp] theorem State.setRdata_sync (w : Word) : (s.setRdata w).sync = s.sync := rfl
@[simp] theorem State.setRdata_pending (w : Word) : (s.setRdata w).pending = s.pending := rfl
@[simp] theorem State.setRdata_errCode (w : Word) : (s.setRdata w).errCode = s.errCode := rfl
@[simp] theorem State.setRdata_errInfo (w : Word) : (s.setRdata w).errInfo = s.errInfo := rfl
@[simp] theorem State.setRdata_inLen (w : Word) : (s.setRdata w).inLen = s.inLen := rfl
@[simp] theorem State.setRdata_bitLen (w : Word) : (s.setRdata w).bitLen = s.bitLen := rfl
@[simp] theorem State.setRdata_outLen (w : Word) : (s.setRdata w).outLen = s.outLen := rfl
@[simp] theorem State.setRdata_sym (w : Word) : (s.setRdata w).sym = s.sym := rfl
@[simp] theorem State.setRdata_codeLen (w : Word) : (s.setRdata w).codeLen = s.codeLen := rfl
@[simp] theorem State.setRdata_codeW (w : Word) : (s.setRdata w).codeW = s.codeW := rfl
@[simp] theorem State.setRdata_nodeIdx (w : Word) : (s.setRdata w).nodeIdx = s.nodeIdx := rfl
@[simp] theorem State.setRdata_nodeData (w : Word) : (s.setRdata w).nodeData = s.nodeData := rfl
@[simp] theorem State.setRdata_root (w : Word) : (s.setRdata w).root = s.root := rfl
@[simp] theorem State.setRdata_nodeCount (w : Word) : (s.setRdata w).nodeCount = s.nodeCount := rfl
@[simp] theorem State.setRdata_symCount (w : Word) : (s.setRdata w).symCount = s.symCount := rfl
@[simp] theorem State.setRdata_ibufAddr (w : Word) : (s.setRdata w).ibufAddr = s.ibufAddr := rfl
@[simp] theorem State.setRdata_obufAddr (w : Word) : (s.setRdata w).obufAddr = s.obufAddr := rfl
@[simp] theorem State.setRdata_ct (w : Word) : (s.setRdata w).ct = s.ct := rfl
@[simp] theorem State.setRdata_tm (w : Word) : (s.setRdata w).tm = s.tm := rfl
@[simp] theorem State.setRdata_ibuf (w : Word) : (s.setRdata w).ibuf = s.ibuf := rfl
@[simp] theorem State.setRdata_obuf (w : Word) : (s.setRdata w).obuf = s.obuf := rfl
@[simp] theorem State.setRdata_epoch (w : Word) : (s.setRdata w).epoch = s.epoch := rfl
@[simp] theorem State.setRdata_draws (w : Word) : (s.setRdata w).draws = s.draws := rfl
@[simp] theorem State.setRdata_inputs (w : Word) : (s.setRdata w).inputs = s.inputs := rfl
@[simp] theorem State.setRdata_sched (w : Word) : (s.setRdata w).sched = s.sched := rfl
@[simp] theorem State.setRdata_rdata (w : Word) : (s.setRdata w).rdata = some w := rfl

@[simp] theorem State.setInputs_cfg (is : List Input) : (s.setInputs is).cfg = s.cfg := rfl
@[simp] theorem State.setInputs_lock (is : List Input) : (s.setInputs is).lock = s.lock := rfl
@[simp] theorem State.setInputs_irqEn (is : List Input) : (s.setInputs is).irqEn = s.irqEn := rfl
@[simp] theorem State.setInputs_done (is : List Input) : (s.setInputs is).done = s.done := rfl
@[simp] theorem State.setInputs_err (is : List Input) : (s.setInputs is).err = s.err := rfl
@[simp] theorem State.setInputs_ovr (is : List Input) : (s.setInputs is).ovr = s.ovr := rfl
@[simp] theorem State.setInputs_sync (is : List Input) : (s.setInputs is).sync = s.sync := rfl
@[simp] theorem State.setInputs_pending (is : List Input) : (s.setInputs is).pending = s.pending := rfl
@[simp] theorem State.setInputs_errCode (is : List Input) : (s.setInputs is).errCode = s.errCode := rfl
@[simp] theorem State.setInputs_errInfo (is : List Input) : (s.setInputs is).errInfo = s.errInfo := rfl
@[simp] theorem State.setInputs_inLen (is : List Input) : (s.setInputs is).inLen = s.inLen := rfl
@[simp] theorem State.setInputs_bitLen (is : List Input) : (s.setInputs is).bitLen = s.bitLen := rfl
@[simp] theorem State.setInputs_outLen (is : List Input) : (s.setInputs is).outLen = s.outLen := rfl
@[simp] theorem State.setInputs_sym (is : List Input) : (s.setInputs is).sym = s.sym := rfl
@[simp] theorem State.setInputs_codeLen (is : List Input) : (s.setInputs is).codeLen = s.codeLen := rfl
@[simp] theorem State.setInputs_codeW (is : List Input) : (s.setInputs is).codeW = s.codeW := rfl
@[simp] theorem State.setInputs_nodeIdx (is : List Input) : (s.setInputs is).nodeIdx = s.nodeIdx := rfl
@[simp] theorem State.setInputs_nodeData (is : List Input) : (s.setInputs is).nodeData = s.nodeData := rfl
@[simp] theorem State.setInputs_root (is : List Input) : (s.setInputs is).root = s.root := rfl
@[simp] theorem State.setInputs_nodeCount (is : List Input) : (s.setInputs is).nodeCount = s.nodeCount := rfl
@[simp] theorem State.setInputs_symCount (is : List Input) : (s.setInputs is).symCount = s.symCount := rfl
@[simp] theorem State.setInputs_ibufAddr (is : List Input) : (s.setInputs is).ibufAddr = s.ibufAddr := rfl
@[simp] theorem State.setInputs_obufAddr (is : List Input) : (s.setInputs is).obufAddr = s.obufAddr := rfl
@[simp] theorem State.setInputs_ct (is : List Input) : (s.setInputs is).ct = s.ct := rfl
@[simp] theorem State.setInputs_tm (is : List Input) : (s.setInputs is).tm = s.tm := rfl
@[simp] theorem State.setInputs_ibuf (is : List Input) : (s.setInputs is).ibuf = s.ibuf := rfl
@[simp] theorem State.setInputs_obuf (is : List Input) : (s.setInputs is).obuf = s.obuf := rfl
@[simp] theorem State.setInputs_epoch (is : List Input) : (s.setInputs is).epoch = s.epoch := rfl
@[simp] theorem State.setInputs_draws (is : List Input) : (s.setInputs is).draws = s.draws := rfl
@[simp] theorem State.setInputs_inputs (is : List Input) : (s.setInputs is).inputs = is := rfl
@[simp] theorem State.setInputs_sched (is : List Input) : (s.setInputs is).sched = s.sched := rfl
@[simp] theorem State.setInputs_rdata (is : List Input) : (s.setInputs is).rdata = s.rdata := rfl

@[simp] theorem State.hardReset_cfg : s.hardReset.cfg = s.cfg := rfl
@[simp] theorem State.hardReset_lock : s.hardReset.lock = false := rfl
@[simp] theorem State.hardReset_irqEn : s.hardReset.irqEn = false := rfl
@[simp] theorem State.hardReset_done : s.hardReset.done = false := rfl
@[simp] theorem State.hardReset_err : s.hardReset.err = false := rfl
@[simp] theorem State.hardReset_ovr : s.hardReset.ovr = false := rfl
@[simp] theorem State.hardReset_sync : s.hardReset.sync = false := rfl
@[simp] theorem State.hardReset_pending : s.hardReset.pending = none := rfl
@[simp] theorem State.hardReset_errCode : s.hardReset.errCode = 0 := rfl
@[simp] theorem State.hardReset_errInfo : s.hardReset.errInfo = 0 := rfl
@[simp] theorem State.hardReset_inLen : s.hardReset.inLen = 0 := rfl
@[simp] theorem State.hardReset_bitLen : s.hardReset.bitLen = 0 := rfl
@[simp] theorem State.hardReset_outLen : s.hardReset.outLen = 0 := rfl
@[simp] theorem State.hardReset_sym : s.hardReset.sym = 0 := rfl
@[simp] theorem State.hardReset_codeLen : s.hardReset.codeLen = 0 := rfl
@[simp] theorem State.hardReset_codeW : s.hardReset.codeW = Vector.replicate 8 0 := rfl
@[simp] theorem State.hardReset_nodeIdx : s.hardReset.nodeIdx = 0 := rfl
@[simp] theorem State.hardReset_nodeData : s.hardReset.nodeData = 0 := rfl
@[simp] theorem State.hardReset_root : s.hardReset.root = 0x1FF := rfl
@[simp] theorem State.hardReset_nodeCount : s.hardReset.nodeCount = 0 := rfl
@[simp] theorem State.hardReset_symCount : s.hardReset.symCount = 0 := rfl
@[simp] theorem State.hardReset_ibufAddr : s.hardReset.ibufAddr = 0 := rfl
@[simp] theorem State.hardReset_obufAddr : s.hardReset.obufAddr = 0 := rfl
@[simp] theorem State.hardReset_ct : s.hardReset.ct = Vector.replicate 256 none := rfl
@[simp] theorem State.hardReset_tm : s.hardReset.tm = Vector.replicate 511 0 := rfl
@[simp] theorem State.hardReset_ibuf : s.hardReset.ibuf = [] := rfl
@[simp] theorem State.hardReset_obuf : s.hardReset.obuf = [] := rfl
@[simp] theorem State.hardReset_epoch : s.hardReset.epoch = s.epoch + 1 := rfl
@[simp] theorem State.hardReset_draws : s.hardReset.draws = s.draws := rfl
@[simp] theorem State.hardReset_inputs : s.hardReset.inputs = s.inputs := rfl
@[simp] theorem State.hardReset_sched : s.hardReset.sched = s.sched := rfl
@[simp] theorem State.hardReset_rdata : s.hardReset.rdata = s.rdata := rfl

@[simp] theorem State.writeBuf_cfg (b : Buf) (a : Nat) (v : Byte) : (s.writeBuf b a v).cfg = s.cfg := by cases b <;> rfl
@[simp] theorem State.writeBuf_lock (b : Buf) (a : Nat) (v : Byte) : (s.writeBuf b a v).lock = s.lock := by cases b <;> rfl
@[simp] theorem State.writeBuf_irqEn (b : Buf) (a : Nat) (v : Byte) : (s.writeBuf b a v).irqEn = s.irqEn := by cases b <;> rfl
@[simp] theorem State.writeBuf_done (b : Buf) (a : Nat) (v : Byte) : (s.writeBuf b a v).done = s.done := by cases b <;> rfl
@[simp] theorem State.writeBuf_err (b : Buf) (a : Nat) (v : Byte) : (s.writeBuf b a v).err = s.err := by cases b <;> rfl
@[simp] theorem State.writeBuf_ovr (b : Buf) (a : Nat) (v : Byte) : (s.writeBuf b a v).ovr = s.ovr := by cases b <;> rfl
@[simp] theorem State.writeBuf_sync (b : Buf) (a : Nat) (v : Byte) : (s.writeBuf b a v).sync = s.sync := by cases b <;> rfl
@[simp] theorem State.writeBuf_pending (b : Buf) (a : Nat) (v : Byte) : (s.writeBuf b a v).pending = s.pending := by cases b <;> rfl
@[simp] theorem State.writeBuf_errCode (b : Buf) (a : Nat) (v : Byte) : (s.writeBuf b a v).errCode = s.errCode := by cases b <;> rfl
@[simp] theorem State.writeBuf_errInfo (b : Buf) (a : Nat) (v : Byte) : (s.writeBuf b a v).errInfo = s.errInfo := by cases b <;> rfl
@[simp] theorem State.writeBuf_inLen (b : Buf) (a : Nat) (v : Byte) : (s.writeBuf b a v).inLen = s.inLen := by cases b <;> rfl
@[simp] theorem State.writeBuf_bitLen (b : Buf) (a : Nat) (v : Byte) : (s.writeBuf b a v).bitLen = s.bitLen := by cases b <;> rfl
@[simp] theorem State.writeBuf_outLen (b : Buf) (a : Nat) (v : Byte) : (s.writeBuf b a v).outLen = s.outLen := by cases b <;> rfl
@[simp] theorem State.writeBuf_sym (b : Buf) (a : Nat) (v : Byte) : (s.writeBuf b a v).sym = s.sym := by cases b <;> rfl
@[simp] theorem State.writeBuf_codeLen (b : Buf) (a : Nat) (v : Byte) : (s.writeBuf b a v).codeLen = s.codeLen := by cases b <;> rfl
@[simp] theorem State.writeBuf_codeW (b : Buf) (a : Nat) (v : Byte) : (s.writeBuf b a v).codeW = s.codeW := by cases b <;> rfl
@[simp] theorem State.writeBuf_nodeIdx (b : Buf) (a : Nat) (v : Byte) : (s.writeBuf b a v).nodeIdx = s.nodeIdx := by cases b <;> rfl
@[simp] theorem State.writeBuf_nodeData (b : Buf) (a : Nat) (v : Byte) : (s.writeBuf b a v).nodeData = s.nodeData := by cases b <;> rfl
@[simp] theorem State.writeBuf_root (b : Buf) (a : Nat) (v : Byte) : (s.writeBuf b a v).root = s.root := by cases b <;> rfl
@[simp] theorem State.writeBuf_nodeCount (b : Buf) (a : Nat) (v : Byte) : (s.writeBuf b a v).nodeCount = s.nodeCount := by cases b <;> rfl
@[simp] theorem State.writeBuf_symCount (b : Buf) (a : Nat) (v : Byte) : (s.writeBuf b a v).symCount = s.symCount := by cases b <;> rfl
@[simp] theorem State.writeBuf_ibufAddr (b : Buf) (a : Nat) (v : Byte) : (s.writeBuf b a v).ibufAddr = s.ibufAddr := by cases b <;> rfl
@[simp] theorem State.writeBuf_obufAddr (b : Buf) (a : Nat) (v : Byte) : (s.writeBuf b a v).obufAddr = s.obufAddr := by cases b <;> rfl
@[simp] theorem State.writeBuf_ct (b : Buf) (a : Nat) (v : Byte) : (s.writeBuf b a v).ct = s.ct := by cases b <;> rfl
@[simp] theorem State.writeBuf_tm (b : Buf) (a : Nat) (v : Byte) : (s.writeBuf b a v).tm = s.tm := by cases b <;> rfl
@[simp] theorem State.writeBuf_epoch (b : Buf) (a : Nat) (v : Byte) : (s.writeBuf b a v).epoch = s.epoch := by cases b <;> rfl
@[simp] theorem State.writeBuf_draws (b : Buf) (a : Nat) (v : Byte) : (s.writeBuf b a v).draws = s.draws := by cases b <;> rfl
@[simp] theorem State.writeBuf_inputs (b : Buf) (a : Nat) (v : Byte) : (s.writeBuf b a v).inputs = s.inputs := by cases b <;> rfl
@[simp] theorem State.writeBuf_sched (b : Buf) (a : Nat) (v : Byte) : (s.writeBuf b a v).sched = s.sched := by cases b <;> rfl
@[simp] theorem State.writeBuf_rdata (b : Buf) (a : Nat) (v : Byte) : (s.writeBuf b a v).rdata = s.rdata := by cases b <;> rfl

@[simp] theorem State.setBufAddr_cfg (b : Buf) (d : Word) : (s.setBufAddr b d).cfg = s.cfg := by cases b <;> rfl
@[simp] theorem State.setBufAddr_lock (b : Buf) (d : Word) : (s.setBufAddr b d).lock = s.lock := by cases b <;> rfl
@[simp] theorem State.setBufAddr_irqEn (b : Buf) (d : Word) : (s.setBufAddr b d).irqEn = s.irqEn := by cases b <;> rfl
@[simp] theorem State.setBufAddr_done (b : Buf) (d : Word) : (s.setBufAddr b d).done = s.done := by cases b <;> rfl
@[simp] theorem State.setBufAddr_err (b : Buf) (d : Word) : (s.setBufAddr b d).err = s.err := by cases b <;> rfl
@[simp] theorem State.setBufAddr_ovr (b : Buf) (d : Word) : (s.setBufAddr b d).ovr = s.ovr := by cases b <;> rfl
@[simp] theorem State.setBufAddr_sync (b : Buf) (d : Word) : (s.setBufAddr b d).sync = s.sync := by cases b <;> rfl
@[simp] theorem State.setBufAddr_pending (b : Buf) (d : Word) : (s.setBufAddr b d).pending = s.pending := by cases b <;> rfl
@[simp] theorem State.setBufAddr_errCode (b : Buf) (d : Word) : (s.setBufAddr b d).errCode = s.errCode := by cases b <;> rfl
@[simp] theorem State.setBufAddr_errInfo (b : Buf) (d : Word) : (s.setBufAddr b d).errInfo = s.errInfo := by cases b <;> rfl
@[simp] theorem State.setBufAddr_inLen (b : Buf) (d : Word) : (s.setBufAddr b d).inLen = s.inLen := by cases b <;> rfl
@[simp] theorem State.setBufAddr_bitLen (b : Buf) (d : Word) : (s.setBufAddr b d).bitLen = s.bitLen := by cases b <;> rfl
@[simp] theorem State.setBufAddr_outLen (b : Buf) (d : Word) : (s.setBufAddr b d).outLen = s.outLen := by cases b <;> rfl
@[simp] theorem State.setBufAddr_sym (b : Buf) (d : Word) : (s.setBufAddr b d).sym = s.sym := by cases b <;> rfl
@[simp] theorem State.setBufAddr_codeLen (b : Buf) (d : Word) : (s.setBufAddr b d).codeLen = s.codeLen := by cases b <;> rfl
@[simp] theorem State.setBufAddr_codeW (b : Buf) (d : Word) : (s.setBufAddr b d).codeW = s.codeW := by cases b <;> rfl
@[simp] theorem State.setBufAddr_nodeIdx (b : Buf) (d : Word) : (s.setBufAddr b d).nodeIdx = s.nodeIdx := by cases b <;> rfl
@[simp] theorem State.setBufAddr_nodeData (b : Buf) (d : Word) : (s.setBufAddr b d).nodeData = s.nodeData := by cases b <;> rfl
@[simp] theorem State.setBufAddr_root (b : Buf) (d : Word) : (s.setBufAddr b d).root = s.root := by cases b <;> rfl
@[simp] theorem State.setBufAddr_nodeCount (b : Buf) (d : Word) : (s.setBufAddr b d).nodeCount = s.nodeCount := by cases b <;> rfl
@[simp] theorem State.setBufAddr_symCount (b : Buf) (d : Word) : (s.setBufAddr b d).symCount = s.symCount := by cases b <;> rfl
@[simp] theorem State.setBufAddr_ct (b : Buf) (d : Word) : (s.setBufAddr b d).ct = s.ct := by cases b <;> rfl
@[simp] theorem State.setBufAddr_tm (b : Buf) (d : Word) : (s.setBufAddr b d).tm = s.tm := by cases b <;> rfl
@[simp] theorem State.setBufAddr_ibuf (b : Buf) (d : Word) : (s.setBufAddr b d).ibuf = s.ibuf := by cases b <;> rfl
@[simp] theorem State.setBufAddr_obuf (b : Buf) (d : Word) : (s.setBufAddr b d).obuf = s.obuf := by cases b <;> rfl
@[simp] theorem State.setBufAddr_epoch (b : Buf) (d : Word) : (s.setBufAddr b d).epoch = s.epoch := by cases b <;> rfl
@[simp] theorem State.setBufAddr_draws (b : Buf) (d : Word) : (s.setBufAddr b d).draws = s.draws := by cases b <;> rfl
@[simp] theorem State.setBufAddr_inputs (b : Buf) (d : Word) : (s.setBufAddr b d).inputs = s.inputs := by cases b <;> rfl
@[simp] theorem State.setBufAddr_sched (b : Buf) (d : Word) : (s.setBufAddr b d).sched = s.sched := by cases b <;> rfl
@[simp] theorem State.setBufAddr_rdata (b : Buf) (d : Word) : (s.setBufAddr b d).rdata = s.rdata := by cases b <;> rfl

@[simp] theorem State.readEntry_cfg (e : Option Code) : (s.readEntry e).cfg = s.cfg := by cases e <;> rfl
@[simp] theorem State.readEntry_lock (e : Option Code) : (s.readEntry e).lock = s.lock := by cases e <;> rfl
@[simp] theorem State.readEntry_irqEn (e : Option Code) : (s.readEntry e).irqEn = s.irqEn := by cases e <;> rfl
@[simp] theorem State.readEntry_done (e : Option Code) : (s.readEntry e).done = s.done := by cases e <;> rfl
@[simp] theorem State.readEntry_err (e : Option Code) : (s.readEntry e).err = s.err := by cases e <;> rfl
@[simp] theorem State.readEntry_ovr (e : Option Code) : (s.readEntry e).ovr = s.ovr := by cases e <;> rfl
@[simp] theorem State.readEntry_sync (e : Option Code) : (s.readEntry e).sync = s.sync := by cases e <;> rfl
@[simp] theorem State.readEntry_pending (e : Option Code) : (s.readEntry e).pending = s.pending := by cases e <;> rfl
@[simp] theorem State.readEntry_errCode (e : Option Code) : (s.readEntry e).errCode = s.errCode := by cases e <;> rfl
@[simp] theorem State.readEntry_errInfo (e : Option Code) : (s.readEntry e).errInfo = s.errInfo := by cases e <;> rfl
@[simp] theorem State.readEntry_inLen (e : Option Code) : (s.readEntry e).inLen = s.inLen := by cases e <;> rfl
@[simp] theorem State.readEntry_bitLen (e : Option Code) : (s.readEntry e).bitLen = s.bitLen := by cases e <;> rfl
@[simp] theorem State.readEntry_outLen (e : Option Code) : (s.readEntry e).outLen = s.outLen := by cases e <;> rfl
@[simp] theorem State.readEntry_sym (e : Option Code) : (s.readEntry e).sym = s.sym := by cases e <;> rfl
@[simp] theorem State.readEntry_nodeIdx (e : Option Code) : (s.readEntry e).nodeIdx = s.nodeIdx := by cases e <;> rfl
@[simp] theorem State.readEntry_nodeData (e : Option Code) : (s.readEntry e).nodeData = s.nodeData := by cases e <;> rfl
@[simp] theorem State.readEntry_root (e : Option Code) : (s.readEntry e).root = s.root := by cases e <;> rfl
@[simp] theorem State.readEntry_nodeCount (e : Option Code) : (s.readEntry e).nodeCount = s.nodeCount := by cases e <;> rfl
@[simp] theorem State.readEntry_symCount (e : Option Code) : (s.readEntry e).symCount = s.symCount := by cases e <;> rfl
@[simp] theorem State.readEntry_ibufAddr (e : Option Code) : (s.readEntry e).ibufAddr = s.ibufAddr := by cases e <;> rfl
@[simp] theorem State.readEntry_obufAddr (e : Option Code) : (s.readEntry e).obufAddr = s.obufAddr := by cases e <;> rfl
@[simp] theorem State.readEntry_ct (e : Option Code) : (s.readEntry e).ct = s.ct := by cases e <;> rfl
@[simp] theorem State.readEntry_tm (e : Option Code) : (s.readEntry e).tm = s.tm := by cases e <;> rfl
@[simp] theorem State.readEntry_ibuf (e : Option Code) : (s.readEntry e).ibuf = s.ibuf := by cases e <;> rfl
@[simp] theorem State.readEntry_obuf (e : Option Code) : (s.readEntry e).obuf = s.obuf := by cases e <;> rfl
@[simp] theorem State.readEntry_epoch (e : Option Code) : (s.readEntry e).epoch = s.epoch := by cases e <;> rfl
@[simp] theorem State.readEntry_draws (e : Option Code) : (s.readEntry e).draws = s.draws := by cases e <;> rfl
@[simp] theorem State.readEntry_inputs (e : Option Code) : (s.readEntry e).inputs = s.inputs := by cases e <;> rfl
@[simp] theorem State.readEntry_sched (e : Option Code) : (s.readEntry e).sched = s.sched := by cases e <;> rfl
@[simp] theorem State.readEntry_rdata (e : Option Code) : (s.readEntry e).rdata = s.rdata := by cases e <;> rfl

@[simp] theorem State.writeEntry_cfg (a : Byte) (c : Code) : (s.writeEntry a c).cfg = s.cfg := by unfold State.writeEntry; split <;> rfl
@[simp] theorem State.writeEntry_lock (a : Byte) (c : Code) : (s.writeEntry a c).lock = s.lock := by unfold State.writeEntry; split <;> rfl
@[simp] theorem State.writeEntry_irqEn (a : Byte) (c : Code) : (s.writeEntry a c).irqEn = s.irqEn := by unfold State.writeEntry; split <;> rfl
@[simp] theorem State.writeEntry_done (a : Byte) (c : Code) : (s.writeEntry a c).done = s.done := by unfold State.writeEntry; split <;> rfl
@[simp] theorem State.writeEntry_err (a : Byte) (c : Code) : (s.writeEntry a c).err = s.err := by unfold State.writeEntry; split <;> rfl
@[simp] theorem State.writeEntry_ovr (a : Byte) (c : Code) : (s.writeEntry a c).ovr = s.ovr := by unfold State.writeEntry; split <;> rfl
@[simp] theorem State.writeEntry_sync (a : Byte) (c : Code) : (s.writeEntry a c).sync = s.sync := by unfold State.writeEntry; split <;> rfl
@[simp] theorem State.writeEntry_pending (a : Byte) (c : Code) : (s.writeEntry a c).pending = s.pending := by unfold State.writeEntry; split <;> rfl
@[simp] theorem State.writeEntry_errCode (a : Byte) (c : Code) : (s.writeEntry a c).errCode = s.errCode := by unfold State.writeEntry; split <;> rfl
@[simp] theorem State.writeEntry_errInfo (a : Byte) (c : Code) : (s.writeEntry a c).errInfo = s.errInfo := by unfold State.writeEntry; split <;> rfl
@[simp] theorem State.writeEntry_inLen (a : Byte) (c : Code) : (s.writeEntry a c).inLen = s.inLen := by unfold State.writeEntry; split <;> rfl
@[simp] theorem State.writeEntry_bitLen (a : Byte) (c : Code) : (s.writeEntry a c).bitLen = s.bitLen := by unfold State.writeEntry; split <;> rfl
@[simp] theorem State.writeEntry_outLen (a : Byte) (c : Code) : (s.writeEntry a c).outLen = s.outLen := by unfold State.writeEntry; split <;> rfl
@[simp] theorem State.writeEntry_sym (a : Byte) (c : Code) : (s.writeEntry a c).sym = s.sym := by unfold State.writeEntry; split <;> rfl
@[simp] theorem State.writeEntry_codeLen (a : Byte) (c : Code) : (s.writeEntry a c).codeLen = s.codeLen := by unfold State.writeEntry; split <;> rfl
@[simp] theorem State.writeEntry_codeW (a : Byte) (c : Code) : (s.writeEntry a c).codeW = s.codeW := by unfold State.writeEntry; split <;> rfl
@[simp] theorem State.writeEntry_nodeIdx (a : Byte) (c : Code) : (s.writeEntry a c).nodeIdx = s.nodeIdx := by unfold State.writeEntry; split <;> rfl
@[simp] theorem State.writeEntry_nodeData (a : Byte) (c : Code) : (s.writeEntry a c).nodeData = s.nodeData := by unfold State.writeEntry; split <;> rfl
@[simp] theorem State.writeEntry_root (a : Byte) (c : Code) : (s.writeEntry a c).root = s.root := by unfold State.writeEntry; split <;> rfl
@[simp] theorem State.writeEntry_nodeCount (a : Byte) (c : Code) : (s.writeEntry a c).nodeCount = s.nodeCount := by unfold State.writeEntry; split <;> rfl
@[simp] theorem State.writeEntry_ibufAddr (a : Byte) (c : Code) : (s.writeEntry a c).ibufAddr = s.ibufAddr := by unfold State.writeEntry; split <;> rfl
@[simp] theorem State.writeEntry_obufAddr (a : Byte) (c : Code) : (s.writeEntry a c).obufAddr = s.obufAddr := by unfold State.writeEntry; split <;> rfl
@[simp] theorem State.writeEntry_tm (a : Byte) (c : Code) : (s.writeEntry a c).tm = s.tm := by unfold State.writeEntry; split <;> rfl
@[simp] theorem State.writeEntry_ibuf (a : Byte) (c : Code) : (s.writeEntry a c).ibuf = s.ibuf := by unfold State.writeEntry; split <;> rfl
@[simp] theorem State.writeEntry_obuf (a : Byte) (c : Code) : (s.writeEntry a c).obuf = s.obuf := by unfold State.writeEntry; split <;> rfl
@[simp] theorem State.writeEntry_epoch (a : Byte) (c : Code) : (s.writeEntry a c).epoch = s.epoch := by unfold State.writeEntry; split <;> rfl
@[simp] theorem State.writeEntry_draws (a : Byte) (c : Code) : (s.writeEntry a c).draws = s.draws := by unfold State.writeEntry; split <;> rfl
@[simp] theorem State.writeEntry_inputs (a : Byte) (c : Code) : (s.writeEntry a c).inputs = s.inputs := by unfold State.writeEntry; split <;> rfl
@[simp] theorem State.writeEntry_sched (a : Byte) (c : Code) : (s.writeEntry a c).sched = s.sched := by unfold State.writeEntry; split <;> rfl
@[simp] theorem State.writeEntry_rdata (a : Byte) (c : Code) : (s.writeEntry a c).rdata = s.rdata := by unfold State.writeEntry; split <;> rfl

@[simp] theorem State.tick_cfg : s.tick.cfg = s.cfg := by unfold State.tick; split <;> rfl
@[simp] theorem State.tick_lock : s.tick.lock = s.lock := by unfold State.tick; split <;> rfl
@[simp] theorem State.tick_irqEn : s.tick.irqEn = s.irqEn := by unfold State.tick; split <;> rfl
@[simp] theorem State.tick_done : s.tick.done = s.done := by unfold State.tick; split <;> rfl
@[simp] theorem State.tick_err : s.tick.err = s.err := by unfold State.tick; split <;> rfl
@[simp] theorem State.tick_ovr : s.tick.ovr = s.ovr := by unfold State.tick; split <;> rfl
@[simp] theorem State.tick_sync : s.tick.sync = s.sync := by unfold State.tick; split <;> rfl
@[simp] theorem State.tick_pending : s.tick.pending = s.pending := by unfold State.tick; split <;> rfl
@[simp] theorem State.tick_errCode : s.tick.errCode = s.errCode := by unfold State.tick; split <;> rfl
@[simp] theorem State.tick_errInfo : s.tick.errInfo = s.errInfo := by unfold State.tick; split <;> rfl
@[simp] theorem State.tick_inLen : s.tick.inLen = s.inLen := by unfold State.tick; split <;> rfl
@[simp] theorem State.tick_bitLen : s.tick.bitLen = s.bitLen := by unfold State.tick; split <;> rfl
@[simp] theorem State.tick_outLen : s.tick.outLen = s.outLen := by unfold State.tick; split <;> rfl
@[simp] theorem State.tick_sym : s.tick.sym = s.sym := by unfold State.tick; split <;> rfl
@[simp] theorem State.tick_codeLen : s.tick.codeLen = s.codeLen := by unfold State.tick; split <;> rfl
@[simp] theorem State.tick_codeW : s.tick.codeW = s.codeW := by unfold State.tick; split <;> rfl
@[simp] theorem State.tick_nodeIdx : s.tick.nodeIdx = s.nodeIdx := by unfold State.tick; split <;> rfl
@[simp] theorem State.tick_nodeData : s.tick.nodeData = s.nodeData := by unfold State.tick; split <;> rfl
@[simp] theorem State.tick_root : s.tick.root = s.root := by unfold State.tick; split <;> rfl
@[simp] theorem State.tick_nodeCount : s.tick.nodeCount = s.nodeCount := by unfold State.tick; split <;> rfl
@[simp] theorem State.tick_symCount : s.tick.symCount = s.symCount := by unfold State.tick; split <;> rfl
@[simp] theorem State.tick_ibufAddr : s.tick.ibufAddr = s.ibufAddr := by unfold State.tick; split <;> rfl
@[simp] theorem State.tick_obufAddr : s.tick.obufAddr = s.obufAddr := by unfold State.tick; split <;> rfl
@[simp] theorem State.tick_ct : s.tick.ct = s.ct := by unfold State.tick; split <;> rfl
@[simp] theorem State.tick_tm : s.tick.tm = s.tm := by unfold State.tick; split <;> rfl
@[simp] theorem State.tick_ibuf : s.tick.ibuf = s.ibuf := by unfold State.tick; split <;> rfl
@[simp] theorem State.tick_obuf : s.tick.obuf = s.obuf := by unfold State.tick; split <;> rfl
@[simp] theorem State.tick_epoch : s.tick.epoch = s.epoch := by unfold State.tick; split <;> rfl
@[simp] theorem State.tick_draws : s.tick.draws = s.draws := by unfold State.tick; split <;> rfl
@[simp] theorem State.tick_inputs : s.tick.inputs = s.inputs := by unfold State.tick; split <;> rfl
@[simp] theorem State.tick_rdata : s.tick.rdata = s.rdata := by unfold State.tick; split <;> rfl

end Sys2Proof.Machine
end

