-- ==== Sys2Proof/Laws/Memory.lean ====
section
/-! SUPPORT. The laws of the byte buffers: a read after a write, what a write leaves alone, and that every
operation keeps the canonical form. -/

namespace Sys2Proof.Machine

@[simp] theorem Memory.read_nil (a : Nat) : Memory.read [] a = none := rfl

theorem Memory.read_write_same (m : Memory) (a : Nat) (v : Byte) : (Memory.write m a v).read a = some v := by
  induction m with
  | nil => simp [Memory.write, Memory.read]
  | cons c m ih =>
    simp only [Memory.write]
    split
    · simp [Memory.read]
    · split
      · simp [Memory.read]
      · rename_i h₁ h₂
        simp [Memory.read, ih, Ne.symm h₂]

theorem Memory.read_write_other (m : Memory) {a a' : Nat} (v : Byte) (h : a' ≠ a) :
    (Memory.write m a v).read a' = m.read a' := by
  induction m with
  | nil => simp [Memory.write, Memory.read, Ne.symm h]
  | cons c m ih =>
    simp only [Memory.write]
    split
    · simp [Memory.read, Ne.symm h]
    · split
      · rename_i h₂
        subst h₂
        simp [Memory.read, Ne.symm h]
      · simp [Memory.read, ih]

theorem Memory.mem_write {m : Memory} {a : Nat} {v : Byte} {c : Host.Cell} (h : c ∈ Memory.write m a v) :
    c = (a, v) ∨ c ∈ m := by
  induction m with
  | nil => simpa [Memory.write] using h
  | cons d m ih =>
    simp only [Memory.write] at h
    split at h
    · simpa using h
    · split at h
      · rcases List.mem_cons.1 h with h | h
        · exact .inl h
        · exact .inr (List.mem_cons_of_mem _ h)
      · rcases List.mem_cons.1 h with h | h
        · exact .inr (h ▸ List.mem_cons_self)
        · exact (ih h).imp_right (List.mem_cons_of_mem _)

theorem Memory.nil_wf (size : Nat) : Memory.wf [] size := by simp [Memory.wf]

/-- Writing inside the buffer keeps the canonical form. -/
theorem Memory.write_wf {m : Memory} {size a : Nat} (v : Byte) (hm : m.wf size) (ha : a < size) :
    (Memory.write m a v).wf size := by
  obtain ⟨hp, hb⟩ := hm
  refine ⟨?_, fun c hc => ?_⟩
  · clear hb
    induction m with
    | nil => simp [Memory.write]
    | cons c m ih =>
      obtain ⟨h₁, h₂⟩ := List.pairwise_cons.1 hp
      simp only [Memory.write]
      split
      · rename_i hlt
        refine List.pairwise_cons.2 ⟨fun x hx => ?_, hp⟩
        rcases List.mem_cons.1 hx with rfl | hx
        · exact hlt
        · exact Nat.lt_trans hlt (h₁ x hx)
      · split
        · rename_i heq
          exact List.pairwise_cons.2 ⟨fun x hx => heq ▸ h₁ x hx, h₂⟩
        · rename_i hlt hne
          refine List.pairwise_cons.2 ⟨fun x hx => ?_, ih h₂⟩
          rcases Memory.mem_write hx with rfl | hx
          · change c.1 < a
            omega
          · exact h₁ x hx
  · rcases Memory.mem_write hc with rfl | hc
    · exact ha
    · exact hb c hc

/-! ### The buffers of a state -/

/-- The buffers of the reset state are in canonical form, whatever their size. -/
theorem State.reset_bufMem_wf (b : Buf) (size : Nat) : (State.reset.bufMem b).wf size := by
  cases b <;> exact Memory.nil_wf size

/-- Writing a byte inside a buffer keeps both buffers' canonical form. -/
theorem State.bufMem_writeBuf_wf {s : State} {b : Buf} {a : Nat} (v : Byte) (h : ∀ c, (s.bufMem c).wf (s.bufSize c))
    (ha : a < s.bufSize b) (c : Buf) : ((s.writeBuf b a v).bufMem c).wf (s.bufSize c) := by
  cases b <;> cases c
  · exact Memory.write_wf v (h .ibuf) ha
  · exact h .obuf
  · exact h .ibuf
  · exact Memory.write_wf v (h .obuf) ha

@[simp] theorem State.bufSize_eq_of_cfg {s t : State} (b : Buf) (h : t.cfg = s.cfg) : t.bufSize b = s.bufSize b := by
  cases b <;> simp [State.bufSize, h]

/-- A byte of a buffer is fixed by the buffer's cells and the number of resets. -/
theorem State.bufByte_congr {s t : State} (b : Buf) (a : Nat) (hm : t.bufMem b = s.bufMem b)
    (he : t.epoch = s.epoch) : t.bufByte b a = s.bufByte b a := by
  simp [State.bufByte, hm, he]

theorem State.bufByte_writeBuf_same (s : State) (b : Buf) (a : Nat) (v : Byte) :
    (s.writeBuf b a v).bufByte b a = v := by
  cases b <;> simp [State.bufByte, State.writeBuf, State.bufMem, Memory.read_write_same]

theorem State.bufByte_writeBuf_other (s : State) {b b' : Buf} {a a' : Nat} (v : Byte) (h : b' ≠ b ∨ a' ≠ a) :
    (s.writeBuf b a v).bufByte b' a' = s.bufByte b' a' := by
  cases b <;> cases b' <;> simp_all [State.bufByte, State.writeBuf, State.bufMem, Memory.read_write_other]

@[simp] theorem State.bufByte_appendOut_same (s : State) (v : Byte) :
    (s.appendOut v).bufByte .obuf s.outLen.toNat = v := by
  simp [State.bufByte, State.bufMem, Memory.read_write_same]

theorem State.bufByte_appendOut_other (s : State) (v : Byte) {a : Nat} (h : a ≠ s.outLen.toNat) :
    (s.appendOut v).bufByte .obuf a = s.bufByte .obuf a := by
  simp [State.bufByte, State.bufMem, Memory.read_write_other _ _ h]

@[simp] theorem State.bufByte_appendOut_ibuf (s : State) (v : Byte) (a : Nat) :
    (s.appendOut v).bufByte .ibuf a = s.bufByte .ibuf a := by
  simp [State.bufByte, State.bufMem, bufDraw]

end Sys2Proof.Machine
end

