-- ==== Sys2Proof/Laws/Tables.lean ====
section
/-! SUPPORT. The laws of the code table, the tree memory, node words and slots. -/

namespace Sys2Proof.Machine

/-! ### CT and TM -/

theorem State.ctAt_congr {s t : State} (a : Byte) (h : t.ct = s.ct) : t.ctAt a = s.ctAt a := by
  simp [State.ctAt, h]

theorem State.tmAt_congr {s t : State} (n : Slot) (h : t.tm = s.tm) : t.tmAt n = s.tmAt n := by
  simp [State.tmAt, h]

@[simp] theorem State.ctAt_setCt_same (s : State) (a : Byte) (e : Option Code) : (s.setCt a e).ctAt a = e := by
  simp [State.ctAt]

theorem State.ctAt_setCt_other (s : State) {a a' : Byte} (e : Option Code) (h : a' ≠ a) :
    (s.setCt a e).ctAt a' = s.ctAt a' := by
  have : a.toNat ≠ a'.toNat := fun hh => h (BitVec.eq_of_toNat_eq hh.symm)
  simp [State.ctAt, this]

@[simp] theorem State.ctAt_clearTable (s : State) (a : Byte) : s.clearTable.ctAt a = none := by
  simp [State.ctAt]

@[simp] theorem State.tmAt_setTm_same (s : State) (n : Slot) (w : Word) : (s.setTm n w).tmAt n = w := by
  simp [State.tmAt]

theorem State.tmAt_setTm_other (s : State) {n n' : Slot} (w : Word) (h : n' ≠ n) :
    (s.setTm n w).tmAt n' = s.tmAt n' := by
  have : n.val ≠ n'.val := fun hh => h (Fin.ext hh.symm)
  simp [State.tmAt, this]

@[simp] theorem State.tmAt_clearTree (s : State) (n : Slot) : s.clearTree.tmAt n = 0 := by
  simp [State.tmAt]

theorem mem_allSymbols (a : Byte) : a ∈ allSymbols := by
  simp only [allSymbols, List.mem_map, List.mem_range]
  exact ⟨a.toNat, a.isLt, by simp⟩

theorem allSymbols_nodup : allSymbols.Nodup := by
  refine (List.nodup_map_iff_inj_on List.nodup_range).2 fun x hx y hy h => ?_
  have := congrArg BitVec.toNat h
  simp only [List.mem_range] at hx hy
  simp only [BitVec.toNat_ofNat] at this
  omega

/-- The valid entries are exactly the symbols with a code. -/
theorem State.mem_validEntries (s : State) (a : Byte) (c : Code) :
    (a, c) ∈ s.validEntries ↔ s.ctAt a = some c := by
  simp only [State.validEntries, List.mem_filterMap, Option.map_eq_some_iff, Prod.mk.injEq]
  constructor
  · rintro ⟨x, -, c', h, rfl, rfl⟩
    exact h
  · intro h
    exact ⟨a, mem_allSymbols a, c, h, rfl, rfl⟩

theorem State.validEntries_congr {s t : State} (h : t.ct = s.ct) : t.validEntries = s.validEntries := by
  simp [State.validEntries, State.ctAt_congr _ h]

/-! ### Slots and node words -/

@[simp] theorem slotOf_nil : slotOf 0x1FF = none := by decide

theorem slotOf_eq_none {i : SlotIndex} : slotOf i = none ↔ i = 0x1FF := by
  unfold slotOf
  split
  · rename_i h
    simp only [reduceCtorEq, false_iff]
    rintro rfl
    exact absurd h (by decide)
  · rename_i h
    simp only [true_iff]
    apply BitVec.eq_of_toNat_eq
    have := i.isLt
    change i.toNat = 511
    omega

theorem slotOf_eq_some {i : SlotIndex} {n : Slot} : slotOf i = some n ↔ i = indexOf n := by
  unfold slotOf indexOf
  have hn := n.isLt
  have hi := i.isLt
  split
  · constructor
    · rintro ⟨⟩
      apply BitVec.eq_of_toNat_eq
      simp only [BitVec.toNat_ofNat]
      omega
    · rintro rfl
      refine congrArg some (Fin.ext ?_)
      simp only [BitVec.toNat_ofNat]
      omega
  · rename_i h
    simp only [reduceCtorEq, false_iff]
    rintro rfl
    simp only [BitVec.toNat_ofNat] at h
    omega

@[simp] theorem slotOf_indexOf (n : Slot) : slotOf (indexOf n) = some n := slotOf_eq_some.2 rfl

theorem slotOf_inj {i j : SlotIndex} {n : Slot} (hi : slotOf i = some n) (hj : slotOf j = some n) : i = j :=
  (slotOf_eq_some.1 hi).trans (slotOf_eq_some.1 hj).symm

@[simp] theorem usedNode_leafWord (a : Byte) : usedNode (leafWord a) = true := by
  simp [usedNode, leafWord]

@[simp] theorem leafNode_leafWord (a : Byte) : leafNode (leafWord a) = true := by
  simp [leafNode, leafWord]

@[simp] theorem nodeSym_leafWord (a : Byte) : nodeSym (leafWord a) = a := by
  apply BitVec.eq_of_getLsbD_eq
  intro i hi
  simp only [nodeSym, leafWord, BitVec.getLsbD_extractLsb', BitVec.getLsbD_or, BitVec.getLsbD_setWidth,
    Nat.zero_add]
  interval_cases i <;> simp

@[simp] theorem usedNode_emptyInternal : usedNode emptyInternal = true := by decide
@[simp] theorem leafNode_emptyInternal : leafNode emptyInternal = false := by decide
@[simp] theorem childOf_emptyInternal (b : Bool) : childOf emptyInternal b = none := by
  cases b <;> decide

theorem linkWord_getLsbD (w : Word) (b : Bool) (c : Slot) (i : Nat) (hi : i < 32) :
    (linkWord w b c).getLsbD i =
      if b then (if 16 ≤ i ∧ i < 25 then (indexOf c).getLsbD (i - 16) else w.getLsbD i)
      else (if i < 9 then (indexOf c).getLsbD i else w.getLsbD i) := by
  cases b
  · simp only [linkWord, Bool.false_eq_true, if_false, BitVec.getLsbD_or, BitVec.getLsbD_and,
      BitVec.getLsbD_setWidth]
    interval_cases i <;> simp
  · simp only [linkWord, if_true, BitVec.getLsbD_or, BitVec.getLsbD_and, BitVec.getLsbD_shiftLeft,
      BitVec.getLsbD_setWidth]
    interval_cases i <;> simp

@[simp] theorem usedNode_linkWord (w : Word) (b : Bool) (c : Slot) : usedNode (linkWord w b c) = usedNode w := by
  simp only [usedNode, linkWord_getLsbD _ _ _ 31 (by decide)]
  cases b <;> simp

@[simp] theorem leafNode_linkWord (w : Word) (b : Bool) (c : Slot) : leafNode (linkWord w b c) = leafNode w := by
  simp only [leafNode, linkWord_getLsbD _ _ _ 30 (by decide)]
  cases b <;> simp

theorem nodeLeft_linkWord_left (w : Word) (c : Slot) : nodeLeft (linkWord w false c) = indexOf c := by
  apply BitVec.eq_of_getLsbD_eq
  intro i hi
  simp only [nodeLeft, BitVec.getLsbD_extractLsb', hi, decide_true, Bool.true_and, Nat.zero_add]
  rw [linkWord_getLsbD _ _ _ _ (by omega)]
  simp [hi]

theorem nodeRight_linkWord_right (w : Word) (c : Slot) : nodeRight (linkWord w true c) = indexOf c := by
  apply BitVec.eq_of_getLsbD_eq
  intro i hi
  simp only [nodeRight, BitVec.getLsbD_extractLsb', hi, decide_true, Bool.true_and]
  rw [linkWord_getLsbD _ _ _ _ (by omega)]
  simp only [if_true]
  rw [if_pos (by omega)]
  congr 1
  omega

theorem nodeRight_linkWord_left (w : Word) (c : Slot) : nodeRight (linkWord w false c) = nodeRight w := by
  apply BitVec.eq_of_getLsbD_eq
  intro i hi
  simp only [nodeRight, BitVec.getLsbD_extractLsb', hi, decide_true, Bool.true_and]
  rw [linkWord_getLsbD _ _ _ _ (by omega)]
  simp only [Bool.false_eq_true, if_false]
  rw [if_neg (by omega)]

theorem nodeLeft_linkWord_right (w : Word) (c : Slot) : nodeLeft (linkWord w true c) = nodeLeft w := by
  apply BitVec.eq_of_getLsbD_eq
  intro i hi
  simp only [nodeLeft, BitVec.getLsbD_extractLsb', hi, decide_true, Bool.true_and, Nat.zero_add]
  rw [linkWord_getLsbD _ _ _ _ (by omega)]
  simp only [if_true]
  rw [if_neg (by omega)]

/-- `link` sets the child it names. -/
@[simp] theorem childOf_linkWord_same (w : Word) (b : Bool) (c : Slot) : childOf (linkWord w b c) b = some c := by
  cases b
  · simp [childOf, nodeLeft_linkWord_left]
  · simp [childOf, nodeRight_linkWord_right]

/-- `link` leaves the other child alone. -/
theorem childOf_linkWord_other (w : Word) {b b' : Bool} (c : Slot) (h : b' ≠ b) :
    childOf (linkWord w b c) b' = childOf w b' := by
  cases b <;> cases b' <;> simp_all [childOf, nodeLeft_linkWord_right, nodeRight_linkWord_left]

/-! ### Preorder on paths -/

@[simp] theorem pathBefore_nil_right (p : List Bool) : pathBefore p [] = false := by cases p <;> rfl

@[simp] theorem pathBefore_nil_cons (b : Bool) (q : List Bool) : pathBefore [] (b :: q) = true := rfl

@[simp] theorem pathBefore_cons_same (b : Bool) (p q : List Bool) : pathBefore (b :: p) (b :: q) = pathBefore p q := by
  simp [pathBefore]

@[simp] theorem pathBefore_self (p : List Bool) : pathBefore p p = false := by
  induction p with
  | nil => rfl
  | cons b p ih => simpa using ih

/-- Of two different paths one comes before the other. -/
theorem pathBefore_total {p q : List Bool} (h : p ≠ q) : pathBefore p q = true ∨ pathBefore q p = true := by
  induction p generalizing q with
  | nil => cases q <;> simp_all
  | cons a p ih =>
    cases q with
    | nil => simp
    | cons b q => cases a <;> cases b <;> simp_all [pathBefore]

theorem pathBefore_trans {p q r : List Bool} (h₁ : pathBefore p q = true) (h₂ : pathBefore q r = true) :
    pathBefore p r = true := by
  induction p generalizing q r with
  | nil => cases q <;> cases r <;> simp_all
  | cons a p ih =>
    cases q with
    | nil => simp at h₁
    | cons b q =>
      cases r with
      | nil => simp at h₂
      | cons c r =>
        cases a <;> cases b <;> cases c <;> simp_all [pathBefore]
        all_goals exact ih h₁ h₂

/-- A path's extensions below its left branch come before those below its right branch. -/
theorem pathBefore_branches (p q r : List Bool) : pathBefore (p ++ false :: q) (p ++ true :: r) = true := by
  induction p with
  | nil => simp [pathBefore]
  | cons b p ih => simpa using ih

/-! ### Codes -/

@[simp] theorem Code.length_bits (c : Code) : c.bits.length = c.len.toNat := by simp [Code.bits]

theorem Code.getElem_bits (c : Code) (i : Nat) (h : i < c.bits.length) :
    c.bits[i] = c.val.getLsbD (c.len.toNat - 1 - i) := by simp [Code.bits]

@[simp] theorem loneCode_bits : loneCode.bits = [false] := by decide

end Sys2Proof.Machine
end

