-- ==== Sys2Proof/Laws/Ops.lean ====
section
/-! SUPPORT. One lemma per shared operation, saying everything it can do: the end of a command, what follows what,
the LOCKED check, one output byte, one new trie node. -/

namespace Sys2Proof

/-- The capacity of OBUF fits OUT_LEN with room to spare (00_scope.md R5). -/
theorem Config.obufBytes_le (c : Config) : c.obufBytes ≤ 2 ^ 24 := by
  have := c.obufLast.isLt
  simp only [Config.obufBytes]
  omega

theorem Config.ibufBytes_le (c : Config) : c.ibufBytes ≤ 2 ^ 24 := by
  have := c.ibufLast.isLt
  simp only [Config.ibufBytes]
  omega

theorem Config.obufBytes_pos (c : Config) : 0 < c.obufBytes := Nat.succ_pos _

theorem Config.ibufBytes_pos (c : Config) : 0 < c.ibufBytes := Nat.succ_pos _

end Sys2Proof

namespace Sys2Proof.Machine

/-! ### Results of parts of commands -/

/-- Every state a part of a command can leave has the property. -/
def CmdResult.All {α : Type} (P : State → Prop) : CmdResult α → Prop
  | .ok _ s => P s
  | .error _ _ s => P s
  | .stop _ => True

/-- The model does not stop in this part. -/
def CmdResult.Runs {α : Type} (r : CmdResult α) : Prop := ∀ f, r ≠ .stop f

@[simp] theorem CmdResult.all_ok {α : Type} (P : State → Prop) (a : α) (s : State) :
    (CmdResult.ok a s).All P ↔ P s := Iff.rfl

@[simp] theorem CmdResult.all_error {α : Type} (P : State → Prop) (c : ErrCode) (i : Word) (s : State) :
    (CmdResult.error c i s : CmdResult α).All P ↔ P s := Iff.rfl

@[simp] theorem CmdResult.all_stop {α : Type} (P : State → Prop) (f : Fault) :
    (CmdResult.stop f : CmdResult α).All P ↔ True := Iff.rfl

@[simp] theorem CmdResult.runs_ok {α : Type} (a : α) (s : State) : (CmdResult.ok a s).Runs := fun _ h => by cases h

@[simp] theorem CmdResult.runs_error {α : Type} (c : ErrCode) (i : Word) (s : State) :
    (CmdResult.error c i s : CmdResult α).Runs := fun _ h => by cases h

@[simp] theorem CmdResult.not_runs_stop {α : Type} (f : Fault) : ¬ (CmdResult.stop f : CmdResult α).Runs :=
  fun h => h f rfl

theorem CmdResult.All.imp {α : Type} {P Q : State → Prop} {r : CmdResult α} (h : r.All P) (hpq : ∀ s, P s → Q s) :
    r.All Q := by
  cases r <;> simp_all

theorem CmdResult.All.and {α : Type} {P Q : State → Prop} {r : CmdResult α} (h : r.All P) (h' : r.All Q) :
    r.All fun s => P s ∧ Q s := by
  cases r <;> simp_all

@[simp] theorem CmdResult.ok_andThen {α β : Type} (a : α) (s : State) (f : α → State → CmdResult β) :
    (CmdResult.ok a s).andThen f = f a s := rfl

@[simp] theorem CmdResult.error_andThen {α β : Type} (c : ErrCode) (i : Word) (s : State)
    (f : α → State → CmdResult β) : (CmdResult.error c i s).andThen f = .error c i s := rfl

@[simp] theorem CmdResult.stop_andThen {α β : Type} (e : Fault) (f : α → State → CmdResult β) :
    (CmdResult.stop e).andThen f = .stop e := rfl

/-- A property of every state passes through two parts, where the second keeps it. -/
theorem CmdResult.All.andThen {α β : Type} {P Q : State → Prop} {r : CmdResult α} {f : α → State → CmdResult β}
    (h : r.All P) (herr : ∀ s, P s → Q s) (hf : ∀ a s, P s → (f a s).All Q) : (r.andThen f).All Q := by
  cases r with
  | ok a s => exact hf a s h
  | error c i s => exact herr s h
  | stop e => trivial

theorem CmdResult.Runs.andThen {α β : Type} {r : CmdResult α} {f : α → State → CmdResult β} (h : r.Runs)
    (hf : ∀ a s, r = .ok a s → (f a s).Runs) : (r.andThen f).Runs := by
  cases r with
  | ok a s => exact hf a s rfl
  | error c i s => simp
  | stop e => exact absurd rfl (h e)

/-- Two parts end well exactly when both do. -/
theorem CmdResult.andThen_eq_ok {α β : Type} {r : CmdResult α} {f : α → State → CmdResult β} {b : β} {t : State} :
    r.andThen f = .ok b t ↔ ∃ a s, r = .ok a s ∧ f a s = .ok b t := by
  cases r <;> simp

/-- Two parts raise exactly when the first does, or it ends well and the second does. -/
theorem CmdResult.andThen_eq_error {α β : Type} {r : CmdResult α} {f : α → State → CmdResult β} {c : ErrCode}
    {i : Word} {t : State} :
    r.andThen f = .error c i t ↔ r = .error c i t ∨ ∃ a s, r = .ok a s ∧ f a s = .error c i t := by
  cases r <;> simp

theorem CmdResult.andThen_assoc {α β γ : Type} (r : CmdResult α) (f : α → State → CmdResult β)
    (g : β → State → CmdResult γ) : (r.andThen f).andThen g = r.andThen fun a s => (f a s).andThen g := by
  cases r <;> rfl

/-! ### The end of a command -/

@[simp] theorem complete_ok (a : Unit) (s : State) : complete (.ok a s) = .next s.succeeds := rfl

@[simp] theorem complete_error (c : ErrCode) (i : Word) (s : State) :
    complete (.error c i s) = .next (s.fails (errNumber c) i) := rfl

@[simp] theorem complete_stop (f : Fault) : complete (.stop f) = .fault f := rfl

/-- A command that answers a next state succeeded, or raised an error that is recorded. -/
theorem complete_eq_next {r : CmdResult Unit} {t : State} :
    complete r = .next t ↔
      (∃ s, r = .ok () s ∧ t = s.succeeds) ∨ ∃ c i s, r = .error c i s ∧ t = s.fails (errNumber c) i := by
  cases r with
  | ok a s => simp [eq_comm]
  | error c i s =>
    simp only [complete_error, Host.Outcome.next.injEq, reduceCtorEq, false_and, exists_false, false_or,
      CmdResult.error.injEq]
    constructor
    · rintro rfl
      exact ⟨c, i, s, ⟨rfl, rfl, rfl⟩, rfl⟩
    · rintro ⟨c', i', s', ⟨rfl, rfl, rfl⟩, rfl⟩
      rfl
  | stop f => simp

/-- A command never ends in a refusal. -/
theorem complete_ne_refused (r : CmdResult Unit) (x : Refusal) : complete r ≠ .refused x := by
  cases r <;> simp

/-- A command that does not stop the model answers a next state. -/
theorem CmdResult.Runs.complete {r : CmdResult Unit} (h : r.Runs) : ∃ t, complete r = .next t := by
  cases r with
  | ok a s => exact ⟨_, rfl⟩
  | error c i s => exact ⟨_, rfl⟩
  | stop e => exact absurd rfl (h e)

/-- A property of every state a command leaves holds, up to completion, of its next state. -/
theorem CmdResult.All.complete {P : State → Prop} {r : CmdResult Unit} (h : r.All P) {t : State}
    (ht : Machine.complete r = .next t) : ∃ s, P s ∧ (t = s.succeeds ∨ ∃ c i, t = s.fails (errNumber c) i) := by
  rcases complete_eq_next.1 ht with ⟨s, rfl, rfl⟩ | ⟨c, i, s, rfl, rfl⟩
  · exact ⟨s, h, .inl rfl⟩
  · exact ⟨s, h, .inr ⟨c, i, rfl⟩⟩

theorem errNumber_ne_zero (c : ErrCode) : errNumber c ≠ 0 := by cases c <;> decide

theorem errNumber_le (c : ErrCode) : (errNumber c).toNat ≤ 15 := by cases c <;> decide

theorem errNumber_injective : Function.Injective errNumber := by
  intro a b h
  cases a <;> cases b <;> first | rfl | exact absurd h (by decide)

/-! ### The checks and steps commands share -/

theorem ifUnlocked_of_lock {i : Instr} {s : State} (r : CmdResult Unit) (h : s.lock = true) :
    ifUnlocked i s r = .error .locked (i.opcode.setWidth 32) s := by simp [ifUnlocked, lockedInfo, h]

theorem ifUnlocked_of_unlocked {i : Instr} {s : State} (r : CmdResult Unit) (h : s.lock = false) :
    ifUnlocked i s r = r := by simp [ifUnlocked, h]

theorem ifUnlocked_all {i : Instr} {s : State} {r : CmdResult Unit} {P : State → Prop} (hs : P s) (hr : r.All P) :
    (ifUnlocked i s r).All P := by
  unfold ifUnlocked
  split
  · exact hs
  · exact hr

theorem ifUnlocked_runs {i : Instr} {s : State} {r : CmdResult Unit} (hr : r.Runs) : (ifUnlocked i s r).Runs := by
  unfold ifUnlocked
  split
  · simp
  · exact hr

/-- One output byte is written at OUT_LEN, or OBUF is full and nothing happens. -/
theorem emitByte_cases (v : Byte) (info : Word) (s : State) :
    (s.outLen.toNat = s.cfg.obufBytes ∧ emitByte v info s = .error .outputOverflow info s) ∨
      (s.outLen.toNat ≠ s.cfg.obufBytes ∧ emitByte v info s = .ok () (s.appendOut v)) := by
  unfold emitByte
  split
  · exact .inl ⟨‹_›, rfl⟩
  · exact .inr ⟨‹_›, rfl⟩

theorem emitByte_runs (v : Byte) (info : Word) (s : State) : (emitByte v info s).Runs := by
  rcases emitByte_cases v info s with ⟨-, h⟩ | ⟨-, h⟩ <;> simp [h]

/-- OUT_LEN counts on without wrapping while it is inside OBUF. -/
theorem State.outLen_appendOut_toNat {s : State} (v : Byte) (h : s.outLen.toNat < s.cfg.obufBytes) :
    (s.appendOut v).outLen.toNat = s.outLen.toNat + 1 := by
  have := s.cfg.obufBytes_le
  simp only [State.appendOut_outLen, BitVec.toNat_add]
  change (s.outLen.toNat + 1) % 2 ^ 32 = _
  omega

/-- Everything a new trie node does: slot `next` gets the word, the parent gets the link, nothing else changes but
NODE_COUNT; or all 511 slots are taken and nothing happens. -/
theorem allocNode_cases (sym : Byte) (n : Slot) (b : Bool) (w : Word) (next : Nat) (s : State) :
    (∃ h : next < 511, allocNode sym n b w next s =
      .ok ⟨next, h⟩ (((s.setTm ⟨next, h⟩ w).setTm n
        (linkWord ((s.setTm ⟨next, h⟩ w).tmAt n) b ⟨next, h⟩)).setNodeCount (next + 1))) ∨
    (511 ≤ next ∧ allocNode sym n b w next s = .error .treeOverflow (sym.setWidth 32) s) := by
  unfold allocNode
  split
  · exact .inl ⟨‹_›, rfl⟩
  · exact .inr ⟨by omega, rfl⟩

theorem allocNode_runs (sym : Byte) (n : Slot) (b : Bool) (w : Word) (next : Nat) (s : State) :
    (allocNode sym n b w next s).Runs := by
  rcases allocNode_cases sym n b w next s with ⟨_, h⟩ | ⟨_, h⟩ <;> simp [h]

end Sys2Proof.Machine
end

