-- ==== Sys2Proof/Laws/Commands.lean ====
section
/-! SUPPORT. What each command's loop can change and that it never stops the model: one lemma per loop, so that no
proof about a command unfolds another's. -/

namespace Sys2Proof.Machine

/-! ### Frames -/

/-- Nothing but OBUF, OUT_LEN and BIT_LEN differs. -/
def OutputOnly (s t : State) : Prop := t = { s with obuf := t.obuf, outLen := t.outLen, bitLen := t.bitLen }

/-- Nothing but CT, SYM_COUNT, NODE_COUNT and SYNC differs. -/
def TableOnly (s t : State) : Prop :=
  t = { s with ct := t.ct, symCount := t.symCount, nodeCount := t.nodeCount, sync := t.sync }

/-- Nothing but TM, ROOT, NODE_COUNT and SYNC differs. -/
def TreeOnly (s t : State) : Prop :=
  t = { s with tm := t.tm, root := t.root, nodeCount := t.nodeCount, sync := t.sync }

theorem OutputOnly.refl (s : State) : OutputOnly s s := rfl

theorem OutputOnly.trans {s t u : State} (h₁ : OutputOnly s t) (h₂ : OutputOnly t u) : OutputOnly s u :=
  Eq.trans h₂ (by rw [h₁])

theorem TableOnly.refl (s : State) : TableOnly s s := rfl

theorem TableOnly.trans {s t u : State} (h₁ : TableOnly s t) (h₂ : TableOnly t u) : TableOnly s u :=
  Eq.trans h₂ (by rw [h₁])

theorem TreeOnly.refl (s : State) : TreeOnly s s := rfl

theorem TreeOnly.trans {s t u : State} (h₁ : TreeOnly s t) (h₂ : TreeOnly t u) : TreeOnly s u :=
  Eq.trans h₂ (by rw [h₁])

/-- OUT_LEN lies inside OBUF (10_state.md R43). -/
def State.OutInside (s : State) : Prop := s.outLen.toNat ≤ s.cfg.obufBytes

/-- OBUF at and above OUT_LEN is as in `s`. -/
def TailSame (s t : State) : Prop := ∀ a, t.outLen.toNat ≤ a → t.bufByte .obuf a = s.bufByte .obuf a

/-! ### One output byte -/

/-- One output byte: only the output changes; OUT_LEN stays inside OBUF and does not fall; the bytes from the new
OUT_LEN on keep their values; the canonical form is kept. -/
theorem emitByte_frame (v : Byte) (info : Word) {s : State} (hs : s.OutInside) :
    (emitByte v info s).All fun t => OutputOnly s t ∧ t.OutInside ∧ s.outLen.toNat ≤ t.outLen.toNat ∧
      TailSame s t ∧ (s.obuf.wf s.cfg.obufBytes → t.obuf.wf t.cfg.obufBytes) := by
  rcases emitByte_cases v info s with ⟨-, h⟩ | ⟨hne, h⟩
  · rw [h]
    exact ⟨OutputOnly.refl s, hs, le_refl _, fun _ _ => rfl, id⟩
  · have hlt : s.outLen.toNat < s.cfg.obufBytes := lt_of_le_of_ne hs hne
    have hlen := s.outLen_appendOut_toNat v hlt
    rw [h]
    refine ⟨rfl, ?_, ?_, ?_, ?_⟩
    · change (s.appendOut v).outLen.toNat ≤ s.cfg.obufBytes
      omega
    · omega
    · intro a ha
      exact s.bufByte_appendOut_other v (by omega)
    · intro hm
      simpa using Memory.write_wf v hm hlt

/-- What holds after any number of output bytes, from the state the output started in. -/
def Emitted (s t : State) : Prop :=
  OutputOnly s t ∧ t.OutInside ∧ s.outLen.toNat ≤ t.outLen.toNat ∧ TailSame s t ∧
    (s.obuf.wf s.cfg.obufBytes → t.obuf.wf t.cfg.obufBytes)

theorem OutputOnly.cfg {s t : State} (h : OutputOnly s t) : t.cfg = s.cfg := by rw [h]
theorem OutputOnly.ct {s t : State} (h : OutputOnly s t) : t.ct = s.ct := by rw [h]
theorem OutputOnly.tm {s t : State} (h : OutputOnly s t) : t.tm = s.tm := by rw [h]
theorem OutputOnly.root {s t : State} (h : OutputOnly s t) : t.root = s.root := by rw [h]
theorem OutputOnly.ibuf {s t : State} (h : OutputOnly s t) : t.ibuf = s.ibuf := by rw [h]
theorem OutputOnly.epoch {s t : State} (h : OutputOnly s t) : t.epoch = s.epoch := by rw [h]
theorem OutputOnly.inLen {s t : State} (h : OutputOnly s t) : t.inLen = s.inLen := by rw [h]
theorem OutputOnly.symCount {s t : State} (h : OutputOnly s t) : t.symCount = s.symCount := by rw [h]

/-- The output leaves every input byte alone (42_encode.md R207 (e)). -/
theorem OutputOnly.bufByte_ibuf {s t : State} (h : OutputOnly s t) (a : Nat) :
    t.bufByte .ibuf a = s.bufByte .ibuf a :=
  State.bufByte_congr _ _ h.ibuf h.epoch

theorem Emitted.refl {s : State} (hs : s.OutInside) : Emitted s s :=
  ⟨OutputOnly.refl s, hs, le_refl _, fun _ _ => rfl, id⟩

theorem Emitted.trans {s t u : State} (h₁ : Emitted s t) (h₂ : Emitted t u) : Emitted s u := by
  obtain ⟨a₁, b₁, c₁, d₁, e₁⟩ := h₁
  obtain ⟨a₂, b₂, c₂, d₂, e₂⟩ := h₂
  refine ⟨a₁.trans a₂, b₂, c₁.trans c₂, fun a ha => ?_, fun hm => e₂ (e₁ hm)⟩
  rw [d₂ a ha, d₁ a (by omega)]

theorem emitByte_emitted (v : Byte) (info : Word) {s : State} (hs : s.OutInside) :
    (emitByte v info s).All (Emitted s) := emitByte_frame v info hs

/-! ### ENCODE -/

theorem packBit_emitted (b : Bool) (i : Nat) (p : Packer) {s : State} (hs : s.OutInside) :
    (packBit b i p s).All (Emitted s) := by
  unfold packBit
  split
  · exact (emitByte_emitted _ _ hs).andThen (fun _ h => h) fun _ _ h => h
  · exact Emitted.refl hs

theorem packBit_runs (b : Bool) (i : Nat) (p : Packer) (s : State) : (packBit b i p s).Runs := by
  unfold packBit
  split
  · exact (emitByte_runs _ _ _).andThen fun _ _ _ => by simp
  · simp

theorem packBits_emitted (bs : List Bool) (i : Nat) (p : Packer) {s : State} (hs : s.OutInside) :
    (packBits bs i p s).All (Emitted s) := by
  induction bs generalizing p s with
  | nil => exact Emitted.refl hs
  | cons b bs ih =>
    exact (packBit_emitted b i p hs).andThen (fun _ h => h) fun p' s' h =>
      (ih p' h.2.1).imp fun _ h' => h.trans h'

theorem packBits_runs (bs : List Bool) (i : Nat) (p : Packer) (s : State) : (packBits bs i p s).Runs := by
  induction bs generalizing p s with
  | nil => simp [packBits]
  | cons b bs ih => exact (packBit_runs b i p s).andThen fun p' s' _ => ih p' s'

theorem Emitted.addBitLen {s t : State} (l : Byte) (h : Emitted s t) : Emitted s (t.addBitLen l) := by
  obtain ⟨a, b, c, d, e⟩ := h
  refine ⟨a.trans rfl, by simpa [State.OutInside] using b, by simpa using c, fun x hx => ?_, by simpa using e⟩
  rw [← d x (by simpa using hx)]
  rfl

theorem packSymbols_emitted (k i : Nat) (p : Packer) {s : State} (hs : s.OutInside) :
    (packSymbols k i p s).All (Emitted s) := by
  induction k generalizing i p s with
  | zero => exact Emitted.refl hs
  | succ k ih =>
    unfold packSymbols
    split
    · exact Emitted.refl hs
    · rename_i c _
      exact (packBits_emitted _ _ _ hs).andThen (fun _ h => h) fun p' s' h =>
        (ih (i + 1) p' (h.addBitLen c.len).2.1).imp fun _ h' => (h.addBitLen c.len).trans h'

theorem packSymbols_runs (k i : Nat) (p : Packer) (s : State) : (packSymbols k i p s).Runs := by
  induction k generalizing i p s with
  | zero => simp [packSymbols]
  | succ k ih =>
    unfold packSymbols
    split
    · simp
    · exact (packBits_runs _ _ _ _).andThen fun p' s' _ => ih _ _ _

theorem packFlush_emitted (p : Packer) {s : State} (hs : s.OutInside) : (packFlush p s).All (Emitted s) := by
  unfold packFlush
  split
  · exact Emitted.refl hs
  · exact emitByte_emitted _ _ hs

theorem packFlush_runs (p : Packer) (s : State) : (packFlush p s).Runs := by
  unfold packFlush
  split
  · simp
  · exact emitByte_runs _ _ _

theorem State.encodeStart_outInside (s : State) : s.encodeStart.OutInside := by
  simp [State.OutInside, Config.obufBytes]

/-- ENCODE changes nothing but OBUF, OUT_LEN and BIT_LEN. -/
theorem encodeStream_frame (s : State) : (encodeStream s).All fun t =>
    t = s ∨ Emitted s.encodeStart t := by
  unfold encodeStream
  split
  · exact .inl rfl
  · exact ((packSymbols_emitted _ _ _ s.encodeStart_outInside).andThen (fun _ h => h) fun p t h =>
      (packFlush_emitted p h.2.1).imp fun _ h' => h.trans h').imp fun _ h => .inr h

theorem encodeStream_runs (s : State) : (encodeStream s).Runs := by
  unfold encodeStream
  split
  · simp
  · exact (packSymbols_runs _ _ _ _).andThen fun _ _ _ => packFlush_runs _ _

/-! ### DECODE -/

theorem decodeWalk_emitted (k b : Nat) (cur : Option Slot) (nres : Nat) {s : State} (hs : s.OutInside) :
    (decodeWalk k b cur nres s).All (Emitted s) := by
  induction k generalizing b cur nres s with
  | zero => exact Emitted.refl hs
  | succ k ih =>
    cases cur with
    | none => trivial
    | some n =>
      simp only [decodeWalk]
      split
      · exact Emitted.refl hs
      · split
        · exact (emitByte_emitted _ _ hs).andThen (fun _ h => h) fun _ s' h =>
            (ih _ _ _ h.2.1).imp fun _ h' => h.trans h'
        · exact ih _ _ _ hs

/-- The walk stops the model only where ROOT is NIL. -/
theorem decodeWalk_runs (k b : Nat) (n : Slot) (nres : Nat) {s : State} (hr : slotOf s.root ≠ none) :
    (decodeWalk k b (some n) nres s).Runs := by
  induction k generalizing b n nres s with
  | zero => simp [decodeWalk]
  | succ k ih =>
    simp only [decodeWalk]
    split
    · simp
    · rename_i c _
      split
      · refine (emitByte_runs _ _ _).andThen fun _ s' h => ?_
        have hroot : s'.root = s.root := by
          rcases emitByte_cases (nodeSym (s.tmAt c)) (BitVec.ofNat 32 b) s with ⟨-, h'⟩ | ⟨-, h'⟩
          · rw [h'] at h
            cases h
          · rw [h'] at h
            cases h
            rfl
        obtain ⟨r, hr'⟩ := Option.ne_none_iff_exists'.1 hr
        rw [hroot, hr']
        exact ih _ _ _ (by rw [hroot]; exact hr)
      · exact ih _ _ _ hr

theorem checkResidue_cases (n : Nat) (s : State) :
    (n = 0 ∧ checkResidue n s = .ok () s) ∨
      (n ≠ 0 ∧ checkResidue n s = .error .trailingBits (BitVec.ofNat 32 n) s) := by
  unfold checkResidue
  split
  · exact .inl ⟨‹_›, rfl⟩
  · exact .inr ⟨‹_›, rfl⟩

theorem checkResidue_runs (n : Nat) (s : State) : (checkResidue n s).Runs := by
  rcases checkResidue_cases n s with ⟨-, h⟩ | ⟨-, h⟩ <;> simp [h]

theorem decodeCopies_emitted (sym : Byte) (len m k : Nat) {s : State} (hs : s.OutInside) :
    (decodeCopies sym len m k s).All (Emitted s) := by
  induction m generalizing k s with
  | zero => exact Emitted.refl hs
  | succ m ih =>
    exact (emitByte_emitted _ _ hs).andThen (fun _ h => h) fun _ s' h => (ih _ h.2.1).imp fun _ h' => h.trans h'

theorem decodeCopies_runs (sym : Byte) (len m k : Nat) (s : State) : (decodeCopies sym len m k s).Runs := by
  induction m generalizing k s with
  | zero => simp [decodeCopies]
  | succ m ih => exact (emitByte_runs _ _ _).andThen fun _ s' _ => ih _ _

theorem checkResidue_emitted (n : Nat) {s : State} (hs : s.OutInside) : (checkResidue n s).All (Emitted s) := by
  rcases checkResidue_cases n s with ⟨-, h⟩ | ⟨-, h⟩ <;> rw [h] <;> exact Emitted.refl hs

theorem decodeSingle_emitted (n : Nat) {s : State} (hs : s.OutInside) : (decodeSingle n s).All (Emitted s) := by
  unfold decodeSingle
  split
  · trivial
  · exact (decodeCopies_emitted _ _ _ _ hs).andThen (fun _ h => h) fun _ t h =>
      (checkResidue_emitted _ h.2.1).imp fun _ h' => h.trans h'

theorem State.decodeStart_outInside (s : State) : s.decodeStart.OutInside := by
  simp [State.OutInside, Config.obufBytes]

/-- DECODE changes nothing but OBUF and OUT_LEN (44_decode.md R259 (c)). -/
theorem decodeStream_frame (s : State) : (decodeStream s).All fun t => t = s ∨ Emitted s.decodeStart t := by
  unfold decodeStream
  split
  · exact .inl rfl
  · split
    · exact .inl rfl
    · dsimp only
      split
      · exact (decodeSingle_emitted _ s.decodeStart_outInside).imp fun _ h => .inr h
      · exact ((decodeWalk_emitted _ _ _ _ s.decodeStart_outInside).andThen (fun _ h => h) fun n t h =>
          (checkResidue_emitted n h.2.1).imp fun _ h' => h.trans h').imp fun _ h => .inr h

/-! ### ASSIGN -/

theorem State.countNode_tableOnly (s : State) : TableOnly s s.countNode := rfl

theorem State.leafVisit_tableOnly (s : State) (a : Byte) (e : Option Code) :
    TableOnly s ((s.countNode.setCt a e).countSym) := rfl

theorem State.assignStart_tableOnly (s : State) : TableOnly s s.assignStart := rfl

/-- ASSIGN's walk changes nothing but CT, SYM_COUNT and NODE_COUNT. -/
theorem assignWalk_tableOnly (k : Nat) (visited : List Slot) (stack : List Visit) (s : State) :
    (assignWalk k visited stack s).All (TableOnly s) := by
  induction k generalizing visited stack s with
  | zero =>
    cases stack with
    | nil => exact TableOnly.refl s
    | cons v stack => exact TableOnly.refl s
  | succ k ih =>
    cases stack with
    | nil => exact TableOnly.refl s
    | cons v stack =>
      simp only [assignWalk]
      split
      · exact TableOnly.refl s
      · split
        · exact TableOnly.refl s
        · split
          · exact TableOnly.refl s
          · split
            · split
              · exact (rfl : TableOnly s s.countNode)
              · exact (ih _ _ _).imp fun _ h => (s.leafVisit_tableOnly _ _).trans h
            · exact (ih _ _ _).imp fun _ h => s.countNode_tableOnly.trans h

theorem assignWalk_runs (k : Nat) (visited : List Slot) (stack : List Visit) (s : State) :
    (assignWalk k visited stack s).Runs := by
  induction k generalizing visited stack s with
  | zero => cases stack <;> simp [assignWalk]
  | succ k ih =>
    cases stack with
    | nil => simp [assignWalk]
    | cons v stack =>
      simp only [assignWalk]
      repeat' split
      all_goals first | simp | exact ih _ _ _

/-- ASSIGN changes nothing but CT, SYM_COUNT, NODE_COUNT and SYNC. -/
theorem assignCodes_tableOnly (s : State) : (assignCodes s).All (TableOnly s) := by
  refine (assignWalk_tableOnly _ _ _ _).andThen (fun _ h => s.assignStart_tableOnly.trans h) fun _ t h => ?_
  have h' : TableOnly s t := s.assignStart_tableOnly.trans h
  split
  · exact h'
  · exact h'.trans (rfl : TableOnly t (t.setSync true))

theorem assignCodes_runs (s : State) : (assignCodes s).Runs := by
  refine (assignWalk_runs _ _ _ _).andThen fun _ t _ => ?_
  split <;> simp

/-- With every slot visited, a slot that is popped has been visited: the walk's bound raises nothing that
41_tree_assign.md R174 does not (log 11). -/
theorem mem_of_all_slots_visited (visited : List Slot) (hn : visited.Nodup) (hl : visited.length = 511) (n : Slot) :
    n ∈ visited := by
  have hcard : visited.toFinset.card = Fintype.card Slot := by
    rw [List.toFinset_card_of_nodup hn, hl, Fintype.card_fin]
  have := Finset.eq_univ_of_card _ hcard
  simpa using (this ▸ Finset.mem_univ n : n ∈ visited.toFinset)

/-! ### BUILD -/

theorem allocNode_treeOnly (sym : Byte) (n : Slot) (b : Bool) (w : Word) (next : Nat) (s : State) :
    (allocNode sym n b w next s).All (TreeOnly s) := by
  rcases allocNode_cases sym n b w next s with ⟨_, h⟩ | ⟨_, h⟩
  · rw [h]
    exact rfl
  · rw [h]
    exact TreeOnly.refl s

theorem buildCode_treeOnly (sym : Byte) (bs : List Bool) (n : Slot) (next : Nat) (s : State) :
    (buildCode sym bs n next s).All (TreeOnly s) := by
  induction bs generalizing n next s with
  | nil => exact TreeOnly.refl s
  | cons b bs ih =>
    cases bs with
    | nil =>
      simp only [buildCode]
      split
      · exact TreeOnly.refl s
      · exact (allocNode_treeOnly _ _ _ _ _ _).andThen (fun _ h => h) fun _ _ h => h
    | cons b' bs =>
      simp only [buildCode]
      split
      · split
        · exact TreeOnly.refl s
        · exact ih _ _ _
      · exact (allocNode_treeOnly _ _ _ _ _ _).andThen (fun _ h => h) fun _ t h =>
          (ih _ _ t).imp fun _ h' => h.trans h'

theorem buildCode_runs (sym : Byte) (bs : List Bool) (n : Slot) (next : Nat) (s : State) :
    (buildCode sym bs n next s).Runs := by
  induction bs generalizing n next s with
  | nil => simp [buildCode]
  | cons b bs ih =>
    cases bs with
    | nil =>
      simp only [buildCode]
      split
      · simp
      · exact (allocNode_runs _ _ _ _ _ _).andThen fun _ _ _ => by simp
    | cons b' bs =>
      simp only [buildCode]
      split
      · split
        · simp
        · exact ih _ _ _
      · exact (allocNode_runs _ _ _ _ _ _).andThen fun _ _ _ => ih _ _ _

theorem buildEntries_treeOnly (es : List (Byte × Code)) (next : Nat) (s : State) :
    (buildEntries es next s).All (TreeOnly s) := by
  induction es generalizing next s with
  | nil => exact TreeOnly.refl s
  | cons e es ih =>
    exact (buildCode_treeOnly _ _ _ _ _).andThen (fun _ h => h) fun _ t h => (ih _ t).imp fun _ h' => h.trans h'

theorem buildEntries_runs (es : List (Byte × Code)) (next : Nat) (s : State) : (buildEntries es next s).Runs := by
  induction es generalizing next s with
  | nil => simp [buildEntries]
  | cons e es ih => exact (buildCode_runs _ _ _ _ _).andThen fun _ _ _ => ih _ _

/-- The state BUILD reads the table in: SYNC 0, TM empty, ROOT 0, NODE_COUNT 0 (43_code_table.md R225). -/
theorem State.buildStart_treeOnly (s : State) : TreeOnly s (((s.setSync false).clearTree).setRoot 0) := rfl

theorem State.plantRoot_treeOnly (s : State) : TreeOnly s s.plantRoot := rfl

/-- BUILD changes nothing but TM, ROOT, NODE_COUNT and SYNC. -/
theorem buildTree_treeOnly (s : State) : (buildTree s).All (TreeOnly s) := by
  unfold buildTree
  dsimp only
  split
  · exact s.buildStart_treeOnly
  · have h₀ := s.buildStart_treeOnly.trans (State.plantRoot_treeOnly _)
    exact (buildEntries_treeOnly _ _ _).andThen (fun _ h => h₀.trans h) fun _ t h =>
      (h₀.trans h).trans (rfl : TreeOnly t (t.setSync true))

theorem buildTree_runs (s : State) : (buildTree s).Runs := by
  unfold buildTree
  dsimp only
  split
  · simp
  · exact (buildEntries_runs _ _ _).andThen fun _ _ _ => by simp

end Sys2Proof.Machine
end

