-- ==== Sys2Proof/Laws/Step.lean ====
section
/-! SUPPORT. What a command can end in, whose turn it is, and what a step can do. -/

namespace Sys2Proof.Machine

/-! ### Commands -/

/-- Every command but DECODE answers a next state from every state. -/
theorem exec_next (i : Instr) (hi : i ≠ .decode) (s : State) : ∃ t, exec i s = .next t := by
  cases i with
  | nop => exact ⟨_, rfl⟩
  | tableClear => exact (ifUnlocked_runs (by simp)).complete
  | tableWr =>
    refine (ifUnlocked_runs ?_).complete
    unfold tableWrite
    split <;> simp
  | tableRd => exact ⟨_, rfl⟩
  | treeClear => exact (ifUnlocked_runs (by simp)).complete
  | nodeWr =>
    refine (ifUnlocked_runs ?_).complete
    unfold nodeWrite
    split <;> simp
  | nodeRd =>
    refine CmdResult.Runs.complete ?_
    unfold nodeRead
    split <;> simp
  | assign => exact (ifUnlocked_runs (assignCodes_runs s)).complete
  | build => exact (ifUnlocked_runs (buildTree_runs s)).complete
  | encode => exact (encodeStream_runs s).complete
  | decode => exact absurd rfl hi

/-- A command is never refused. -/
theorem exec_ne_refused (i : Instr) (s : State) (x : Refusal) : exec i s ≠ .refused x := by
  cases i <;>
    simp only [exec, execNop, execTableClear, execTableWr, execTableRd, execTreeClear, execNodeWr, execNodeRd,
      execAssign, execBuild, execEncode, execDecode] <;>
    exact complete_ne_refused _ _

/-- DECODE stops the model only where no run leads: SYNC = 1 with SYM_COUNT = 1 and no sole entry, or with another
SYM_COUNT and ROOT = NIL. -/
theorem decodeStream_runs {s : State} (h₁ : s.symCount = 1 → s.soleEntry ≠ none)
    (h₂ : s.symCount ≠ 1 → slotOf s.root ≠ none) : (decodeStream s).Runs := by
  unfold decodeStream
  split
  · simp
  · split
    · simp
    · dsimp only
      split
      · rename_i hc
        have hsole : s.decodeStart.soleEntry = s.soleEntry := rfl
        unfold decodeSingle
        split
        · rename_i hn
          exact absurd (hsole ▸ hn) (h₁ (by simpa using hc))
        · exact (decodeCopies_runs _ _ _ _ _).andThen fun _ t _ => checkResidue_runs _ t
      · rename_i hc
        have hr := h₂ (by simpa using hc)
        obtain ⟨r, hr'⟩ := Option.ne_none_iff_exists'.1 hr
        rw [State.decodeStart_root, hr']
        exact (decodeWalk_runs _ _ _ _ (by simpa using hr)).andThen fun n t _ => checkResidue_runs n t

/-! ### Whose turn it is -/

theorem State.turn_idle {s : State} : s.turn = .idle ↔ s.pending = none ∧ s.inputs = [] := by
  unfold State.turn
  split <;> simp_all

/-- The ENGINE moves exactly where a command is pending and the world outside has nothing to do or the scheduler does
not choose it. -/
theorem State.turn_engine {s : State} {w : Word} :
    s.turn = .engine w ↔ s.pending = some w ∧ (s.inputs = [] ∨ s.sched.head? ≠ some .host) := by
  have hd : s.sched.headD .engine = .host ↔ s.sched.head? = some .host := by
    cases s.sched <;> simp
  unfold State.turn
  split <;> simp_all

/-- The world outside moves exactly where it has something to do and no command is pending or the scheduler chooses
it. -/
theorem State.turn_host {s : State} {i : Input} {rest : List Input} :
    s.turn = .host i rest ↔ s.inputs = i :: rest ∧ (s.pending = none ∨ s.sched.head? = some .host) := by
  have hd : s.sched.headD .engine = .host ↔ s.sched.head? = some .host := by
    cases s.sched <;> simp
  unfold State.turn
  split <;> simp_all

theorem State.tick_of_idle {s : State} (h : s.busy = false) : s.tick = s := by simp [State.tick, h]

theorem State.tick_of_busy {s : State} (h : s.busy = true) : s.tick = { s with sched := s.sched.tail } := by
  simp [State.tick, h]

@[simp] theorem State.busy_tick (s : State) : s.tick.busy = s.busy := by simp [State.busy]

/-! ### Steps -/

theorem engineStep_ok {w : Word} {i : Instr} (h : Sys2Proof.decode w = .ok i) (s : State) :
    engineStep w s = exec i s := by simp [engineStep, h]

theorem engineStep_illegal {w : Word} {e : IllegalWord} (h : Sys2Proof.decode w = .error e) (s : State) :
    engineStep w s = .next (s.fails 1 w) := by
  simp only [engineStep, h, illegalCommand, complete_error]
  rfl

/-- Everything a step can do: nothing; a command; an illegal word; or a step of the world outside. -/
theorem step_cases (s : State) :
    (s.turn = .idle ∧ step s = .next s) ∨
    (∃ w i, s.turn = .engine w ∧ Sys2Proof.decode w = .ok i ∧ step s = exec i s.tick) ∨
    (∃ w e, s.turn = .engine w ∧ Sys2Proof.decode w = .error e ∧ step s = .next (s.tick.fails 1 w)) ∨
    (∃ i rest, s.turn = .host i rest ∧ step s = hostStep i rest s.tick) := by
  unfold step
  cases h : s.turn with
  | idle => exact .inl ⟨rfl, rfl⟩
  | engine w =>
    refine .inr ?_
    cases hd : Sys2Proof.decode w with
    | ok i => exact .inl ⟨w, i, rfl, hd, engineStep_ok hd _⟩
    | error e => exact .inr (.inl ⟨w, e, rfl, hd, engineStep_illegal hd _⟩)
  | host i rest => exact .inr (.inr (.inr ⟨i, rest, rfl, rfl⟩))

/-- A host access is refused by name, or it has the shape 40_control.md R140 defines and takes effect. -/
theorem hostAccess_eq (a : Access) (s : State) :
    hostAccess a s =
      if a.wellFormed s.cfg then .next (accessOffset (a.addr - s.cfg.base) a.dir s)
      else .refused (if a.wordWide then (if a.single then (if a.inWindow s.cfg then .misalignedOffset
        else .outsideWindow) else .burstAccess) else .accessWidth) := by
  have hb : s.cfg.base % 4 = 0 := by
    simp only [Config.base]
    omega
  have hal : s.cfg.base ≤ a.addr → ((a.addr - s.cfg.base) % 4 = 0 ↔ a.addr % 4 = 0) := by omega
  unfold hostAccess
  by_cases h₁ : a.bits = 32
  · by_cases h₂ : a.beats = 1
    · by_cases h₃ : s.cfg.base ≤ a.addr ∧ a.addr < s.cfg.base + 256
      · have h₃' : ¬ (a.addr < s.cfg.base ∨ s.cfg.base + 256 ≤ a.addr) := by omega
        have := hal h₃.1
        by_cases h₄ : a.addr % 4 = 0
        · simp [Access.wellFormed, Access.wordWide, Access.single, Access.inWindow, Access.aligned, h₁, h₂, h₃, h₃',
            h₄, this]
        · simp [Access.wellFormed, Access.wordWide, Access.single, Access.inWindow, Access.aligned, h₁, h₂, h₃, h₃',
            h₄, this]
      · have h₃' : a.addr < s.cfg.base ∨ s.cfg.base + 256 ≤ a.addr := by omega
        simp [Access.wellFormed, Access.wordWide, Access.single, Access.inWindow, h₁, h₂, h₃', h₃]
    · simp [Access.wellFormed, Access.wordWide, Access.single, h₁, h₂]
  · simp [Access.wellFormed, Access.wordWide, h₁]

/-- Everything a step of the world outside that is not refused can do: an access to an offset, a pass of WAIT, or
reset. -/
theorem hostStep_eq_next {i : Input} {rest : List Input} {s t : State} :
    hostStep i rest s = .next t ↔
      (∃ a : Access, i = .access a ∧ a.wellFormed s.cfg = true ∧
        t = accessOffset (a.addr - s.cfg.base) a.dir (s.setInputs rest)) ∨
      (i = .wait ∧ t = hostWait s rest) ∨ (i = .reset ∧ t = (s.setInputs rest).hardReset) := by
  cases i with
  | access a =>
    simp only [hostStep, hostAccess_eq, State.setInputs_cfg, Input.access.injEq, exists_eq_left', reduceCtorEq,
      false_and, or_false]
    by_cases h : a.wellFormed s.cfg = true <;> simp [h, @eq_comm _ t]
  | wait => simp [hostStep, @eq_comm _ t]
  | reset => simp [hostStep, @eq_comm _ t]

/-- The offset of a well-formed access is a multiple of 4 below 256. -/
theorem Access.offset_of_wellFormed {c : Config} {a : Access} (h : a.wellFormed c = true) :
    (a.addr - c.base) % 4 = 0 ∧ a.addr - c.base < 256 := by
  have hb : c.base % 4 = 0 := by
    simp only [Config.base]
    omega
  simp only [Access.wellFormed, Access.wordWide, Access.single, Access.inWindow, Access.aligned, Bool.and_eq_true,
    beq_iff_eq, decide_eq_true_eq] at h
  omega

/-! ### The register map -/

/-- Each register lies at its own offset. -/
@[simp] theorem regAt_offset (r : Reg) : regAt r.offset = some r := by
  cases r with
  | codeW k => fin_cases k <;> rfl
  | bufAddr b => cases b <;> rfl
  | bufData b => cases b <;> rfl
  | bufSize b => cases b <;> rfl
  | _ => rfl

/-- Only a register's own offset names it. -/
theorem regAt_eq_some {off : Nat} {r : Reg} : regAt off = some r ↔ off = r.offset := by
  constructor
  · intro h
    unfold regAt at h
    split at h <;> first | (cases h; rfl) | cases h
  · rintro rfl
    exact regAt_offset r

end Sys2Proof.Machine
end

