-- ==== Sys2Proof/Laws/PerInstr.lean ====
section
/-! SUPPORT. The per-instruction family CommandWord: a command's word decodes to it, its RSVD field is 0, and its
OPCODE field is its opcode (30_encoding.md R110, R111). -/

namespace Sys2Proof.Laws.CommandWord

/-- What is said of every command as syntax: well-formed, its word's fields as R110 lays them out, and the word
decodes to it. -/
def Statement (i : Instr) : Prop :=
  i.wellFormed = true ∧ rsvdField (encode i) = 0 ∧ opcodeField (encode i) = i.opcode ∧ decode (encode i) = .ok i

theorem nop : Statement .nop := by refine ⟨rfl, ?_, ?_, ?_⟩ <;> decide
theorem tableClear : Statement .tableClear := by refine ⟨rfl, ?_, ?_, ?_⟩ <;> decide
theorem tableWr : Statement .tableWr := by refine ⟨rfl, ?_, ?_, ?_⟩ <;> decide
theorem tableRd : Statement .tableRd := by refine ⟨rfl, ?_, ?_, ?_⟩ <;> decide
theorem treeClear : Statement .treeClear := by refine ⟨rfl, ?_, ?_, ?_⟩ <;> decide
theorem nodeWr : Statement .nodeWr := by refine ⟨rfl, ?_, ?_, ?_⟩ <;> decide
theorem nodeRd : Statement .nodeRd := by refine ⟨rfl, ?_, ?_, ?_⟩ <;> decide
theorem assign : Statement .assign := by refine ⟨rfl, ?_, ?_, ?_⟩ <;> decide
theorem build : Statement .build := by refine ⟨rfl, ?_, ?_, ?_⟩ <;> decide
theorem encode : Statement .encode := by refine ⟨rfl, ?_, ?_, ?_⟩ <;> decide
theorem decode : Statement .decode := by refine ⟨rfl, ?_, ?_, ?_⟩ <;> decide

end Sys2Proof.Laws.CommandWord
end

