-- ==== Sys2Proof/Tests/Slice0.lean ====
section
/-! SUPPORT. The model's own tests: decoding of words written out from 30_encoding.md R111, the well-formedness checks,
small one-step tests whose results are vectors of 95_test_vectors.md, and a witness for the hypotheses of each
statement for the provers. -/

namespace Sys2Proof.Tests

open Sys2Proof Sys2Proof.Machine

set_option maxRecDepth 8000

/-! ### Decoding: words written out bit by bit from 30_encoding.md R110, R111, R112 -/

theorem test_decode_nop : decode 0b00000000000000000000000000000000 = .ok .nop := by decide
theorem test_decode_tableClear : decode 0b00000000000000000000000000000001 = .ok .tableClear := by decide
theorem test_decode_tableWr : decode 0b00000000000000000000000000000010 = .ok .tableWr := by decide
theorem test_decode_tableRd : decode 0b00000000000000000000000000000011 = .ok .tableRd := by decide
theorem test_decode_treeClear : decode 0b00000000000000000000000000000100 = .ok .treeClear := by decide
theorem test_decode_nodeWr : decode 0b00000000000000000000000000000101 = .ok .nodeWr := by decide
theorem test_decode_nodeRd : decode 0b00000000000000000000000000000110 = .ok .nodeRd := by decide
theorem test_decode_assign : decode 0b00000000000000000000000000000111 = .ok .assign := by decide
theorem test_decode_build : decode 0b00000000000000000000000000001000 = .ok .build := by decide
theorem test_decode_encode : decode 0b00000000000000000000000000001001 = .ok .encode := by decide
theorem test_decode_decode : decode 0b00000000000000000000000000001010 = .ok .decode := by decide
theorem test_decode_first_illegal : decode 0b00000000000000000000000000001011 = .error .opcodeOutsideMap := by decide
theorem test_decode_last_opcode : decode 0b00000000000000000000000011111111 = .error .opcodeOutsideMap := by decide
theorem test_decode_reserved_low : decode 0b00000000000000000000000100001001 = .error .reservedBits := by decide
theorem test_decode_reserved_high : decode 0b10000000000000000000000000000000 = .error .reservedBits := by decide

/-! ### Well-formedness: one ill-formed access for each check (20_memory.md R85) -/

/-- BASE = 0x700, IBUF_BYTES = 4, OBUF_BYTES = 2. -/
def params : Config := ⟨7, 3, 1⟩

theorem test_wellFormed_word : Access.wellFormed params ⟨0x710, 32, 1, .read⟩ = true := by decide
theorem test_illFormed_width : Access.wellFormed params ⟨0x710, 16, 1, .read⟩ = false := by decide
theorem test_illFormed_burst : Access.wellFormed params ⟨0x710, 32, 2, .read⟩ = false := by decide
theorem test_illFormed_below : Access.wellFormed params ⟨0x6FC, 32, 1, .read⟩ = false := by decide
theorem test_illFormed_above : Access.wellFormed params ⟨0x800, 32, 1, .read⟩ = false := by decide
theorem test_illFormed_misaligned : Access.wellFormed params ⟨0x712, 32, 1, .read⟩ = false := by decide

/-! ### Small states -/

/-- The answer is a next state of which `P` holds. -/
def answers (o : Host.Outcome State Fault Refusal) (P : State → Bool) : Bool :=
  match o with
  | .next t => P t
  | _ => false

theorem next_of_answers {o : Host.Outcome State Fault Refusal} {P : State → Bool} (h : answers o P = true) :
    ∃ t, o = .next t ∧ P t = true := by
  cases o with
  | next t => exact ⟨t, rfl, h⟩
  | fault f => exact absurd h (by simp [answers])
  | refused x => exact absurd h (by simp [answers])

/-- The block right after reset, with small buffers. -/
def small : State := State.resetWith params 0

/-- Node words placed in TM. -/
def withNodes (nodes : List (Slot × Word)) (s : State) : State := nodes.foldl (fun s e => s.setTm e.1 e.2) s

/-- Codes placed in CT and counted. -/
def withCodes (codes : List (Byte × Code)) (s : State) : State :=
  codes.foldl (fun s e => (s.setCt e.1 (some e.2)).countSym) s

/-- The cells of a buffer whose first bytes are written. -/
def cells (bs : List Byte) : Memory := bs.zipIdx.map fun e => (e.2, e.1)

/-- The table a = "0", b = "10", c = "11" of 95_test_vectors.md 2.4 (T3). -/
def tableT3 : List (Byte × Code) := [(0x61, ⟨1, 0⟩), (0x62, ⟨2, 2⟩), (0x63, ⟨2, 3⟩)]

/-- The tree of 95_test_vectors.md A2, root slot 0, not yet assigned. -/
def treeA2 : State :=
  withNodes [(0, 0x80020001), (1, 0xC0000061), (2, 0x80040003), (3, 0xC0000062), (4, 0xC0000063)]
    { small with root := 0 }

/-- The incomplete tree and table a = "0", b = "10" of 95_test_vectors.md D9, BIT_LEN and IBUF as given. -/
def treeD9 (bits : Word) (ibuf : Memory) : State :=
  { withNodes [(0, 0x80020001), (1, 0xC0000061), (2, 0x81FF0003), (3, 0xC0000062)]
      (withCodes [(0x61, ⟨1, 0⟩), (0x62, ⟨2, 2⟩)] small) with
    root := 0, nodeCount := 4, sync := true, bitLen := bits, ibuf := ibuf }

/-- A command pending and the ENGINE about to move. -/
def pend (w : Word) (s : State) : State := { s with pending := some w }

/-! ### One step of each command: vectors of 95_test_vectors.md -/

/-- H10. -/
theorem test_nop : answers (step (pend 0x00 small)) (fun t => t.statusWord = 0x2 && t.errCode = 0) = true := by decide

/-- T10. -/
theorem test_tableClear : answers (step (pend 0x01 (withCodes tableT3 { small with sync := true })))
    (fun t => t.validEntries = [] && t.symCount = 0 && t.statusWord = 0x2) = true := by decide

/-- T9. -/
theorem test_tableClear_locked : answers (step (pend 0x01 (withCodes tableT3 { small with lock := true })))
    (fun t => t.validEntries = tableT3 && t.errCode = 2 && t.errInfo = 1) = true := by decide

/-- T1: only the low L bits are kept. -/
theorem test_tableWr : answers (step (pend 0x02 { small with
    sym := 0x62, codeLen := 1, codeW := small.codeW.set 0 0xFFFFFFFF }))
    (fun t => t.ctAt 0x62 = some ⟨1, 1⟩ && t.symCount = 1 && !t.err) = true := by decide

/-- T5: two words of a code, the bits at and above L = 40 cut off. -/
theorem test_tableWr_two_words : answers (step (pend 0x02 { small with
    sym := 0x30, codeLen := 40, codeW := (small.codeW.set 0 0x12345678).set 1 0xFFAB }))
    (fun t => t.ctAt 0x30 = some ⟨40, 0xAB12345678⟩) = true := by decide

/-- T6. -/
theorem test_tableRd : answers (step (pend 0x03 (withCodes [(0x30, ⟨40, 0xAB12345678⟩)] { small with sym := 0x30 })))
    (fun t => t.codeLen = 40 && t.codeW.toList = [0x12345678, 0xAB, 0, 0, 0, 0, 0, 0]) = true := by decide

/-- T3. -/
theorem test_tableRd_invalid : answers (step (pend 0x03 { small with
    sym := 0x70, codeLen := 9, codeW := small.codeW.set 0 0x55 }))
    (fun t => t.codeLen = 0 && t.codeW.toList = [0, 0, 0, 0, 0, 0, 0, 0] && !t.err) = true := by decide

/-- N7. -/
theorem test_treeClear : answers (step (pend 0x04 (treeD9 0 [])))
    (fun t => t.tmAt 0 = 0 && t.tmAt 3 = 0 && t.nodeCount = 0 && !t.sync && t.symCount = 2) = true := by decide

/-- N8. -/
theorem test_treeClear_locked : answers (step (pend 0x04 { treeD9 0 [] with lock := true }))
    (fun t => t.tmAt 3 = 0xC0000062 && t.errCode = 2 && t.errInfo = 4 && t.sync) = true := by decide

/-- N1. -/
theorem test_nodeWr : answers (step (pend 0x05 { small with nodeIdx := 3, nodeData := 0xC0000062, sync := true }))
    (fun t => t.tmAt 3 = 0xC0000062 && !t.sync && !t.err) = true := by decide

/-- N5: LOCKED is checked before BAD_INDEX. -/
theorem test_nodeWr_locked : answers (step (pend 0x05 { small with nodeIdx := 0x1FF, lock := true }))
    (fun t => t.errCode = 2 && t.errInfo = 5) = true := by decide

/-- N2. -/
theorem test_nodeRd : answers (step (pend 0x06 { treeD9 0 [] with nodeIdx := 3 }))
    (fun t => t.nodeData = 0xC0000062 && t.sync) = true := by decide

/-- N4. -/
theorem test_nodeRd_bad_index : answers (step (pend 0x06 { small with nodeIdx := 0x1FF, nodeData := 5 }))
    (fun t => t.errCode = 6 && t.errInfo = 511 && t.nodeData = 5) = true := by decide

/-- A2. -/
theorem test_assign : answers (step (pend 0x07 treeA2))
    (fun t => t.validEntries = tableT3 && t.nodeCount = 5 && t.symCount = 3 && t.sync) = true := by decide

/-- A9: both children are slot 1. -/
theorem test_assign_shared_slot : answers (step (pend 0x07
    (withNodes [(0, 0x80010001), (1, 0xC0000061)] { small with root := 0 })))
    (fun t => t.errCode = 7 && t.errInfo = 1 && t.validEntries = [(0x61, ⟨1, 0⟩)] && t.nodeCount = 2 && !t.sync) =
      true := by decide

/-- B2. -/
theorem test_build : answers (step (pend 0x08 (withCodes tableT3 small)))
    (fun t => t.tmAt 0 = 0x80020001 && t.tmAt 2 = 0x80040003 && t.tmAt 4 = 0xC0000063 && t.root = 0 && t.nodeCount = 5 && t.sync) = true := by decide

/-- B4: "0" is a prefix of "01". -/
theorem test_build_conflict : answers (step (pend 0x08 (withCodes [(0x10, ⟨2, 1⟩), (0x20, ⟨1, 0⟩)] small)))
    (fun t => t.errCode = 9 && t.errInfo = 0x20 && t.tmAt 0 = 0x81FF0001 && t.tmAt 1 = 0x800201FF &&
      t.tmAt 2 = 0xC0000010 && t.nodeCount = 3 && !t.sync) = true := by decide

/-- E2: 61 62 63 61 62 packs to 0101_1010. -/
theorem test_encode : answers (step (pend 0x09 (withCodes tableT3 { State.resetWith ⟨7, 63, 63⟩ 0 with
    inLen := 5, ibuf := cells [0x61, 0x62, 0x63, 0x61, 0x62] })))
    (fun t => t.bitLen = 8 && t.outLen = 1 && t.obuf = [(0, 0x5A)] && !t.err) = true := by decide

/-- E5: UNKNOWN_SYMBOL at index 2. -/
theorem test_encode_unknown : answers (step (pend 0x09 (withCodes tableT3 { small with
    inLen := 4, ibuf := cells [0x61, 0x62, 0x7A, 0x61] })))
    (fun t => t.errCode = 4 && t.errInfo = 2 && t.bitLen = 3 && t.outLen = 0 && t.obuf = []) = true := by decide

/-- D9: "11" leads to NIL at bit 3. -/
theorem test_decode_invalid_code : answers (step (pend 0x0A (treeD9 4 (cells [0x30]))))
    (fun t => t.errCode = 12 && t.errInfo = 3 && t.outLen = 2 && t.obuf = [(0, 0x61), (1, 0x61)]) = true := by decide

/-- D8: a lone code of three bits, 7 = 2 * 3 + 1. -/
theorem test_decode_single : answers (step (pend 0x0A (withCodes [(0x41, ⟨3, 5⟩)] { small with
    sync := true, bitLen := 7, ibuf := cells [0xFF] })))
    (fun t => t.errCode = 13 && t.errInfo = 1 && t.outLen = 2 && t.obuf = [(0, 0x41), (1, 0x41)]) = true := by decide

/-- X6: ILLEGAL_CMD is checked before LOCKED. -/
theorem test_illegal_command : answers (step (pend 0x0B { small with lock := true }))
    (fun t => t.errCode = 1 && t.errInfo = 0x0B && t.statusWord = 0x6) = true := by decide

/-! ### Host steps: vectors of 95_test_vectors.md 2.1 -/

/-- H5. -/
theorem test_host_write_masks : (hostWrite 0x54 0xFFFFFFFF small).nodeData = 0xC1FF01FF := by decide

/-- H13: a write while busy is dropped and sets OVR. -/
theorem test_host_write_busy : answers (step { pend 0x00 small with
    inputs := [wrInput params .inLen 5], sched := [.host] }) (fun t => t.inLen = 0 && t.statusWord = 0x9) = true := by
  decide

/-- H20: beyond the buffer a data port reads 0, and the address wraps. -/
theorem test_host_port_wraps : (hostRead 0x70 { small with obufAddr := 0xFFFFFFFF }).1 = 0 ∧
    (hostRead 0x70 { small with obufAddr := 0xFFFFFFFF }).2.obufAddr = 0 := by decide

/-- R2: reset aborts a pending command. -/
theorem test_reset_aborts : answers (step { pend 0x09 small with inputs := [.reset], sched := [.host] })
    (fun t => t.statusWord = 0 && !t.irq && t.root = 0x1FF && t.epoch = 1) = true := by decide


/-! ### Host programs (43_code_table.md R223, 70_reset_and_hazards.md R344) -/

/-- A kept table with SYNC 1 and LOCK 1: the boot order for DECODE issues no BUILD. -/
theorem test_decodeProgram_keeps_tree :
    decodeProgram { treeD9 0 [] with lock := true } .keep false [0x30] 4 =
      some [.putIn 0 [0x30], .wr .bitLen 4, .run .decode] := by decide

/-- Records loaded, then BUILD, then the lock. -/
theorem test_decodeProgram_loads :
    decodeProgram small (.load [(0x61, [false])]) true [0x00] 1 =
      some [.run .tableClear, .loadCode 0x61 1 0, .run .build, .wr .ctrl 0x1, .putIn 0 [0x00], .wr .bitLen 1,
        .run .decode] := by decide

/-- 255 bits can be represented, 256 cannot. -/
theorem test_recordLine_limit : (recordLine 0x61 (List.replicate 255 true)).isSome = true ∧
    recordLine 0x61 (List.replicate 256 true) = none := by decide

/-! ### The incomplete tree D9 meets the invariants -/

theorem treeD9_entries (bits : Word) (m : Memory) :
    (treeD9 bits m).validEntries = [(0x61, ⟨1, 0⟩), (0x62, ⟨2, 2⟩)] :=
  (State.validEntries_congr (s := treeD9 0 []) rfl).trans (by decide)

theorem treeD9_ctAt {bits : Word} {m : Memory} {a : Byte} {c : Code} :
    (treeD9 bits m).ctAt a = some c ↔ (a = 0x61 ∧ c = ⟨1, 0⟩) ∨ (a = 0x62 ∧ c = ⟨2, 2⟩) := by
  rw [← State.mem_validEntries, treeD9_entries]
  simp

/-- The four slots a path leads to. -/
theorem treeD9_reach (bits : Word) (m : Memory) (path : List Bool) :
    (treeD9 bits m).reach path =
      if path = [] then some 0 else if path = [false] then some 1 else if path = [true] then some 2
      else if path = [true, false] then some 3 else none := by
  have hroot : slotOf (treeD9 bits m).root = some 0 := rfl
  have l0 : leafNode ((treeD9 bits m).tmAt 0) = false :=
    (by decide : leafNode ((treeD9 0 []).tmAt 0) = false)
  have l1 : leafNode ((treeD9 bits m).tmAt 1) = true :=
    (by decide : leafNode ((treeD9 0 []).tmAt 1) = true)
  have l2 : leafNode ((treeD9 bits m).tmAt 2) = false :=
    (by decide : leafNode ((treeD9 0 []).tmAt 2) = false)
  have l3 : leafNode ((treeD9 bits m).tmAt 3) = true :=
    (by decide : leafNode ((treeD9 0 []).tmAt 3) = true)
  have c00 : childOf ((treeD9 bits m).tmAt 0) false = some 1 :=
    (by decide : childOf ((treeD9 0 []).tmAt 0) false = some 1)
  have c01 : childOf ((treeD9 bits m).tmAt 0) true = some 2 :=
    (by decide : childOf ((treeD9 0 []).tmAt 0) true = some 2)
  have c20 : childOf ((treeD9 bits m).tmAt 2) false = some 3 :=
    (by decide : childOf ((treeD9 0 []).tmAt 2) false = some 3)
  have c21 : childOf ((treeD9 bits m).tmAt 2) true = none :=
    (by decide : childOf ((treeD9 0 []).tmAt 2) true = none)
  rcases path with _ | ⟨a, _ | ⟨b, _ | ⟨c, p⟩⟩⟩
  · simp [State.reach, hroot, walkTree]
  · cases a <;> simp [State.reach, hroot, walkTree, l0, c00, c01]
  · cases a <;> cases b <;> simp [State.reach, hroot, walkTree, l0, l1, l2, c00, c01, c20, c21]
  · cases a <;> cases b <;>
      simp [State.reach, hroot, walkTree, l0, l1, l2, l3, c00, c01, c20, c21]

theorem treeD9_leafAt (bits : Word) (m : Memory) (path : List Bool) (a : Byte) :
    (treeD9 bits m).LeafAt path a ↔ (path = [false] ∧ a = 0x61) ∨ (path = [true, false] ∧ a = 0x62) := by
  have h0 : leafNode ((treeD9 bits m).tmAt 0) = false :=
    (by decide : leafNode ((treeD9 0 []).tmAt 0) = false)
  have h1 : leafNode ((treeD9 bits m).tmAt 1) = true ∧ nodeSym ((treeD9 bits m).tmAt 1) = 0x61 :=
    (by decide : leafNode ((treeD9 0 []).tmAt 1) = true ∧ nodeSym ((treeD9 0 []).tmAt 1) = 0x61)
  have h2 : leafNode ((treeD9 bits m).tmAt 2) = false :=
    (by decide : leafNode ((treeD9 0 []).tmAt 2) = false)
  have h3 : leafNode ((treeD9 bits m).tmAt 3) = true ∧ nodeSym ((treeD9 bits m).tmAt 3) = 0x62 :=
    (by decide : leafNode ((treeD9 0 []).tmAt 3) = true ∧ nodeSym ((treeD9 0 []).tmAt 3) = 0x62)
  unfold State.LeafAt
  rw [treeD9_reach]
  constructor
  · rintro ⟨n, hn, hl, rfl⟩
    split at hn
    · cases hn; simp [h0] at hl
    · split at hn
      · cases hn; exact .inl ⟨‹_›, h1.2⟩
      · split at hn
        · cases hn; simp [h2] at hl
        · split at hn
          · cases hn; exact .inr ⟨‹_›, h3.2⟩
          · cases hn
  · rintro (⟨rfl, rfl⟩ | ⟨rfl, rfl⟩)
    · exact ⟨1, by simp, h1⟩
    · exact ⟨3, by simp, h3⟩

theorem treeD9_matches (bits : Word) (m : Memory) : (treeD9 bits m).TreeMatches where
  rooted := ⟨0, rfl⟩
  used := by
    intro path n hn
    have h : ∀ n : Slot, n.val < 4 → usedNode ((treeD9 0 []).tmAt n) = true := by decide
    refine h n ?_
    rw [treeD9_reach] at hn
    repeat' split at hn
    all_goals first | (cases hn; decide) | cases hn
  leafCode := by
    intro path sym h
    rcases (treeD9_leafAt bits m path sym).1 h with ⟨rfl, rfl⟩ | ⟨rfl, rfl⟩
    · exact ⟨⟨1, 0⟩, treeD9_ctAt.2 (.inl ⟨rfl, rfl⟩), by decide⟩
    · exact ⟨⟨2, 2⟩, treeD9_ctAt.2 (.inr ⟨rfl, rfl⟩), by decide⟩
  codeLeaf := by
    intro sym c h
    rcases treeD9_ctAt.1 h with ⟨rfl, rfl⟩ | ⟨rfl, rfl⟩
    · exact ⟨[false], (treeD9_leafAt ..).2 (.inl ⟨rfl, rfl⟩), by decide⟩
    · exact ⟨[true, false], (treeD9_leafAt ..).2 (.inr ⟨rfl, rfl⟩), by decide⟩

theorem treeD9_tight (bits : Word) (m : Memory) : (treeD9 bits m).TreeTight := by
  intro path n hn
  rw [treeD9_reach] at hn
  repeat' split at hn
  · exact ⟨[false], 0x61, (treeD9_leafAt ..).2 (.inl ⟨by simp [*], rfl⟩)⟩
  · exact ⟨[], 0x61, (treeD9_leafAt ..).2 (.inl ⟨by simp [*], rfl⟩)⟩
  · exact ⟨[false], 0x62, (treeD9_leafAt ..).2 (.inr ⟨by simp [*], rfl⟩)⟩
  · exact ⟨[], 0x62, (treeD9_leafAt ..).2 (.inr ⟨by simp [*], rfl⟩)⟩
  · cases hn

theorem treeD9_inv (bits : Word) (m : Memory) (h : m.wf 4) : (treeD9 bits m).Inv where
  buffers := ⟨h, Memory.nil_wf _⟩
  legal := by
    intro sym c hc
    rcases treeD9_ctAt.1 hc with ⟨rfl, rfl⟩ | ⟨rfl, rfl⟩ <;> exact ⟨by decide, by decide⟩
  counts := by
    unfold State.CountsTable
    rw [treeD9_entries]
    rfl
  masked := ⟨(by decide : (treeD9 0 []).nodeData &&& nodeMask = (treeD9 0 []).nodeData), (by decide : ∀ n, (treeD9 0 []).tmAt n &&& nodeMask = (treeD9 0 []).tmAt n)⟩
  clean := fun hb => absurd hb (by decide : ¬ (treeD9 0 []).busy = true)
  recorded := ⟨Nat.zero_le _, fun h => absurd h (by decide : ¬ (treeD9 0 []).err = true), fun _ => rfl⟩
  outLen := Nat.zero_le _
  nodeCount := (by decide : (treeD9 0 []).nodeCount.toNat ≤ 511)
  rooted := fun _ =>
    ⟨(by decide : 1 ≤ (treeD9 0 []).symCount.toNat), 0, rfl, (by decide : usedNode ((treeD9 0 []).tmAt 0) = true),
      fun _ => (by decide : leafNode ((treeD9 0 []).tmAt 0) = false)⟩

/-! ### Witnesses: states that meet the hypotheses of the statements for the provers -/

/-- `P` holds of the next state, and the answer is one. -/
theorem next_of {o : Host.Outcome State Fault Refusal} (P : State → Prop) [DecidablePred P]
    (h : answers o (fun t => decide (P t)) = true) : ∃ t, o = .next t ∧ P t := by
  obtain ⟨t, ht, hp⟩ := next_of_answers h
  exact ⟨t, ht, of_decide_eq_true hp⟩

/-- The first illegal opcode and the lowest reserved bit, issued from idle and about to be executed. -/
theorem witness_IllegalWordsRaiseIllegalCmd :
    0x0B ≤ (BitVec.extractLsb' 0 8 (0x0B : Word)).toNat ∧ BitVec.extractLsb' 8 24 (0x100 : Word) ≠ 0 ∧
    small.pending = none ∧ (pend 0x0B small).turn = .engine 0x0B ∧ (pend 0x100 small).turn = .engine 0x100 := by
  decide

/-- The shortest and the longest code. -/
theorem witness_BitOrderOfCodesAndStreams :
    Code.Legal ⟨1, 1⟩ ∧ Code.Legal ⟨255, BitVec.ofNat 256 (2 ^ 255 - 1)⟩ := by
  unfold Code.Legal
  decide

theorem witness_StepRunsDecodedCommand :
    (pend 0x09 small).pending = some 0x09 ∧ (pend 0x09 small).inputs = [] ∧ decode 0x09 = .ok .encode ∧
    ({ pend 0x0A small with inputs := [.wait], sched := [.engine] } : State).sched.head? ≠ some .host ∧
    decode 0x0A = .ok .decode := by
  refine ⟨rfl, rfl, by decide, by decide, by decide⟩

theorem witness_StepRunsHostStep :
    ({ small with inputs := [.wait, .reset] } : State).inputs = .wait :: [.reset] ∧ small.pending = none ∧
    (pend 0x09 small).pending = some 0x09 ∧
    ({ pend 0x09 small with inputs := [.reset], sched := [.host] } : State).sched = .host :: [] ∧
    small.inputs = [] := ⟨rfl, rfl, rfl, rfl, rfl⟩

theorem witness_CmdWriteIssuesCommand :
    ({ small with inputs := [wrInput params .cmd 0x0B] } : State).inputs = wrInput small.cfg .cmd 0x0B :: [] ∧
    small.pending = none := ⟨rfl, rfl⟩

/-- A command that completes without an error, and one that records one. -/
theorem witness_CommandsCompleteAndRecordErrors :
    (∃ t, exec .nop (pend 0x00 small) = .next t ∧ t.err = false) ∧
    ∃ t, exec .decode (pend 0x0A small) = .next t ∧ t.err = true :=
  ⟨next_of _ (by decide), next_of _ (by decide)⟩

theorem witness_EngineEventuallyMoves :
    ({ pend 0x00 small with inputs := [.wait], sched := [.host] } : State).busy = true ∧
    ∃ t, core.run 2 ({ pend 0x00 small with inputs := [.wait], sched := [.host] } : State) = .next t ∧
      t.busy = false := by
  refine ⟨by decide, next_of (fun t : State => t.busy = false) ?_⟩
  decide

/-- Reset asserted while idle, and while a command is pending. -/
theorem witness_ResetGivesResetValues :
    (({ small with inputs := [.reset] } : State).inputs = .reset :: [] ∧ small.pending = none) ∧
    ({ pend 0x09 small with inputs := [.reset], sched := [.host] } : State).sched.head? = some .host :=
  ⟨⟨rfl, rfl⟩, rfl⟩

/-- One access about to be taken, while idle and while a command is pending. -/
def withAccess (a : Access) : State := { small with inputs := [.access a] }
def withBusyAccess (a : Access) : State := { pend 0x09 small with inputs := [.access a], sched := [.host] }

/-- An access is the next input and is taken; the first and the last offset of the window, the nearest addresses
outside it, and one of each refused shape. -/
theorem witness_OnlyWordAccessesInWindow :
    (∀ a, (withAccess a).inputs = .access a :: [] ∧ (withAccess a).pending = none ∧
      (withBusyAccess a).inputs = .access a :: [] ∧ (withBusyAccess a).sched.head? = some .host) ∧
    small.cfg.base = 0x700 ∧ (0x700 - 0x700) % 4 = 0 ∧ (0x7FC - 0x700) % 4 = 0 ∧ 0x7FC < small.cfg.base + 256 ∧
    0x6FF < small.cfg.base ∧ small.cfg.base + 256 ≤ 0x800 ∧ 0x7FF < small.cfg.base + 256 ∧ (0x7FF - 0x700) % 4 ≠ 0 :=
  ⟨fun _ => ⟨rfl, rfl, rfl, rfl⟩, by decide⟩

/-- The reserved offsets run from 0x7C to 0xFC. -/
theorem witness_IdleReadsAndWrites : small.pending = none ∧ regAt 0x7C = none ∧ regAt 0xFC = none ∧
    regAt 0x78 ≠ none ∧ small.lock = false ∧ ({ small with lock := true } : State).lock = true := by
  decide

/-- The last byte inside IBUF and the first address beyond it. -/
theorem witness_DataPortsMoveOneByte : small.pending = none ∧ 3 < small.cfg.ibufBytes ∧ ¬ 4 < small.cfg.ibufBytes := by
  decide

theorem witness_Busy : (pend 0x09 small).busy = true := by decide

theorem witness_BusyHostStepsKeepOperands :
    let s : State := { pend 0x09 small with inputs := [wrInput params .inLen 5], sched := [.host] }
    s.busy = true ∧ s.turn = .host (wrInput params .inLen 5) [] ∧ wrInput params .inLen 5 ≠ .reset ∧
      ∃ t, step s = .next t ∧ t.ovr = true := by
  refine ⟨by decide, rfl, by decide, next_of _ ?_⟩
  decide

theorem witness_IrqRisesAtCompletion :
    (∃ t, exec .decode (pend 0x0A { small with irqEn := true }) = .next t ∧ t.irq = true) ∧
    ∃ t, illegalCommand 0x0B (pend 0x0B small) = .next t ∧ t.irq = false :=
  ⟨next_of _ (by decide), next_of _ (by decide)⟩

/-- Locked and unlocked; with and without a code length; an input for the ENCODE clause. -/
theorem witness_TableCommands : small.lock = false ∧ ({ small with lock := true } : State).lock = true ∧
    small.codeLen = 0 ∧ ({ small with codeLen := 255 } : State).codeLen ≠ 0 ∧
    (0 < ({ small with inLen := 4 } : State).inLen.toNat ∧
      ({ small with inLen := 4 } : State).inLen.toNat ≤ small.cfg.ibufBytes) ∧
    small.ctAt small.sym = none ∧ (treeD9 0 []).ctAt 0x61 = some ⟨1, 0⟩ := by
  refine ⟨rfl, rfl, rfl, by decide, by decide, by decide, by decide⟩

/-- NIL, the first slot and the last one. -/
theorem witness_TreeCommands : small.lock = false ∧ ({ small with lock := true } : State).lock = true ∧
    (treeD9 0 []).root ≠ 0x1FF ∧ ({ small with nodeIdx := 0x1FF } : State).nodeIdx = 0x1FF ∧
    small.nodeIdx.toNat = (0 : Slot).val ∧ ({ small with nodeIdx := 510 } : State).nodeIdx.toNat = (510 : Slot).val := by
  refine ⟨rfl, rfl, by decide, rfl, rfl, rfl⟩

theorem witness_LockedCommandsChangeNothing : ({ small with lock := true } : State).lock = true ∧
    Instr.tableClear ∈ [Instr.tableClear, .tableWr, .treeClear, .nodeWr, .assign, .build] ∧
    Instr.build ∈ [Instr.tableClear, .tableWr, .treeClear, .nodeWr, .assign, .build] := by
  refine ⟨rfl, by decide, by decide⟩

theorem witness_AssignCompletes : small.lock = false ∧ treeA2.lock = false := ⟨rfl, rfl⟩

/-- NIL as the root, and an unused root. -/
theorem witness_AssignRootErrors : small.lock = false ∧ small.root = 0x1FF ∧
    ({ small with root := 7 } : State).root.toNat = (7 : Slot).val ∧
    (({ small with root := 7 } : State).tmAt 7).getLsbD 31 = false := by
  refine ⟨rfl, rfl, rfl, by decide⟩

/-- A3: a lone leaf at slot 5. -/
theorem witness_AssignLoneLeafGetsZero :
    let s := withNodes [(5, 0xC0000041)] { small with root := 5 }
    s.lock = false ∧ s.root.toNat = (5 : Slot).val ∧ (s.tmAt 5).getLsbD 31 = true ∧ (s.tmAt 5).getLsbD 30 = true := by
  refine ⟨rfl, rfl, by decide, by decide⟩

/-- A2: a successful ASSIGN with three symbols. -/
theorem witness_AssignSucceeds : treeA2.lock = false ∧
    ∃ t, exec .assign treeA2 = .next t ∧ t.sync = true ∧ 2 ≤ t.symCount.toNat :=
  ⟨rfl, next_of (fun t : State => t.sync = true ∧ 2 ≤ t.symCount.toNat) (by decide)⟩

theorem tableLegal_of {s : State} (h : ∀ e ∈ s.validEntries, 1 ≤ e.2.len.toNat ∧ e.2.val.toNat < 2 ^ e.2.len.toNat) :
    s.TableLegal := fun a c hc => h (a, c) ((s.mem_validEntries a c).2 hc)

/-- The table T3, and a table that is not prefix-free (B4). -/
def table (codes : List (Byte × Code)) : State := withCodes codes small

theorem table_entries : (table tableT3).validEntries = tableT3 := by decide

theorem conflict_entries :
    (table [(0x10, ⟨2, 1⟩), (0x20, ⟨1, 0⟩)]).validEntries = [(0x10, ⟨2, 1⟩), (0x20, ⟨1, 0⟩)] := by decide

theorem witness_table : (table tableT3).lock = false ∧ (table tableT3).TableLegal ∧ (table tableT3).CountsTable ∧
    (table tableT3).symCount ≠ 0 ∧ (table tableT3).PrefixFree := by
  refine ⟨rfl, tableLegal_of ?_, ?_, by decide, ?_⟩
  · rw [table_entries]
    decide
  · unfold State.CountsTable
    rw [table_entries]
    decide
  · intro a b ca cb hab ha hb
    rw [← State.mem_validEntries, table_entries] at ha hb
    exact (by decide : ∀ x ∈ tableT3, ∀ y ∈ tableT3, x.1 ≠ y.1 → ¬ x.2.bits <+: y.2.bits) _ ha _ hb hab

/-- B2: BUILD succeeds, and ASSIGN after it. -/
theorem witness_BuildSucceeds : (table tableT3).lock = false ∧ (table tableT3).TableLegal ∧
    (table tableT3).CountsTable ∧ ∃ t, exec .build (table tableT3) = .next t ∧ t.sync = true :=
  ⟨rfl, witness_table.2.1, witness_table.2.2.1, next_of _ (by decide)⟩

/-- B4: BUILD raises PREFIX_CONFLICT. -/
theorem witness_BuildChecksPrefixFreeness :
    let s := table [(0x10, ⟨2, 1⟩), (0x20, ⟨1, 0⟩)]
    s.lock = false ∧ s.TableLegal ∧ s.CountsTable ∧
      ∃ t, exec .build s = .next t ∧ t.sync = false ∧ t.errCode = 9 := by
  refine ⟨rfl, tableLegal_of ?_, ?_, next_of (fun t : State => t.sync = false ∧ t.errCode = 9) (by decide)⟩
  · rw [conflict_entries]
    decide
  · unfold State.CountsTable
    rw [conflict_entries]
    decide

/-- B7, the four codes of 43_code_table.md R228: 255 zeros, 254 zeros and a 1, 254 ones and a 0, 255 ones. -/
def codesB7 : List (Byte × Code) :=
  [(0, ⟨255, 0⟩), (1, ⟨255, 1⟩), (2, ⟨255, BitVec.ofNat 256 (2 ^ 255 - 2)⟩), (3, ⟨255, BitVec.ofNat 256 (2 ^ 255 - 1)⟩)]

theorem b7_entries : (table codesB7).validEntries = codesB7 := by decide

theorem b7_bits : codesB7.map (·.2.bits) =
    [List.replicate 255 false, List.replicate 254 false ++ [true], List.replicate 254 true ++ [false],
      List.replicate 255 true] := by decide

theorem b7_ctAt {i : Byte} {c : Code} (h : (i, c) ∈ codesB7) : (table codesB7).ctAt i = some c :=
  ((table codesB7).mem_validEntries i c).1 (b7_entries ▸ h)

/-- 512 distinct beginnings of B7's codes: 0 to 255 zeros, 1 to 255 ones, and the second code. -/
def beginning (n : Nat) : List Bool :=
  if n < 256 then List.replicate n false
  else if n < 511 then List.replicate (n - 255) true
  else List.replicate 254 false ++ [true]

theorem beginning_injOn : Set.InjOn beginning (Finset.range 512) := by
  have key : ∀ n, n < 512 → ((beginning n).length, (beginning n).count true) =
      if n < 256 then (n, 0) else if n < 511 then (n - 255, n - 255) else (255, 1) := by
    intro n hn
    unfold beginning
    split
    · simp only [List.length_replicate, List.count_replicate, beq_iff_eq, reduceCtorEq, if_false]
    · split <;>
        simp only [List.length_replicate, List.count_replicate, List.length_append, List.count_append,
          List.length_singleton, List.count_singleton, beq_iff_eq, reduceCtorEq, if_false, if_true, BEq.rfl,
          Nat.zero_add]
  intro m hm n hn h
  simp only [Finset.coe_range, Set.mem_Iio] at hm hn
  have := (key m hm).symm.trans ((congrArg (fun p : List Bool => (p.length, p.count true)) h).trans (key n hn))
  split at this <;> split at this <;> (try split at this) <;> (try split at this) <;>
    simp only [Prod.mk.injEq] at this <;> omega

theorem replicate_prefix {m n : Nat} {b : Bool} (h : m ≤ n) : List.replicate m b <+: List.replicate n b :=
  ⟨List.replicate (n - m) b, by rw [List.replicate_append_replicate, Nat.add_sub_cancel' h]⟩

/-- B7's trie needs more than 511 slots, and B7 meets the premises of BuildSucceedsUpTo511Nodes. -/
theorem witness_BuildOverflows : (table codesB7).lock = false ∧ (table codesB7).TableLegal ∧
    (table codesB7).CountsTable ∧ (table codesB7).symCount ≠ 0 ∧ (table codesB7).PrefixFree ∧
    ¬ {p : List Bool | ∃ a c, (table codesB7).ctAt a = some c ∧ p <+: c.bits}.ncard ≤ 511 := by
  refine ⟨rfl, tableLegal_of ?_, ?_, by decide, ?_, ?_⟩
  · rw [b7_entries]
    decide
  · unfold State.CountsTable
    rw [b7_entries]
    decide
  · intro a b ca cb hab ha hb
    rw [← State.mem_validEntries, b7_entries] at ha hb
    exact (by decide : ∀ x ∈ codesB7, ∀ y ∈ codesB7, x.1 ≠ y.1 → ¬ x.2.bits <+: y.2.bits) _ ha _ hb hab
  · have hb := b7_bits
    simp only [codesB7, List.map_cons, List.map_nil, List.cons.injEq, and_true] at hb
    obtain ⟨h0, h1, -, h3⟩ := hb
    have hfin : {p : List Bool | ∃ a c, (table codesB7).ctAt a = some c ∧ p <+: c.bits}.Finite := by
      refine (List.finite_length_le Bool 255).subset ?_
      rintro p ⟨a, c, -, hp⟩
      have := hp.length_le
      have := c.len.isLt
      simp only [Code.length_bits] at *
      change p.length ≤ 255
      omega
    have hsub : ((Finset.range 512).image beginning : Set (List Bool)) ⊆
        {p : List Bool | ∃ a c, (table codesB7).ctAt a = some c ∧ p <+: c.bits} := by
      intro p hp
      simp only [Finset.coe_image, Finset.coe_range, Set.mem_image, Set.mem_Iio] at hp
      obtain ⟨n, hn, rfl⟩ := hp
      unfold beginning
      split
      · refine ⟨0, _, b7_ctAt (.head _), ?_⟩
        rw [h0]
        exact replicate_prefix (by omega)
      · split
        · refine ⟨3, _, b7_ctAt (.tail _ (.tail _ (.tail _ (.head _)))), ?_⟩
          rw [h3]
          exact replicate_prefix (by omega)
        · refine ⟨1, _, b7_ctAt (.tail _ (.head _)), ?_⟩
          rw [h1]
    have := Set.ncard_le_ncard hsub hfin
    rw [Set.ncard_coe_finset, Finset.card_image_of_injOn beginning_injOn, Finset.card_range] at this
    omega

/-- IN_LEN and BIT_LEN one too large for four bytes. -/
theorem witness_StreamCommandsCheckOperands :
    small.cfg.ibufBytes < ({ small with inLen := 5 } : State).inLen.toNat ∧ small.sync = false ∧
    (treeD9 33 []).sync = true ∧ (treeD9 33 []).cfg.ibufBytes < ((treeD9 33 []).bitLen.toNat + 7) / 8 := by
  refine ⟨by decide, rfl, rfl, by decide⟩

/-- Input "aab" with an unknown last symbol: "ab" has codes, 0x7A has none. -/
theorem witness_EncodeUnknownSymbolLeavesPrefix :
    let s : State := { treeD9 0 (cells [0x61, 0x62, 0x7A]) with inLen := 3 }
    s.inLen.toNat ≤ s.cfg.ibufBytes ∧ 2 < s.inLen.toNat ∧ (∀ j, j < 2 → s.ctAt (s.bufByte .ibuf j) ≠ none) ∧
      s.ctAt (s.bufByte .ibuf 2) = none ∧ (s.codeBits (s.inputSyms.take 2)).length / 8 ≤ s.cfg.obufBytes := by
  refine ⟨by decide, by decide, ?_, by decide, by decide⟩
  intro j hj
  interval_cases j <;> decide

/-- Codes of seven bits and OBUF_BYTES = 2: the fourth symbol's code completes byte 2; three symbols leave five bits in
it. -/
def wide (n : Word) : State :=
  withCodes [(0x41, ⟨7, 0⟩)] { small with inLen := n, ibuf := cells [0x41, 0x41, 0x41, 0x41] }

theorem witness_EncodeOverflowFillsBuffer :
    ((wide 4).inLen.toNat ≤ (wide 4).cfg.ibufBytes ∧ 3 ≤ (wide 4).inLen.toNat ∧
      (∀ j, j < 4 → j < (wide 4).inLen.toNat → (wide 4).ctAt ((wide 4).bufByte .ibuf j) ≠ none) ∧
      ((wide 4).codeBits ((wide 4).inputSyms.take 3)).length < 8 * ((wide 4).cfg.obufBytes + 1) ∧
      3 < (wide 4).inLen.toNat ∧
      8 * ((wide 4).cfg.obufBytes + 1) ≤ ((wide 4).codeBits ((wide 4).inputSyms.take 4)).length) ∧
    (wide 3).inLen.toNat ≤ (wide 3).cfg.ibufBytes ∧ 3 = (wide 3).inLen.toNat ∧
      (∀ j, j < 4 → j < (wide 3).inLen.toNat → (wide 3).ctAt ((wide 3).bufByte .ibuf j) ≠ none) ∧
      ((wide 3).codeBits ((wide 3).inputSyms.take 3)).length < 8 * ((wide 3).cfg.obufBytes + 1) ∧
      8 * (wide 3).cfg.obufBytes < ((wide 3).codeBits ((wide 3).inputSyms.take 3)).length := by
  refine ⟨⟨by decide, by decide, ?_, by decide, by decide, by decide⟩, by decide, by decide, ?_, by decide, by decide⟩
  all_goals
    intro j hj _
    interval_cases j <;> decide

/-- D8: a lone code of three bits; BIT_LEN = 6, 7 and 9 for the three outcomes (OBUF_BYTES = 2). -/
theorem witness_DecodeSingleSymbolCopies :
    let s : State := { withCodes [(0x41, ⟨3, 5⟩)] small with sync := true, bitLen := 7 }
    s.sync = true ∧ (s.bitLen.toNat + 7) / 8 ≤ s.cfg.ibufBytes ∧ s.symCount = 1 ∧
      s.validEntries = [(0x41, ⟨3, 5⟩)] ∧ (⟨3, 5⟩ : Code).len ≠ 0 ∧ 6 % 3 = 0 ∧ 7 % 3 ≠ 0 ∧ s.cfg.obufBytes < 9 / 3 := by
  refine ⟨rfl, by decide, rfl, by decide, by decide, rfl, by decide, by decide⟩

theorem cells_wf (b : Byte) : (cells [b]).wf 4 := by simp [cells, Memory.wf]

/-- The tree D9 on the stream 0011: all symbols whole (two bits), a residual that begins a code (three bits), and one
that begins none (four bits). -/
theorem witness_DecodeMatchesStringMatching :
    (∀ n : Word, (treeD9 n (cells [0x30])).Inv ∧ (treeD9 n (cells [0x30])).TreeMatches ∧
      (treeD9 n (cells [0x30])).sync = true ∧ 2 ≤ (treeD9 n (cells [0x30])).symCount.toNat) ∧
    ((treeD9 4 (cells [0x30])).bitLen.toNat + 7) / 8 ≤ (treeD9 4 (cells [0x30])).cfg.ibufBytes ∧
    (treeD9 2 (cells [0x30])).matchStream [] ((treeD9 2 (cells [0x30])).streamBits 2) = ([0x61, 0x61], []) ∧
    (treeD9 3 (cells [0x30])).matchStream [] ((treeD9 3 (cells [0x30])).streamBits 3) = ([0x61, 0x61], [true]) ∧
    (treeD9 4 (cells [0x30])).matchStream [] ((treeD9 4 (cells [0x30])).streamBits 4) = ([0x61, 0x61], [true, true]) ∧
    (treeD9 3 (cells [0x30])).reach [true] = some 2 ∧ (treeD9 4 (cells [0x30])).reach [true, true] = none := by
  refine ⟨fun n => ⟨treeD9_inv n _ (cells_wf _), treeD9_matches n _, rfl, ?_⟩, by decide, by decide, by decide,
    by decide, by rw [treeD9_reach]; rfl, by rw [treeD9_reach]; rfl⟩
  exact (by decide : 2 ≤ (treeD9 0 []).symCount.toNat)

/-- Three symbols for two bytes of OBUF. -/
theorem witness_DecodeOverflowFillsBuffer :
    (treeD9 3 (cells [0x00])).Inv ∧ (treeD9 3 (cells [0x00])).TreeMatches ∧
    (treeD9 3 (cells [0x00])).matchStream [] ((treeD9 3 (cells [0x00])).streamBits 3) = ([0x61, 0x61, 0x61], []) ∧
    (treeD9 3 (cells [0x00])).cfg.obufBytes < [0x61, 0x61, 0x61].length :=
  ⟨treeD9_inv 3 _ (cells_wf _), treeD9_matches 3 _, by decide, by decide⟩

theorem witness_DecodeResidualErrorOnTightTree :
    (treeD9 3 (cells [0x30])).TreeTight ∧ (∃ t, exec .decode (treeD9 3 (cells [0x30])) = .next t ∧ t.errCode = 13) ∧
    (treeD9 4 (cells [0x30])).TreeTight ∧ ∃ t, exec .decode (treeD9 4 (cells [0x30])) = .next t ∧ t.errCode = 12 :=
  ⟨treeD9_tight _ _, next_of _ (by decide), treeD9_tight _ _, next_of _ (by decide)⟩

/-- "ab" packs to 010, one byte 0x40, BIT_LEN = 3. -/
theorem witness_DecodeInvertsEncode :
    let s : State := { treeD9 0 (cells [0x61, 0x62]) with inLen := 2 }
    let u : State := treeD9 3 (cells [0x40])
    s.err = false ∧ (∃ t, exec .encode s = .next t ∧ t.err = false ∧ u.bitLen = t.bitLen ∧
        (t.bitLen.toNat + 7) / 8 ≤ s.cfg.ibufBytes ∧ (t.bitLen.toNat + 7) / 8 = 1 ∧
        u.bufByte .ibuf 0 = t.bufByte .obuf 0) ∧
      u.cfg = s.cfg ∧ u.ct = s.ct ∧ u.Inv ∧ u.sync = true ∧ u.TreeMatches ∧ s.inLen.toNat ≤ s.cfg.obufBytes := by
  refine ⟨rfl, next_of (fun t : State => t.err = false ∧ (treeD9 3 (cells [0x40])).bitLen = t.bitLen ∧
    (t.bitLen.toNat + 7) / 8 ≤ 4 ∧ (t.bitLen.toNat + 7) / 8 = 1 ∧
    (treeD9 3 (cells [0x40])).bufByte .ibuf 0 = t.bufByte .obuf 0) (by decide), rfl, rfl,
    treeD9_inv 3 _ (cells_wf _), rfl, treeD9_matches 3 _, by decide⟩

/-- The frames: a table command, a tree command and a streaming command that answer a next state. -/
theorem witness_Frames : (∃ t, exec .tableWr { small with codeLen := 1 } = .next t ∧ t.symCount = 1) ∧
    (∃ t, exec .nodeRd small = .next t ∧ t.nodeData = 0) ∧
    ∃ t, exec .encode { treeD9 0 (cells [0x61, 0x62]) with inLen := 2 } = .next t ∧ t.outLen = 1 :=
  ⟨next_of _ (by decide), next_of _ (by decide), next_of _ (by decide)⟩

/-- A NODE_WR pending while locked, and a write of ROOT while locked. -/
def lockedNodeWr : State := pend 0x05 { small with lock := true }
def lockedRootWr : State := { small with lock := true, inputs := [wrInput params .root 7] }

theorem witness_LockMakesTablesReadOnly :
    (lockedNodeWr.lock = true ∧ (∀ rest, lockedNodeWr.turn ≠ .host .reset rest) ∧
      ∃ t, step lockedNodeWr = .next t ∧ t.err = true) ∧
    lockedRootWr.lock = true ∧ (∀ rest, lockedRootWr.turn ≠ .host .reset rest) ∧
      ∃ t, step lockedRootWr = .next t ∧ t.root = 0x1FF := by
  have h₁ : lockedNodeWr.turn = .engine 0x05 := rfl
  have h₂ : lockedRootWr.turn = .host (wrInput params .root 7) [] := rfl
  refine ⟨⟨rfl, fun rest h => ?_, next_of _ (by decide)⟩, rfl, fun rest h => ?_, next_of _ (by decide)⟩
  · rw [h₁] at h
    cases h
  · rw [h₂] at h
    cases h

/-- SYNC rises at ASSIGN; it falls at NODE_WR, at an effective write of ROOT (H22), and at reset. -/
theorem witness_OnlyListedEventsChangeSync :
    (∃ t, step (pend 0x07 treeA2) = .next t ∧ treeA2.sync = false ∧ t.sync = true) ∧
    (∃ t, step (pend 0x05 (treeD9 0 [])) = .next t ∧ t.sync = false) ∧
    (∃ t, step { treeD9 0 [] with inputs := [wrInput params .root 0] } = .next t ∧ t.sync = false) ∧
    (∃ t, step { treeD9 0 [] with inputs := [.reset] } = .next t ∧ t.sync = false) ∧ (treeD9 0 []).sync = true :=
  ⟨next_of (fun t : State => treeA2.sync = false ∧ t.sync = true) (by decide), next_of _ (by decide),
    next_of _ (by decide), next_of _ (by decide), rfl⟩

/-- OVR rises at a dropped write (H13) and falls at a write of STATUS (H14) and at reset. -/
theorem witness_OnlyDroppedWritesSetOvr :
    (∃ t, step { pend 0x00 small with inputs := [wrInput params .inLen 5], sched := [.host] } = .next t ∧
      t.ovr = true) ∧
    (∃ t, step { small with ovr := true, inputs := [wrInput params .status 0x8] } = .next t ∧ t.ovr = false) ∧
    ∃ t, step { small with ovr := true, inputs := [.reset] } = .next t ∧ t.ovr = false :=
  ⟨next_of _ (by decide), next_of _ (by decide), next_of _ (by decide)⟩

theorem witness_ParametersAreFixed : ∃ t, step { small with inputs := [.reset] } = .next t ∧ t.cfg = params :=
  next_of _ (by decide)

/-- The invariants hold of a state in which DECODE is pending and steps to a next state. -/
theorem witness_Invariants : (pend 0x0A (treeD9 4 (cells [0x30]))).Inv ∧ (pend 0x0A (treeD9 4 (cells [0x30]))).SyncSound ∧
    ∃ t, step (pend 0x0A (treeD9 4 (cells [0x30]))) = .next t ∧ t.sync = true := by
  have h := treeD9_inv 4 _ (cells_wf 0x30)
  have m := treeD9_matches 4 (cells [0x30])
  exact ⟨⟨h.buffers, h.legal, h.counts, h.masked, fun _ => ⟨rfl, rfl, rfl, rfl⟩, h.recorded, h.outLen, h.nodeCount,
    h.rooted⟩, fun _ => ⟨m.rooted, m.used, m.leafCode, m.codeLeaf⟩, next_of _ (by decide)⟩

end Sys2Proof.Tests
end

/-! PROOFS. The family 00_scope.md: node words, the bit order of codes and streams, whose step it is, and the
parameters. -/

namespace Sys2Proof.Machine

/-! ### Node words -/

/-- A slot number as a 32-bit word is its 9-bit index, widened. -/
theorem setWidth_indexOf (n : Slot) : (indexOf n).setWidth 32 = BitVec.ofNat 32 n.val := by
  have hn := n.isLt
  apply BitVec.eq_of_toNat_eq
  simp only [indexOf, BitVec.toNat_setWidth, BitVec.toNat_ofNat]
  omega

/-- Both children linked to the empty internal word give USED, RIGHT and LEFT side by side (30_encoding.md R114). -/
theorem linkWord_linkWord_emptyInternal (l r : Slot) :
    linkWord (linkWord emptyInternal false l) true r =
      0x80000000 ||| (BitVec.ofNat 32 r.val <<< 16) ||| BitVec.ofNat 32 l.val := by
  rw [← setWidth_indexOf, ← setWidth_indexOf]
  apply BitVec.eq_of_getLsbD_eq
  intro i hi
  simp only [linkWord_getLsbD _ _ _ i hi, BitVec.getLsbD_or, BitVec.getLsbD_shiftLeft, BitVec.getLsbD_setWidth]
  interval_cases i <;> simp [emptyInternal]

/-- Settles O4: the fields and the leaf word are the model's definitions; the internal word is what two links make. -/
theorem nodeWordFields : Obligations.NodeWordFields :=
  ⟨fun _ => ⟨rfl, rfl, rfl, rfl, rfl⟩, fun _ => rfl, linkWord_linkWord_emptyInternal⟩

/-! ### Codes as binary numbers -/

@[simp] theorem bitsValue_nil : bitsValue [] = 0 := rfl

/-- One more bit at the end doubles the value and adds the bit. -/
theorem bitsValue_concat (bs : List Bool) (b : Bool) : bitsValue (bs ++ [b]) = 2 * bitsValue bs + b.toNat := by
  simp [bitsValue]

/-- The lowest `n` bits of a number, highest first, have the number modulo 2^n as their value. -/
theorem bitsValue_testBits (n v : Nat) :
    bitsValue ((List.range n).map fun i => v.testBit (n - 1 - i)) = v % 2 ^ n := by
  induction n generalizing v with
  | zero => simp [Nat.mod_one]
  | succ n ih =>
    have high : ((List.range n).map fun i => v.testBit (n + 1 - 1 - i)) =
        (List.range n).map fun i => (v / 2).testBit (n - 1 - i) := by
      refine List.map_congr_left fun i hi => ?_
      have hidx : n + 1 - 1 - i = n - 1 - i + 1 := by
        have := List.mem_range.1 hi
        omega
      rw [hidx, Nat.testBit_succ]
    have low : (v.testBit (n + 1 - 1 - n)).toNat = v % 2 := by
      rw [Nat.toNat_testBit, Nat.add_sub_cancel, Nat.sub_self, pow_zero, Nat.div_one]
    rw [List.range_succ, List.map_append, high, List.map_singleton, bitsValue_concat, ih, low, Nat.pow_succ',
      Nat.mod_mul, Nat.add_comm]

/-- A legal code's bits, read as a binary number, give V (00_scope.md R10). -/
theorem Code.Legal.bitsValue_bits {c : Code} (h : c.Legal) : bitsValue c.bits = c.val.toNat :=
  (bitsValue_testBits c.len.toNat c.val.toNat).trans (Nat.mod_eq_of_lt h.2)

/-- Bit `i` of a code of L bits is V[L-1-i] (00_scope.md R10). -/
theorem Code.getD_bits (c : Code) {i : Nat} (hi : i < c.len.toNat) :
    c.bits.getD i false = c.val.getLsbD (c.len.toNat - 1 - i) := by
  have hi' : i < c.bits.length := by simpa using hi
  rw [List.getD_eq_getElem _ _ hi', c.getElem_bits i hi']

/-- Settles O5: the value by `bitsValue_testBits`; the stream's bit order is the model's `bitInByte`. -/
theorem bitOrderOfCodesAndStreams : Obligations.BitOrderOfCodesAndStreams :=
  ⟨fun c h => ⟨c.length_bits, h.bitsValue_bits, fun _ hi => c.getD_bits hi⟩, fun _ _ => rfl⟩

/-! ### Whose step it is -/

theorem step_of_turn_idle {s : State} (h : s.turn = .idle) : step s = .next s := by simp [step, h]

theorem step_of_turn_host {s : State} {i : Input} {rest : List Input} (h : s.turn = .host i rest) :
    step s = hostStep i rest s.tick := by simp [step, h]

/-- Settles O7: whose turn it is by `State.turn_host` and `State.turn_idle`, what the scheduler loses by
`State.tick`. -/
theorem stepRunsHostStep : Obligations.StepRunsHostStep := by
  refine ⟨fun s i rest hin hp => ?idle, fun s w i rest sched hin hp hs => ?busy, fun s hin hp => ?nothing⟩
  case idle =>
    rw [step_of_turn_host (State.turn_host.2 ⟨hin, .inl hp⟩), State.tick_of_idle (by simp [State.busy, hp])]
  case busy =>
    rw [step_of_turn_host (State.turn_host.2 ⟨hin, .inr (by simp [hs])⟩),
      State.tick_of_busy (by simp [State.busy, hp]), hs, List.tail_cons]
  case nothing => exact step_of_turn_idle (State.turn_idle.2 ⟨hp, hin⟩)

/-! ### The parameters -/

theorem TableOnly.cfg {s t : State} (h : TableOnly s t) : t.cfg = s.cfg := by rw [h]
theorem TreeOnly.cfg {s t : State} (h : TreeOnly s t) : t.cfg = s.cfg := by rw [h]
theorem Emitted.cfg {s t : State} (h : Emitted s t) : t.cfg = s.cfg := h.1.cfg

/-- Completion keeps the parameters where every state the command leaves has them. -/
theorem complete_keeps_cfg {s t : State} {r : CmdResult Unit} (hr : r.All fun u => u.cfg = s.cfg)
    (h : complete r = .next t) : t.cfg = s.cfg := by
  obtain ⟨u, hu, rfl | ⟨c, info, rfl⟩⟩ := hr.complete h
  · exact hu
  · exact hu

theorem tableWrite_keeps_cfg (s : State) : (tableWrite s).All fun u => u.cfg = s.cfg := by
  unfold tableWrite
  split <;> simp

theorem nodeWrite_keeps_cfg (s : State) : (nodeWrite s).All fun u => u.cfg = s.cfg := by
  unfold nodeWrite
  split <;> simp

theorem nodeRead_keeps_cfg (s : State) : (nodeRead s).All fun u => u.cfg = s.cfg := by
  unfold nodeRead
  split <;> simp

/-- A stream command that leaves its state alone, or only emits from a start state, keeps the parameters. -/
theorem keeps_cfg_of_emitted {s start : State} {r : CmdResult Unit} (hstart : start.cfg = s.cfg)
    (hr : r.All fun u => u = s ∨ Emitted start u) : r.All fun u => u.cfg = s.cfg := by
  refine hr.imp fun u h => ?_
  obtain rfl | h := h
  · rfl
  · exact h.cfg.trans hstart

/-- No command changes the parameters. -/
theorem exec_keeps_cfg {i : Instr} {s t : State} (h : exec i s = .next t) : t.cfg = s.cfg := by
  cases i with
  | nop => exact complete_keeps_cfg (r := .ok () s) rfl h
  | tableClear => exact complete_keeps_cfg (ifUnlocked_all rfl (by simp)) h
  | tableWr => exact complete_keeps_cfg (ifUnlocked_all rfl (tableWrite_keeps_cfg s)) h
  | tableRd => exact complete_keeps_cfg (r := .ok () (s.readEntry (s.ctAt s.sym))) (s.readEntry_cfg _) h
  | treeClear => exact complete_keeps_cfg (ifUnlocked_all rfl (by simp)) h
  | nodeWr => exact complete_keeps_cfg (ifUnlocked_all rfl (nodeWrite_keeps_cfg s)) h
  | nodeRd => exact complete_keeps_cfg (nodeRead_keeps_cfg s) h
  | assign => exact complete_keeps_cfg (ifUnlocked_all rfl ((assignCodes_tableOnly s).imp fun _ => TableOnly.cfg)) h
  | build => exact complete_keeps_cfg (ifUnlocked_all rfl ((buildTree_treeOnly s).imp fun _ => TreeOnly.cfg)) h
  | encode => exact complete_keeps_cfg (keeps_cfg_of_emitted s.encodeStart_cfg (encodeStream_frame s)) h
  | decode => exact complete_keeps_cfg (keeps_cfg_of_emitted s.decodeStart_cfg (decodeStream_frame s)) h

@[simp] theorem portRead_cfg (b : Buf) (s : State) : (portRead b s).2.cfg = s.cfg := by simp [portRead]

@[simp] theorem portWrite_cfg (b : Buf) (v : Byte) (s : State) : (portWrite b v s).cfg = s.cfg := by
  simp only [portWrite, State.setBufAddr_cfg]
  split
  · exact s.writeBuf_cfg _ _ _
  · rfl

@[simp] theorem hostRead_cfg (off : Nat) (s : State) : (hostRead off s).2.cfg = s.cfg := by
  unfold hostRead
  split
  · unfold readBusy
    split <;> rfl
  · unfold readIdle
    split
    · rfl
    · exact portRead_cfg _ s
    · rfl

@[simp] theorem writeRoot_cfg (d : Word) (s : State) : (writeRoot d s).cfg = s.cfg := by
  unfold writeRoot
  split <;> rfl

@[simp] theorem writeReg_cfg (r : Reg) (d : Word) (s : State) : (writeReg r d s).cfg = s.cfg := by
  cases r with
  | root => exact writeRoot_cfg d s
  | bufAddr b => exact s.setBufAddr_cfg b d
  | bufData b => exact portWrite_cfg b _ s
  | _ => rfl

@[simp] theorem hostWrite_cfg (off : Nat) (d : Word) (s : State) : (hostWrite off d s).cfg = s.cfg := by
  unfold hostWrite
  split
  · unfold writeBusy
    split <;> rfl
  · unfold writeIdle
    split
    · rfl
    · exact writeReg_cfg _ d s

@[simp] theorem accessOffset_cfg (off : Nat) (dir : Dir) (s : State) : (accessOffset off dir s).cfg = s.cfg := by
  cases dir with
  | read => simp [accessOffset]
  | write d => exact hostWrite_cfg off d s

/-- No step of the world outside changes the parameters; reset keeps them (log 13). -/
theorem hostStep_keeps_cfg {i : Input} {rest : List Input} {s t : State} (h : hostStep i rest s = .next t) :
    t.cfg = s.cfg := by
  obtain ⟨a, -, -, rfl⟩ | ⟨-, rfl⟩ | ⟨-, rfl⟩ := hostStep_eq_next.1 h
  · simp
  · simp [hostWait]
  · simp

/-- No step changes the parameters (00_scope.md R4). -/
theorem step_keeps_cfg {s t : State} (h : step s = .next t) : t.cfg = s.cfg := by
  obtain ⟨-, hs⟩ | ⟨w, i, -, -, hs⟩ | ⟨w, e, -, -, hs⟩ | ⟨i, rest, -, hs⟩ := step_cases s
  · cases hs.symm.trans h
    rfl
  · exact (exec_keeps_cfg (hs.symm.trans h)).trans s.tick_cfg
  · cases hs.symm.trans h
    exact s.tick_cfg
  · exact (hostStep_keeps_cfg (hs.symm.trans h)).trans s.tick_cfg

/-- Settles O56: no step changes `cfg`, and the ranges are those of every `Config`. -/
theorem parametersAreFixed : Obligations.ParametersAreFixed := fun _ t h =>
  ⟨step_keeps_cfg h, Nat.mul_mod_right 256 t.cfg.page, t.cfg.ibufBytes_pos, t.cfg.ibufBytes_le, t.cfg.obufBytes_pos,
    t.cfg.obufBytes_le⟩

end Sys2Proof.Machine

/-! PROOFS. The family 10_state.md: paths in a tree, and that the tree decodes the table a successful ASSIGN leaves. -/

namespace Sys2Proof.Machine

/-! ### Paths in a tree -/

@[simp] theorem walkTree_nil (tm : Slot → Word) (n : Slot) : walkTree tm n [] = some n := rfl

/-- A path goes on from an internal slot to one of its children. -/
theorem walkTree_cons {tm : Slot → Word} {n m : Slot} {b : Bool} {p : List Bool} :
    walkTree tm n (b :: p) = some m ↔
      leafNode (tm n) = false ∧ ∃ c, childOf (tm n) b = some c ∧ walkTree tm c p = some m := by
  cases hl : leafNode (tm n) <;> cases hc : childOf (tm n) b <;> simp [walkTree, hl, hc]

theorem walkTree_append {tm : Slot → Word} {n m : Slot} {p q : List Bool} :
    walkTree tm n (p ++ q) = some m ↔ ∃ c, walkTree tm n p = some c ∧ walkTree tm c q = some m := by
  induction p generalizing n with
  | nil => simp
  | cons b p ih =>
    simp only [List.cons_append, walkTree_cons, ih]
    constructor
    · rintro ⟨hl, c, hc, d, hd, hm⟩
      exact ⟨d, ⟨hl, c, hc, hd⟩, hm⟩
    · rintro ⟨d, ⟨hl, c, hc, hd⟩, hm⟩
      exact ⟨hl, c, hc, d, hd, hm⟩

/-- A leaf is the end of every path to it. -/
theorem walkTree_of_leaf {tm : Slot → Word} {n m : Slot} {p : List Bool} (hl : leafNode (tm n) = true) :
    walkTree tm n p = some m ↔ p = [] ∧ m = n := by
  cases p with
  | nil => simp [eq_comm]
  | cons b p => simp [walkTree_cons, hl]

theorem State.reach_of_root {s : State} {r : Slot} (hr : slotOf s.root = some r) (p : List Bool) :
    s.reach p = walkTree s.tmAt r p := by
  simp [State.reach, hr]

/-- The paths from ROOT depend on TM and ROOT only. -/
theorem State.reach_congr {s t : State} (htm : t.tm = s.tm) (hroot : t.root = s.root) : t.reach = s.reach := by
  have htmAt : t.tmAt = s.tmAt := funext fun n => State.tmAt_congr n htm
  simp only [funext_iff, State.reach, hroot, htmAt, implies_true]

/-- Whether the tree decodes the table depends on CT, TM and ROOT only. -/
theorem State.TreeMatches.congr {s t : State} (h : s.TreeMatches) (hct : t.ct = s.ct) (htm : t.tm = s.tm)
    (hroot : t.root = s.root) : t.TreeMatches := by
  have hreach := State.reach_congr htm hroot
  have htmAt : t.tmAt = s.tmAt := funext fun n => State.tmAt_congr n htm
  have hctAt : t.ctAt = s.ctAt := funext fun a => State.ctAt_congr a hct
  obtain ⟨rooted, used, leafCode, codeLeaf⟩ := h
  constructor <;> simpa only [State.LeafAt, hroot, hreach, htmAt, hctAt]

/-! ### A visit of ASSIGN's walk and the paths it stands for -/

/-- The path of a visit as a list of branches (41_tree_assign.md R174). -/
def Visit.bits (v : Visit) : List Bool :=
  (List.range v.depth).map fun i => v.path.testBit (v.depth - 1 - i)

/-- The visit that `pushChildren` pushes for the child `c` on branch `b` (41_tree_assign.md R174). -/
def Visit.child (v : Visit) (b : Bool) (c : Slot) : Visit := ⟨c, v.depth + 1, 2 * v.path + b.toNat⟩

theorem Visit.bits_child (v : Visit) (b : Bool) (c : Slot) : (v.child b c).bits = v.bits ++ [b] := by
  have last : (2 * v.path + b.toNat).testBit 0 = b := by cases b <;> simp
  have before : ∀ i ∈ List.range v.depth,
      (2 * v.path + b.toNat).testBit (v.depth - i) = v.path.testBit (v.depth - 1 - i) := by
    intro i hi
    have hidx : v.depth - i = v.depth - 1 - i + 1 := by
      have := List.mem_range.1 hi
      omega
    have hhalf : (2 * v.path + b.toNat) / 2 = v.path := by
      have := b.toNat_lt
      omega
    rw [hidx, Nat.testBit_succ, hhalf]
  simp [Visit.bits, Visit.child, List.range_succ, last, List.map_congr_left before]

theorem mem_pushChildren {w : Word} {u v : Visit} {stack : List Visit} :
    u ∈ pushChildren w v stack ↔ (∃ b c, childOf w b = some c ∧ u = v.child b c) ∨ u ∈ stack := by
  cases hl : childOf w false <;> cases hr : childOf w true <;>
    simp [pushChildren, pushChild, Visit.child, hl, hr, or_assoc]

/-- The code of a leaf at most 255 deep denotes its path (41_tree_assign.md R176, R178). -/
theorem leafCode_bits {v : Visit} (hd : v.depth ≤ 255) : (leafCode v).bits = leafBits v.bits := by
  by_cases h0 : v.depth = 0
  · simp [leafCode, h0, leafBits, Visit.bits]
  · have hlen : (BitVec.ofNat 8 v.depth).toNat = v.depth := by
      rw [BitVec.toNat_ofNat]
      omega
    have hne : v.bits ≠ [] := by simp [Visit.bits, h0]
    rw [leafCode, if_neg h0, leafBits, if_neg hne]
    simp only [Code.bits, codeOfPath, hlen, Visit.bits]
    refine List.map_congr_left fun i _ => ?_
    rw [BitVec.getLsbD_ofNat, decide_eq_true (by omega), Bool.true_and]

/-- Path `q` leads, through visit `v`, to slot `n`. -/
def Visit.Leads (tm : Slot → Word) (v : Visit) (q : List Bool) (n : Slot) : Prop :=
  ∃ p, walkTree tm v.slot p = some n ∧ q = v.bits ++ p

theorem Visit.leads_leaf {tm : Slot → Word} {v : Visit} (hl : leafNode (tm v.slot) = true) {q : List Bool}
    {n : Slot} : v.Leads tm q n ↔ q = v.bits ∧ n = v.slot := by
  simp only [Visit.Leads, walkTree_of_leaf hl]
  constructor
  · rintro ⟨p, ⟨rfl, rfl⟩, rfl⟩
    simp
  · rintro ⟨rfl, rfl⟩
    exact ⟨[], ⟨rfl, rfl⟩, by simp⟩

/-- Through an internal slot a path ends there or leads on through a visit of a child. -/
theorem Visit.leads_internal {tm : Slot → Word} {v : Visit} (hl : leafNode (tm v.slot) = false) {q : List Bool}
    {n : Slot} : v.Leads tm q n ↔
      (q = v.bits ∧ n = v.slot) ∨ ∃ b c, childOf (tm v.slot) b = some c ∧ (v.child b c).Leads tm q n := by
  constructor
  · rintro ⟨p, hp, rfl⟩
    cases p with
    | nil => exact .inl ⟨by simp, by simpa [eq_comm] using hp⟩
    | cons b p =>
      obtain ⟨-, c, hc, hn⟩ := walkTree_cons.1 hp
      exact .inr ⟨b, c, hc, p, hn, by simp [Visit.bits_child]⟩
  · rintro (⟨rfl, rfl⟩ | ⟨b, c, hc, p, hn, rfl⟩)
    · exact ⟨[], rfl, by simp⟩
    · exact ⟨b :: p, walkTree_cons.2 ⟨hl, c, hc, hn⟩, by simp [Visit.bits_child]⟩

/-! ### ASSIGN's walk -/

/-- What the walk does at a leaf whose symbol has no code yet (41_tree_assign.md R174). -/
def State.assignLeaf (s : State) (v : Visit) : State :=
  (s.countNode.setCt (nodeSym (s.tmAt v.slot)) (some (leafCode v))).countSym

/-- Everything one round of the walk can do: an error before the slot is counted; a leaf whose symbol is taken; a new
leaf; an internal node. -/
theorem assignWalk_cons_cases (k : Nat) (visited : List Slot) (v : Visit) (stack : List Visit) (s : State) :
    (∃ c i, assignWalk (k + 1) visited (v :: stack) s = .error c i s) ∨
    (usedNode (s.tmAt v.slot) = true ∧ v.depth ≤ 255 ∧
      ((∃ c i, assignWalk (k + 1) visited (v :: stack) s = .error c i s.countNode) ∨
      (leafNode (s.tmAt v.slot) = true ∧ s.ctAt (nodeSym (s.tmAt v.slot)) = none ∧
        assignWalk (k + 1) visited (v :: stack) s = assignWalk k (v.slot :: visited) stack (s.assignLeaf v)) ∨
      (leafNode (s.tmAt v.slot) = false ∧ assignWalk (k + 1) visited (v :: stack) s =
        assignWalk k (v.slot :: visited) (pushChildren (s.tmAt v.slot) v stack) s.countNode))) := by
  simp only [assignWalk]
  split
  · exact .inl ⟨_, _, rfl⟩
  next hused =>
    split
    · exact .inl ⟨_, _, rfl⟩
    · split
      · exact .inl ⟨_, _, rfl⟩
      next hdepth =>
        refine .inr ⟨by simpa using hused, by omega, ?_⟩
        split
        next hleaf =>
          split
          · exact .inl ⟨_, _, rfl⟩
          next hct => exact .inr (.inl ⟨hleaf, Option.not_isSome_iff_eq_none.1 hct, rfl⟩)
        next hleaf => exact .inr (.inr ⟨by simpa using hleaf, rfl⟩)

/-- The induction over a walk that ends well in `t`, one round at a time. -/
theorem assignWalk_ok_induction {t : State} {M : List Visit → State → Prop} (ended : M [] t)
    (leaf : ∀ v stack s, usedNode (s.tmAt v.slot) = true → v.depth ≤ 255 → leafNode (s.tmAt v.slot) = true →
      s.ctAt (nodeSym (s.tmAt v.slot)) = none → M stack (s.assignLeaf v) → M (v :: stack) s)
    (internal : ∀ v stack s, usedNode (s.tmAt v.slot) = true → leafNode (s.tmAt v.slot) = false →
      M (pushChildren (s.tmAt v.slot) v stack) s.countNode → M (v :: stack) s)
    {k : Nat} {visited : List Slot} {stack : List Visit} {s : State}
    (h : assignWalk k visited stack s = .ok () t) : M stack s := by
  induction k generalizing visited stack s with
  | zero =>
    cases stack with
    | nil =>
      cases h
      exact ended
    | cons v stack => cases h
  | succ k ih =>
    cases stack with
    | nil =>
      cases h
      exact ended
    | cons v stack =>
      obtain ⟨c, i, e⟩ | ⟨hused, hdepth, ⟨c, i, e⟩ | ⟨hl, hnone, e⟩ | ⟨hl, e⟩⟩ :=
        assignWalk_cons_cases k visited v stack s
      · cases e.symm.trans h
      · cases e.symm.trans h
      · exact leaf v stack s hused hdepth hl hnone (ih (e.symm.trans h))
      · exact internal v stack s hused hl (ih (e.symm.trans h))

/-- Every code of `s` stands in `t`. -/
def CodesKept (s t : State) : Prop := ∀ a c, s.ctAt a = some c → t.ctAt a = some c

/-- A new leaf's code replaces none. -/
theorem CodesKept.of_assignLeaf {s t : State} {v : Visit} (hnone : s.ctAt (nodeSym (s.tmAt v.slot)) = none)
    (h : CodesKept (s.assignLeaf v) t) : CodesKept s t := by
  intro a c hc
  have hne : a ≠ nodeSym (s.tmAt v.slot) := by
    rintro rfl
    simp [hnone] at hc
  exact h a c ((s.countNode.ctAt_setCt_other _ hne).trans hc)

/-- Every slot that a path leads to through the stack is used, and every leaf among them has its path as its symbol's
code in `t` (41_tree_assign.md R176). -/
def StackCoded (t : State) (stack : List Visit) (s : State) : Prop :=
  ∀ v ∈ stack, ∀ q n, v.Leads s.tmAt q n → usedNode (s.tmAt n) = true ∧
    (leafNode (s.tmAt n) = true → ∃ c, t.ctAt (nodeSym (s.tmAt n)) = some c ∧ c.bits = leafBits q)

/-- The code is the path of a leaf of the symbol, reached through the stack (41_tree_assign.md R176). -/
def CodeFrom (a : Byte) (c : Code) (stack : List Visit) (s : State) : Prop :=
  ∃ v ∈ stack, ∃ q n, v.Leads s.tmAt q n ∧ leafNode (s.tmAt n) = true ∧ nodeSym (s.tmAt n) = a ∧ c.bits = leafBits q

/-- A walk that ends well met used slots only, and gave every leaf its path as its code. -/
theorem assignWalk_ok_reached {k : Nat} {visited : List Slot} {stack : List Visit} {s t : State}
    (h : assignWalk k visited stack s = .ok () t) :
    CodesKept s t ∧ StackCoded t stack s := by
  refine assignWalk_ok_induction (M := fun stack s => CodesKept s t ∧ StackCoded t stack s) ?ended ?leaf ?internal h
  case ended => exact ⟨fun _ _ => id, fun v hv => by cases hv⟩
  case leaf =>
    rintro v stack s hused hdepth hl hnone ⟨hkept, hreached⟩
    refine ⟨hkept.of_assignLeaf hnone, fun u hu q n hq => ?_⟩
    obtain rfl | hu := List.mem_cons.1 hu
    · obtain ⟨rfl, rfl⟩ := (Visit.leads_leaf hl).1 hq
      exact ⟨hused, fun _ => ⟨_, hkept _ _ (s.countNode.ctAt_setCt_same _ _), leafCode_bits hdepth⟩⟩
    · exact hreached u hu q n hq
  case internal =>
    rintro v stack s hused hl ⟨hkept, hreached⟩
    refine ⟨hkept, fun u hu q n hq => ?_⟩
    obtain rfl | hu := List.mem_cons.1 hu
    · obtain ⟨rfl, rfl⟩ | ⟨b, c, hc, hq⟩ := (Visit.leads_internal hl).1 hq
      · exact ⟨hused, fun hl' => by simp [hl] at hl'⟩
      · exact hreached _ (mem_pushChildren.2 (.inl ⟨b, c, hc, rfl⟩)) q n hq
    · exact hreached u (mem_pushChildren.2 (.inr hu)) q n hq

/-- A code that a walk which ends well leaves was there before, or is the path of a leaf reached from its stack. -/
theorem assignWalk_ok_codes {k : Nat} {visited : List Slot} {stack : List Visit} {s t : State}
    (h : assignWalk k visited stack s = .ok () t) {a : Byte} {c : Code} (hc : t.ctAt a = some c) :
    s.ctAt a = some c ∨ CodeFrom a c stack s := by
  refine assignWalk_ok_induction (M := fun stack s => s.ctAt a = some c ∨ CodeFrom a c stack s) ?ended ?leaf ?internal h
  case ended => exact .inl hc
  case leaf =>
    rintro v stack s - hdepth hl - (hold | ⟨u, hu, found⟩)
    · by_cases ha : a = nodeSym (s.tmAt v.slot)
      · subst ha
        have hcode : leafCode v = c := by
          simpa using (s.countNode.ctAt_setCt_same _ _).symm.trans hold
        exact .inr ⟨v, by simp, v.bits, v.slot, (Visit.leads_leaf hl).2 ⟨rfl, rfl⟩, hl, rfl,
          hcode ▸ leafCode_bits hdepth⟩
      · exact .inl ((s.countNode.ctAt_setCt_other _ ha).symm.trans hold)
    · exact .inr ⟨u, by simp [hu], found⟩
  case internal =>
    rintro v stack s - hl (hold | ⟨u, hu, q, n, hq, found⟩)
    · exact .inl hold
    · obtain ⟨b, d, hd, rfl⟩ | hu := mem_pushChildren.1 hu
      · exact .inr ⟨v, by simp, q, n, (Visit.leads_internal hl).2 (.inr ⟨b, d, hd, hq⟩), found⟩
      · exact .inr ⟨u, by simp [hu], q, n, hq, found⟩

theorem CmdResult.All.of_ok {α : Type} {P : State → Prop} {r : CmdResult α} {a : α} {s : State} (h : r.All P)
    (hr : r = .ok a s) : P s := by
  subst hr
  exact h

/-- A successful ASSIGN is a walk from ROOT that ended well with a code given out. -/
theorem assignCodes_ok {s t : State} (h : assignCodes s = .ok () t) :
    ∃ u, assignWalk 511 [] (pushChild (slotOf s.root) 0 0 []) s.assignStart = .ok () u ∧ u.symCount ≠ 0 ∧
      t = u.setSync true := by
  obtain ⟨_, u, hwalk, hend⟩ := CmdResult.andThen_eq_ok.1 h
  refine ⟨u, hwalk, ?_⟩
  split at hend
  · cases hend
  · cases hend
    exact ⟨‹_›, rfl⟩

theorem State.ctAt_assignStart (s : State) (a : Byte) : s.assignStart.ctAt a = none := s.ctAt_clearTable a

theorem Visit.leads_root {s : State} {r : Slot} (hr : slotOf s.root = some r) {q : List Bool} {n : Slot} :
    (⟨r, 0, 0⟩ : Visit).Leads s.tmAt q n ↔ s.reach q = some n := by
  simp [Visit.Leads, Visit.bits, State.reach_of_root hr]

/-- The tree decodes the table a successful ASSIGN leaves (10_state.md R37, 41_tree_assign.md R176). -/
theorem assignCodes_ok_treeMatches {s t : State} (h : assignCodes s = .ok () t) : t.TreeMatches := by
  obtain ⟨u, hwalk, hcount, rfl⟩ := assignCodes_ok h
  have frame : TableOnly s.assignStart u := (assignWalk_tableOnly _ _ _ _).of_ok hwalk
  have htm : u.tm = s.tm := by rw [frame]; rfl
  have hroot : u.root = s.root := by rw [frame]; rfl
  suffices hu : u.TreeMatches from hu.congr rfl rfl rfl
  have htmAt : u.tmAt = s.tmAt := funext fun n => State.tmAt_congr n htm
  have hreach := State.reach_congr htm hroot
  cases hr : slotOf s.root with
  | none =>
    rw [hr] at hwalk
    cases hwalk
    exact absurd rfl hcount
  | some r =>
    rw [hr] at hwalk
    have reached := fun {q n} (hq : s.reach q = some n) =>
      (assignWalk_ok_reached hwalk).2 _ List.mem_cons_self q n ((Visit.leads_root hr).2 hq)
    refine ⟨⟨r, hroot ▸ hr⟩, fun q n hq => ?used, fun q a => ?leafCode, fun a c hc => ?codeLeaf⟩
    case used =>
      rw [htmAt]
      exact (reached (hreach ▸ hq)).1
    case leafCode =>
      rintro ⟨n, hq, hl, rfl⟩
      rw [htmAt] at hl ⊢
      exact (reached (hreach ▸ hq)).2 hl
    case codeLeaf =>
      obtain hold | ⟨v, hv, q, n, hq, hl, ha, hbits⟩ := assignWalk_ok_codes hwalk hc
      · simp [State.ctAt_assignStart] at hold
      · obtain rfl := List.mem_singleton.1 hv
        refine ⟨q, ⟨n, ?_, ?_, ?_⟩, hbits⟩
        · rw [hreach]
          exact (Visit.leads_root hr).1 hq
        · rwa [htmAt]
        · rwa [htmAt]

end Sys2Proof.Machine

/-! PROOFS. The family 10_state.md: BUILD's trie, and that it decodes the table. -/

namespace Sys2Proof.Machine

/-! ### A new node in BUILD's trie -/

theorem State.reach_nil (s : State) : s.reach [] = slotOf s.root := by cases h : slotOf s.root <;> simp [State.reach, h]

/-- A path's last branch leads from an internal slot to one of its children. -/
theorem State.reach_concat {s : State} {q : List Bool} {b : Bool} {m : Slot} :
    s.reach (q ++ [b]) = some m ↔
      ∃ n, s.reach q = some n ∧ leafNode (s.tmAt n) = false ∧ childOf (s.tmAt n) b = some m := by
  cases hr : slotOf s.root with
  | none => simp [State.reach, hr]
  | some r => simp [State.reach_of_root hr, walkTree_append, walkTree_cons]

/-- What BUILD keeps of its trie while `next` slots are taken: the root is slot 0, and the slots that paths lead to are
taken and used, each reached by one path (43_code_table.md R225). -/
structure State.Trie (s : State) (next : Nat) : Prop where
  root : s.root = 0
  below : ∀ q n, s.reach q = some n → n.val < next
  single : ∀ p q n, s.reach p = some n → s.reach q = some n → p = q
  used : ∀ q n, s.reach q = some n → usedNode (s.tmAt n) = true

/-- Path `p` leads to the internal slot `n`, whose branch `b` has no child. -/
structure State.FreeAt (s : State) (p : List Bool) (n : Slot) (b : Bool) : Prop where
  here : s.reach p = some n
  internal : leafNode (s.tmAt n) = false
  free : childOf (s.tmAt n) b = none

/-- No path goes on from a slot with this word. -/
def Childless (w : Word) : Prop := leafNode w = false → ∀ b, childOf w b = none

theorem childless_leafWord (a : Byte) : Childless (leafWord a) := fun h => by simp at h

theorem childless_emptyInternal : Childless emptyInternal := fun _ => childOf_emptyInternal

/-- The state after `allocNode`: word `w` in slot `c`, linked below slot `n` on branch `b` (43_code_table.md R225). -/
def State.graft (s : State) (n : Slot) (b : Bool) (w : Word) (c : Slot) : State :=
  ((s.setTm c w).setTm n (linkWord ((s.setTm c w).tmAt n) b c)).setNodeCount (c.val + 1)

theorem allocNode_ok {sym : Byte} {n c : Slot} {b : Bool} {w : Word} {next : Nat} {s t : State}
    (h : allocNode sym n b w next s = .ok c t) : c.val = next ∧ t = s.graft n b w c := by
  obtain ⟨hn, e⟩ | ⟨-, e⟩ := allocNode_cases sym n b w next s
  · cases e.symm.trans h
    exact ⟨rfl, rfl⟩
  · cases e.symm.trans h

section
variable {s : State} {n c : Slot} (b : Bool) (w : Word)

theorem State.graft_tmAt_new (hne : c ≠ n) : (s.graft n b w c).tmAt c = w :=
  ((s.setTm c w).tmAt_setTm_other _ hne).trans (s.tmAt_setTm_same c w)

theorem State.graft_tmAt_parent (hne : c ≠ n) : (s.graft n b w c).tmAt n = linkWord (s.tmAt n) b c := by
  refine ((s.setTm c w).tmAt_setTm_same n _).trans ?_
  rw [s.tmAt_setTm_other w hne.symm]

theorem State.graft_tmAt_other {m : Slot} (hn : m ≠ n) (hc : m ≠ c) : (s.graft n b w c).tmAt m = s.tmAt m :=
  ((s.setTm c w).tmAt_setTm_other _ hn).trans (s.tmAt_setTm_other w hc)

end

section
variable {s : State} {next : Nat} {p : List Bool} {n c : Slot} {b : Bool} {w : Word}
variable (ht : s.Trie next) (hp : s.FreeAt p n b) (hc : c.val = next)
include ht hc

theorem State.Trie.ne_next {q : List Bool} {m : Slot} (hm : s.reach q = some m) : m ≠ c := by
  rintro rfl
  exact absurd (ht.below q m hm) (by omega)

include hp

/-- Of the slots the trie had, a new node leaves USED and LEAF alone, and SYM where LEAF is 1. -/
theorem State.Trie.graft_word {q : List Bool} {m : Slot} (hm : s.reach q = some m) :
    usedNode ((s.graft n b w c).tmAt m) = usedNode (s.tmAt m) ∧
      leafNode ((s.graft n b w c).tmAt m) = leafNode (s.tmAt m) ∧
      (leafNode (s.tmAt m) = true → (s.graft n b w c).tmAt m = s.tmAt m) := by
  have hne := ht.ne_next hc hp.here
  by_cases hmn : m = n
  · subst hmn
    simp [State.graft_tmAt_parent b w hne.symm, hp.internal]
  · simp [State.graft_tmAt_other b w hmn (ht.ne_next hc hm)]

/-- A new node adds its one path to the trie (43_code_table.md R225). -/
theorem State.Trie.reach_graft (hw : Childless w) {q : List Bool} {m : Slot} :
    (s.graft n b w c).reach q = some m ↔ s.reach q = some m ∨ (q = p ++ [b] ∧ m = c) := by
  have hne : c ≠ n := (ht.ne_next hc hp.here).symm
  induction q using List.reverseRecOn generalizing m with
  | nil =>
    have hroot : (s.graft n b w c).root = s.root := rfl
    simp [State.reach_nil, hroot]
  | append_singleton q b' ih =>
    rw [State.reach_concat]
    constructor
    · rintro ⟨x, hx, hl, hm⟩
      obtain hxs | ⟨-, rfl⟩ := ih.1 hx
      · by_cases hxn : x = n
        · subst hxn
          rw [State.graft_tmAt_parent b w hne] at hm
          by_cases hb : b' = b
          · subst hb
            rw [childOf_linkWord_same] at hm
            exact .inr ⟨by rw [ht.single q p x hxs hp.here], (Option.some.inj hm).symm⟩
          · rw [childOf_linkWord_other _ _ hb] at hm
            exact .inl (State.reach_concat.2 ⟨x, hxs, hp.internal, hm⟩)
        · rw [State.graft_tmAt_other b w hxn (ht.ne_next hc hxs)] at hl hm
          exact .inl (State.reach_concat.2 ⟨x, hxs, hl, hm⟩)
      · rw [State.graft_tmAt_new b w hne] at hl hm
        simp [hw hl] at hm
    · rintro (hold | ⟨hq, rfl⟩)
      · obtain ⟨x, hx, hl, hm⟩ := State.reach_concat.1 hold
        refine ⟨x, ih.2 (.inl hx), (ht.graft_word hp hc hx).2.1.trans hl, ?_⟩
        by_cases hxn : x = n
        · subst hxn
          have hb : b' ≠ b := by
            rintro rfl
            simp [hp.free] at hm
          rw [State.graft_tmAt_parent b w hne, childOf_linkWord_other _ _ hb, hm]
        · rw [State.graft_tmAt_other b w hxn (ht.ne_next hc hx), hm]
      · obtain ⟨rfl, hb⟩ := List.append_inj' hq rfl
        cases hb
        refine ⟨n, ih.2 (.inl hp.here), ?_, ?_⟩
        · rw [State.graft_tmAt_parent b w hne, leafNode_linkWord, hp.internal]
        · rw [State.graft_tmAt_parent b w hne, childOf_linkWord_same]

/-- A new node is a leaf of the trie exactly where its word is a leaf's. -/
theorem State.Trie.leafAt_graft (hw : Childless w) {q : List Bool} {a : Byte} :
    (s.graft n b w c).LeafAt q a ↔
      s.LeafAt q a ∨ (q = p ++ [b] ∧ leafNode w = true ∧ nodeSym w = a) := by
  have hnew := State.graft_tmAt_new (s := s) b w (ht.ne_next hc hp.here).symm
  simp only [State.LeafAt, ht.reach_graft hp hc hw]
  constructor
  · rintro ⟨m, hm | ⟨rfl, rfl⟩, hl, ha⟩
    · obtain ⟨-, hleaf, hword⟩ := ht.graft_word (w := w) hp hc hm
      rw [hleaf] at hl
      exact .inl ⟨m, hm, hl, hword hl ▸ ha⟩
    · rw [hnew] at hl ha
      exact .inr ⟨rfl, hl, ha⟩
  · rintro (⟨m, hm, hl, ha⟩ | ⟨rfl, hl, ha⟩)
    · have hword := (ht.graft_word (w := w) hp hc hm).2.2 hl
      exact ⟨m, .inl hm, hword ▸ hl, hword ▸ ha⟩
    · exact ⟨c, .inr ⟨rfl, rfl⟩, hnew.symm ▸ hl, hnew.symm ▸ ha⟩

theorem State.Trie.graft (hw : Childless w) (hused : usedNode w = true) : (s.graft n b w c).Trie (next + 1) where
  root := ht.root
  below q m hm := by
    obtain hm | ⟨-, rfl⟩ := (ht.reach_graft hp hc hw).1 hm
    · exact Nat.lt_succ_of_lt (ht.below q m hm)
    · omega
  single q q' m hm hm' := by
    obtain hm | ⟨rfl, hmc⟩ := (ht.reach_graft hp hc hw).1 hm <;>
      obtain hm' | ⟨rfl, hmc'⟩ := (ht.reach_graft hp hc hw).1 hm'
    · exact ht.single q q' m hm hm'
    · exact absurd hmc' (ht.ne_next hc hm)
    · exact absurd hmc (ht.ne_next hc hm')
    · rfl
  used q m hm := by
    obtain hm | ⟨-, rfl⟩ := (ht.reach_graft hp hc hw).1 hm
    · exact (ht.graft_word hp hc hm).1.trans (ht.used q m hm)
    · rwa [State.graft_tmAt_new b w (ht.ne_next hc hp.here).symm]

end

/-! ### BUILD -/

/-- A code inserted below the internal slot that path `p` leads to adds one leaf, at the code's bits below `p`
(43_code_table.md R225). -/
theorem buildCode_ok {sym : Byte} {bs p : List Bool} {n : Slot} {next next' : Nat} {s t : State}
    (ht : s.Trie next) (hp : s.reach p = some n) (hl : leafNode (s.tmAt n) = false) (hbs : bs ≠ [])
    (h : buildCode sym bs n next s = .ok next' t) :
    t.Trie next' ∧ ∀ q a, t.LeafAt q a ↔ s.LeafAt q a ∨ (q = p ++ bs ∧ a = sym) := by
  induction bs generalizing n next s p with
  | nil => exact absurd rfl hbs
  | cons b bs ih =>
    cases bs with
    | nil =>
      simp only [buildCode] at h
      split at h
      · cases h
      next hfree =>
        obtain ⟨c, u, halloc, h⟩ := CmdResult.andThen_eq_ok.1 h
        cases h
        obtain ⟨hc, rfl⟩ := allocNode_ok halloc
        have hw := childless_leafWord sym
        refine ⟨ht.graft ⟨hp, hl, hfree⟩ hc hw (usedNode_leafWord sym), fun q a => ?_⟩
        simp [ht.leafAt_graft ⟨hp, hl, hfree⟩ hc hw, eq_comm]
    | cons b' bs =>
      simp only [buildCode] at h
      split at h
      next c hchild =>
        split at h
        · cases h
        next hleaf =>
          obtain ⟨ht', hiff⟩ := ih ht (State.reach_concat.2 ⟨n, hp, hl, hchild⟩) (by simpa using hleaf) (by simp) h
          exact ⟨ht', fun q a => by simpa using hiff q a⟩
      next hfree =>
        obtain ⟨c, u, halloc, h⟩ := CmdResult.andThen_eq_ok.1 h
        obtain ⟨hc, rfl⟩ := allocNode_ok halloc
        have hp' : s.FreeAt p n b := ⟨hp, hl, hfree⟩
        have hw := childless_emptyInternal
        have hleaf : leafNode ((s.graft n b emptyInternal c).tmAt c) = false := by
          rw [State.graft_tmAt_new b _ (ht.ne_next hc hp).symm, leafNode_emptyInternal]
        obtain ⟨ht', hiff⟩ := ih (ht.graft hp' hc hw usedNode_emptyInternal)
          ((ht.reach_graft hp' hc hw).2 (.inr ⟨rfl, rfl⟩)) hleaf (by simp) h
        exact ⟨ht', fun q a => by simpa [ht.leafAt_graft hp' hc hw] using hiff q a⟩

theorem State.Trie.reach_root {s : State} {next : Nat} (ht : s.Trie next) : s.reach [] = some 0 := by
  rw [State.reach_nil, ht.root]
  decide

/-- The root is internal exactly where no leaf's path is empty. -/
theorem State.Trie.root_internal {s : State} {next : Nat} (ht : s.Trie next) (h : ∀ a, ¬ s.LeafAt [] a) :
    leafNode (s.tmAt 0) = false :=
  Bool.eq_false_iff.2 fun hl => h _ ⟨0, ht.reach_root, hl, rfl⟩

/-- The codes of a list of entries inserted from the root add one leaf each (43_code_table.md R225). -/
theorem buildEntries_ok {es : List (Byte × Code)} {next next' : Nat} {s t : State} (ht : s.Trie next)
    (hroot : ∀ a, ¬ s.LeafAt [] a) (hes : ∀ e ∈ es, e.2.bits ≠ []) (h : buildEntries es next s = .ok next' t) :
    t.Trie next' ∧ ∀ q a, t.LeafAt q a ↔ s.LeafAt q a ∨ ∃ c, (a, c) ∈ es ∧ c.bits = q := by
  induction es generalizing next s with
  | nil =>
    cases h
    exact ⟨ht, by simp⟩
  | cons e es ih =>
    obtain ⟨sym, c⟩ := e
    obtain ⟨mid, u, hcode, h⟩ := CmdResult.andThen_eq_ok.1 h
    have hc : c.bits ≠ [] := hes (sym, c) (by simp)
    obtain ⟨hu, hleaf⟩ := buildCode_ok ht ht.reach_root (ht.root_internal hroot) hc hcode
    have hroot' : ∀ a, ¬ u.LeafAt [] a := fun a ha => by simp [hleaf, hroot a, hc.symm] at ha
    obtain ⟨ht', hiff⟩ := ih hu hroot' (fun e he => hes e (by simp [he])) h
    refine ⟨ht', fun q a => ?_⟩
    rw [hiff, hleaf]
    constructor
    · rintro ((hold | ⟨rfl, rfl⟩) | ⟨d, hd, rfl⟩)
      · exact .inl hold
      · exact .inr ⟨c, by simp, rfl⟩
      · exact .inr ⟨d, by simp [hd], rfl⟩
    · rintro (hold | ⟨d, hd, rfl⟩)
      · exact .inl (.inl hold)
      · obtain hd | hd := List.mem_cons.1 hd
        · cases hd
          exact .inl (.inr ⟨rfl, rfl⟩)
        · exact .inr ⟨d, hd, rfl⟩

/-- The state in which BUILD inserts the first code (43_code_table.md R225). -/
def State.buildStart (s : State) : State := (((s.setSync false).clearTree).setRoot 0).plantRoot

theorem State.reach_buildStart {s : State} {q : List Bool} {n : Slot} :
    s.buildStart.reach q = some n ↔ q = [] ∧ n = 0 := by
  have hr : slotOf s.buildStart.root = some 0 := by
    change slotOf 0 = some 0
    decide
  have hw : s.buildStart.tmAt 0 = emptyInternal := State.tmAt_setTm_same _ 0 emptyInternal
  rw [State.reach_of_root hr]
  cases q with
  | nil => simp [eq_comm]
  | cons b q => simp [walkTree_cons, hw]

theorem State.not_leafAt_buildStart (s : State) (q : List Bool) (a : Byte) : ¬ s.buildStart.LeafAt q a := by
  rintro ⟨n, hn, hl, -⟩
  obtain ⟨-, rfl⟩ := State.reach_buildStart.1 hn
  have hw : s.buildStart.tmAt 0 = emptyInternal := State.tmAt_setTm_same _ 0 emptyInternal
  simp [hw] at hl

theorem State.buildStart_trie (s : State) : s.buildStart.Trie 1 where
  root := rfl
  below q n hn := by
    obtain ⟨-, rfl⟩ := State.reach_buildStart.1 hn
    decide
  single p q n hp hq := (State.reach_buildStart.1 hp).1.trans (State.reach_buildStart.1 hq).1.symm
  used q n hn := by
    obtain ⟨-, rfl⟩ := State.reach_buildStart.1 hn
    have hw : s.buildStart.tmAt 0 = emptyInternal := State.tmAt_setTm_same _ 0 emptyInternal
    rw [hw, usedNode_emptyInternal]

/-- A successful BUILD inserted the code of every valid entry. -/
theorem buildTree_ok {s t : State} (h : buildTree s = .ok () t) :
    s.symCount ≠ 0 ∧ ∃ next u, buildEntries s.validEntries 1 s.buildStart = .ok next u ∧ t = u.setSync true := by
  unfold buildTree at h
  dsimp only at h
  split at h
  · cases h
  next hcount =>
    obtain ⟨next, u, hbuild, hend⟩ := CmdResult.andThen_eq_ok.1 h
    cases hend
    exact ⟨hcount, next, u, hbuild, rfl⟩

theorem Code.Legal.bits_ne_nil {c : Code} (h : c.Legal) : c.bits ≠ [] := by
  have hlen := h.1
  rw [← c.length_bits] at hlen
  exact List.ne_nil_of_length_pos hlen

/-- The tree that a successful BUILD leaves decodes the table (10_state.md R37, 43_code_table.md R226). -/
theorem buildTree_ok_treeMatches {s t : State} (hlegal : s.TableLegal) (h : buildTree s = .ok () t) :
    t.TreeMatches := by
  obtain ⟨-, next, u, hbuild, rfl⟩ := buildTree_ok h
  have hbits : ∀ e ∈ s.validEntries, e.2.bits ≠ [] := fun e he =>
    (hlegal e.1 e.2 ((s.mem_validEntries _ _).1 he)).bits_ne_nil
  obtain ⟨htrie, hleaf⟩ := buildEntries_ok s.buildStart_trie (s.not_leafAt_buildStart []) hbits hbuild
  have frame : TreeOnly s.buildStart u := (buildEntries_treeOnly _ _ _).of_ok hbuild
  have hct : u.ctAt = s.ctAt := funext fun a => State.ctAt_congr a (by rw [frame]; rfl)
  have hleaf' : ∀ q a, u.LeafAt q a ↔ ∃ c, s.ctAt a = some c ∧ c.bits = q := fun q a => by
    simp [hleaf, s.not_leafAt_buildStart, s.mem_validEntries]
  suffices hu : u.TreeMatches from hu.congr rfl rfl rfl
  refine ⟨⟨0, u.reach_nil.symm.trans htrie.reach_root⟩, htrie.used, fun q a hq => ?_, fun a c hc => ?_⟩
  · obtain ⟨c, hc, rfl⟩ := (hleaf' q a).1 hq
    exact ⟨c, hct ▸ hc, by simp [leafBits, (hlegal a c hc).bits_ne_nil]⟩
  · rw [hct] at hc
    exact ⟨c.bits, (hleaf' _ a).2 ⟨c, hc, rfl⟩, by simp [leafBits, (hlegal a c hc).bits_ne_nil]⟩

end Sys2Proof.Machine

/-! PROOFS. The family 10_state.md: what a command, a host write and a step can change. -/

namespace Sys2Proof.Machine

/-! ### The loops of ASSIGN and BUILD, with what they keep -/

theorem CmdResult.All.of_error {α : Type} {P : State → Prop} {r : CmdResult α} {c : ErrCode} {info : Word} {s : State}
    (h : r.All P) (hr : r = .error c info s) : P s := by
  subst hr
  exact h

/-- The induction over ASSIGN's walk: `P` holds before every round, with the slots left and the stack, and `Q` of every
state the walk can end in. -/
theorem assignWalk_all {P : Nat → List Visit → State → Prop} {Q : State → Prop}
    (ended : ∀ k stack s, P k stack s → Q s)
    (counted : ∀ k v stack s, P (k + 1) (v :: stack) s → Q s.countNode)
    (leaf : ∀ k v stack s, v.depth ≤ 255 → s.ctAt (nodeSym (s.tmAt v.slot)) = none → P (k + 1) (v :: stack) s →
      P k stack (s.assignLeaf v))
    (internal : ∀ k v stack s, P (k + 1) (v :: stack) s → P k (pushChildren (s.tmAt v.slot) v stack) s.countNode)
    {k : Nat} {visited : List Slot} {stack : List Visit} {s : State} (h : P k stack s) :
    (assignWalk k visited stack s).All Q := by
  induction k generalizing visited stack s with
  | zero => cases stack <;> exact ended _ _ s h
  | succ k ih =>
    cases stack with
    | nil => exact ended _ _ s h
    | cons v stack =>
      obtain ⟨c, i, e⟩ | ⟨-, hdepth, ⟨c, i, e⟩ | ⟨-, hnone, e⟩ | ⟨-, e⟩⟩ :=
        assignWalk_cons_cases k visited v stack s <;> rw [e]
      · exact ended _ _ s h
      · exact counted _ _ _ s h
      · exact ih (leaf _ _ _ s hdepth hnone h)
      · exact ih (internal _ _ _ s h)

/-- A failed ASSIGN leaves what its walk left, which raised the error or gave out no code. -/
theorem assignCodes_error {s t : State} {c : ErrCode} {info : Word} (h : assignCodes s = .error c info t) :
    assignWalk 511 [] (pushChild (slotOf s.root) 0 0 []) s.assignStart = .error c info t ∨
      assignWalk 511 [] (pushChild (slotOf s.root) 0 0 []) s.assignStart = .ok () t := by
  obtain hwalk | ⟨_, u, hwalk, hend⟩ := CmdResult.andThen_eq_error.1 h
  · exact .inl hwalk
  · split at hend <;> cases hend
    exact .inr hwalk

/-- A failed ASSIGN leaves SYNC 0 (41_tree_assign.md R174). -/
theorem assignCodes_error_sync {s t : State} {c : ErrCode} {info : Word} (h : assignCodes s = .error c info t) :
    t.sync = false := by
  have walk : (assignWalk 511 [] (pushChild (slotOf s.root) 0 0 []) s.assignStart).All fun u => u.sync = false :=
    assignWalk_all (P := fun _ _ u => u.sync = false) (fun _ _ _ h => h) (fun _ _ _ _ h => h)
      (fun _ _ _ _ _ _ h => h) (fun _ _ _ _ h => h) s.assignStart_sync
  obtain hwalk | hwalk := assignCodes_error h
  · exact walk.of_error hwalk
  · exact walk.of_ok hwalk

/-- No unimplemented bit of a node word is set (30_encoding.md R114). -/
theorem and_nodeMask_eq_self {w : Word} :
    w &&& nodeMask = w ↔ ∀ i, i < 32 → nodeMask.getLsbD i = false → w.getLsbD i = false := by
  constructor
  · intro h i _ hi
    rw [← h, BitVec.getLsbD_and, hi, Bool.and_false]
  · intro h
    refine BitVec.eq_of_getLsbD_eq fun i hi => ?_
    cases hm : nodeMask.getLsbD i
    · simp [hm, h i hi hm]
    · simp [hm]

theorem leafWord_masked (a : Byte) : leafWord a &&& nodeMask = leafWord a := by
  refine and_nodeMask_eq_self.2 fun i hi hm => ?_
  simp only [leafWord, BitVec.getLsbD_or, BitVec.getLsbD_setWidth, hi, decide_true, Bool.true_and]
  interval_cases i <;> simp [nodeMask] at hm ⊢

theorem linkWord_masked {w : Word} (b : Bool) (c : Slot) (h : w &&& nodeMask = w) :
    linkWord w b c &&& nodeMask = linkWord w b c := by
  refine and_nodeMask_eq_self.2 fun i hi hm => ?_
  have hw := and_nodeMask_eq_self.1 h i hi hm
  have hleft : ¬ i < 9 := fun hlt => by interval_cases i <;> simp [nodeMask] at hm
  have hright : ¬ (16 ≤ i ∧ i < 25) := fun ⟨hge, hlt⟩ => by interval_cases i <;> simp [nodeMask] at hm
  cases b <;> simp [linkWord_getLsbD _ _ _ i hi, hleft, hright, hw]

section
variable {P : State → Prop}
  (keep : ∀ s n b w c, w &&& nodeMask = w → P s → P (s.graft n b w c))
include keep

theorem allocNode_all {sym : Byte} {n : Slot} {b : Bool} {w : Word} {next : Nat} {s : State} (hw : w &&& nodeMask = w)
    (h : P s) : (allocNode sym n b w next s).All P := by
  obtain ⟨hn, e⟩ | ⟨-, e⟩ := allocNode_cases sym n b w next s <;> rw [e]
  · exact keep s n b w ⟨next, hn⟩ hw h
  · exact h

/-- What every new node keeps, the insertion of a code keeps. -/
theorem buildCode_all {sym : Byte} {bs : List Bool} {n : Slot} {next : Nat} {s : State} (h : P s) :
    (buildCode sym bs n next s).All P := by
  have hleaf := leafWord_masked sym
  induction bs generalizing n next s with
  | nil => exact h
  | cons b bs ih =>
    cases bs with
    | nil =>
      simp only [buildCode]
      split
      · exact h
      · exact (allocNode_all keep hleaf h).andThen (fun _ hu => hu) fun _ _ hu => hu
    | cons b' bs =>
      simp only [buildCode]
      split
      · split
        · exact h
        · exact ih h
      · exact (allocNode_all keep (by decide) h).andThen (fun _ hu => hu) fun _ _ hu => ih hu

theorem buildEntries_all {es : List (Byte × Code)} {next : Nat} {s : State} (h : P s) :
    (buildEntries es next s).All P := by
  induction es generalizing next s with
  | nil => exact h
  | cons e es ih => exact (buildCode_all keep h).andThen (fun _ hu => hu) fun _ _ hu => ih hu

end

/-- A failed BUILD found no symbol, or leaves what the insertion of the codes left. -/
theorem buildTree_error {s t : State} {c : ErrCode} {info : Word} (h : buildTree s = .error c info t) :
    t = ((s.setSync false).clearTree).setRoot 0 ∨ buildEntries s.validEntries 1 s.buildStart = .error c info t := by
  unfold buildTree at h
  dsimp only at h
  split at h
  · cases h
    exact .inl rfl
  · obtain hbuild | ⟨_, _, _, hend⟩ := CmdResult.andThen_eq_error.1 h
    · exact .inr hbuild
    · cases hend

/-- A failed BUILD leaves SYNC 0 (43_code_table.md R225). -/
theorem buildTree_error_sync {s t : State} {c : ErrCode} {info : Word} (h : buildTree s = .error c info t) :
    t.sync = false := by
  have entries : (buildEntries s.validEntries 1 s.buildStart).All fun u => u.sync = false :=
    buildEntries_all (fun _ _ _ _ _ _ h => h) rfl
  obtain rfl | hbuild := buildTree_error h
  · rfl
  · exact entries.of_error hbuild

/-! ### What a command can change -/

/-- Nothing but the result registers of TABLE_RD and NODE_RD and what a completion records differs. -/
def RegistersOnly (s t : State) : Prop :=
  t = { s with
    pending := t.pending, done := t.done, err := t.err, errCode := t.errCode, errInfo := t.errInfo,
    codeLen := t.codeLen, codeW := t.codeW, nodeData := t.nodeData }

/-- Nothing but the code table, the tree, their counts, SYNC and what a completion records differs. -/
def TablesOnly (s t : State) : Prop :=
  t = { s with
    pending := t.pending, done := t.done, err := t.err, errCode := t.errCode, errInfo := t.errInfo,
    ct := t.ct, symCount := t.symCount, tm := t.tm, root := t.root, nodeCount := t.nodeCount, sync := t.sync }

/-- Nothing but OBUF, OUT_LEN, BIT_LEN and what a completion records differs. -/
def StreamsOnly (s t : State) : Prop :=
  t = { s with
    pending := t.pending, done := t.done, err := t.err, errCode := t.errCode, errInfo := t.errInfo,
    obuf := t.obuf, outLen := t.outLen, bitLen := t.bitLen }

/-- The state in which a command ends that left `s`, with what its completion records (40_control.md R148,
60_exceptions.md R304). -/
def State.completedWith (s : State) (e : Bool) (code : Byte) (info : Word) : State :=
  { s with pending := none, done := true, err := e, errCode := code, errInfo := info }

/-- A command's next state is one its parts can leave, with its completion recorded. -/
theorem CmdResult.All.completion {P : State → Prop} {r : CmdResult Unit} {t : State} (hr : r.All P)
    (h : Machine.complete r = .next t) : ∃ u e code info, P u ∧ t = u.completedWith e code info := by
  obtain ⟨u, hu, rfl | ⟨c, info, rfl⟩⟩ := hr.complete h
  · exact ⟨u, _, _, _, hu, rfl⟩
  · exact ⟨u, _, _, _, hu, rfl⟩

section
variable {s u : State} (e : Bool) (code : Byte) (info : Word)

theorem RegistersOnly.completedWith (h : RegistersOnly s u) : RegistersOnly s (u.completedWith e code info) :=
  Eq.trans (congrArg (·.completedWith e code info) h) rfl

theorem TablesOnly.completedWith (h : TablesOnly s u) : TablesOnly s (u.completedWith e code info) :=
  Eq.trans (congrArg (·.completedWith e code info) h) rfl

theorem StreamsOnly.completedWith (h : StreamsOnly s u) : StreamsOnly s (u.completedWith e code info) :=
  Eq.trans (congrArg (·.completedWith e code info) h) rfl

end

theorem TableOnly.tablesOnly {s t : State} (h : TableOnly s t) : TablesOnly s t := Eq.trans h (by rw [h])

theorem TreeOnly.tablesOnly {s t : State} (h : TreeOnly s t) : TablesOnly s t := Eq.trans h (by rw [h])

/-- The six commands that LOCK stops (10_state.md R35, R37). -/
def writingCommands : List Instr := [.tableClear, .tableWr, .treeClear, .nodeWr, .assign, .build]

/-- `t` is where a successful ASSIGN or BUILD from `s` completes. -/
def TreeDerived (i : Instr) (s t : State) : Prop :=
  (i = .assign ∧ ∃ u, assignCodes s = .ok () u ∧ t = u.succeeds) ∨
    (i = .build ∧ ∃ u, buildTree s = .ok () u ∧ t = u.succeeds)

/-- What an unlocked writing command that passed its checks does: SYNC is 1 only where a tree was derived. -/
def TablesWritten (i : Instr) (s t : State) : Prop :=
  i ∈ writingCommands ∧ s.lock = false ∧ TablesOnly s t ∧ (t.sync = true → TreeDerived i s t)

/-- A writing command is stopped by LOCK, or runs unlocked. -/
theorem complete_ifUnlocked {i : Instr} {s t : State} {r : CmdResult Unit}
    (h : complete (ifUnlocked i s r) = .next t) :
    RegistersOnly s t ∨ (s.lock = false ∧ complete r = .next t) := by
  cases hl : s.lock with
  | true =>
    rw [ifUnlocked_of_lock r hl] at h
    cases h
    exact .inl rfl
  | false =>
    rw [ifUnlocked_of_unlocked r hl] at h
    exact .inr ⟨rfl, h⟩

theorem State.writeEntry_tablesOnly (s : State) (a : Byte) (c : Code) :
    TablesOnly s ((s.writeEntry a c).setSync false) := by
  unfold State.writeEntry
  split <;> rfl

theorem tableWrite_effect {s t : State} (hl : s.lock = false) (h : complete (tableWrite s) = .next t) :
    RegistersOnly s t ∨ TablesWritten .tableWr s t := by
  unfold tableWrite at h
  split at h <;> cases h
  · exact .inl rfl
  · refine .inr ⟨by decide, hl, (s.writeEntry_tablesOnly _ _).completedWith _ _ _, fun hs => by cases hs⟩

theorem nodeWrite_effect {s t : State} (hl : s.lock = false) (h : complete (nodeWrite s) = .next t) :
    RegistersOnly s t ∨ TablesWritten .nodeWr s t := by
  unfold nodeWrite at h
  split at h <;> cases h
  · exact .inl rfl
  · exact .inr ⟨by decide, hl, rfl, fun hs => by cases hs⟩

theorem assignCodes_effect {s t : State} (hl : s.lock = false) (h : complete (assignCodes s) = .next t) :
    TablesWritten .assign s t := by
  obtain ⟨u, e, code, info, hu, ht⟩ := (assignCodes_tableOnly s).completion h
  refine ⟨by decide, hl, ht ▸ hu.tablesOnly.completedWith e code info, fun hs => ?_⟩
  obtain ⟨v, hv, rfl⟩ | ⟨c, info, v, hv, rfl⟩ := complete_eq_next.1 h
  · exact .inl ⟨rfl, v, hv, rfl⟩
  · cases (assignCodes_error_sync hv).symm.trans hs

theorem buildTree_effect {s t : State} (hl : s.lock = false) (h : complete (buildTree s) = .next t) :
    TablesWritten .build s t := by
  obtain ⟨u, e, code, info, hu, ht⟩ := (buildTree_treeOnly s).completion h
  refine ⟨by decide, hl, ht ▸ hu.tablesOnly.completedWith e code info, fun hs => ?_⟩
  obtain ⟨v, hv, rfl⟩ | ⟨c, info, v, hv, rfl⟩ := complete_eq_next.1 h
  · exact .inr ⟨rfl, v, hv, rfl⟩
  · cases (buildTree_error_sync hv).symm.trans hs

/-- What a streaming command does, whose parts leave the state alone or emit from a start state. -/
theorem emitted_effect {s start t : State} {r : CmdResult Unit} (hstart : OutputOnly s start)
    (hobuf : start.obuf = s.obuf) (hr : r.All fun u => u = s ∨ Emitted start u) (h : complete r = .next t) :
    StreamsOnly s t ∧ TailSame s t := by
  obtain ⟨u, e, code, info, hu, rfl⟩ := hr.completion h
  have hsame : StreamsOnly s u ∧ TailSame s u := by
    obtain rfl | ⟨hout, -, -, htail, -⟩ := hu
    · exact ⟨rfl, fun _ _ => rfl⟩
    · refine ⟨Eq.trans (hstart.trans hout) (by rw [hstart.trans hout]), fun a ha => ?_⟩
      exact (htail a ha).trans (State.bufByte_congr .obuf a hobuf hstart.epoch)
  exact ⟨hsame.1.completedWith e code info, hsame.2⟩

theorem State.readEntry_registersOnly (s : State) (e : Option Code) : RegistersOnly s (s.readEntry e) := by
  cases e <;> rfl

theorem nodeRead_registersOnly (s : State) : (nodeRead s).All (RegistersOnly s) := by
  unfold nodeRead
  split
  · exact (rfl : RegistersOnly s s)
  next n _ => exact (rfl : RegistersOnly s (s.setNodeData (s.tmAt n)))

/-- Everything a command can change: the registers it answers in; the tables, where a writing command runs unlocked;
or the output, where ENCODE or DECODE runs (30_encoding.md R113). -/
theorem exec_effect {i : Instr} {s t : State} (h : exec i s = .next t) :
    RegistersOnly s t ∨ TablesWritten i s t ∨ ((i = .encode ∨ i = .decode) ∧ StreamsOnly s t ∧ TailSame s t) := by
  cases i with
  | nop =>
    cases h
    exact .inl rfl
  | tableClear =>
    obtain hr | ⟨hl, hr⟩ := complete_ifUnlocked h
    · exact .inl hr
    · cases hr
      exact .inr (.inl ⟨by decide, hl, rfl, fun hs => by cases hs⟩)
  | tableWr =>
    obtain hr | ⟨hl, hr⟩ := complete_ifUnlocked h
    · exact .inl hr
    · exact (tableWrite_effect hl hr).imp_right .inl
  | tableRd =>
    cases h
    exact .inl ((s.readEntry_registersOnly _).completedWith _ _ _)
  | treeClear =>
    obtain hr | ⟨hl, hr⟩ := complete_ifUnlocked h
    · exact .inl hr
    · cases hr
      exact .inr (.inl ⟨by decide, hl, rfl, fun hs => by cases hs⟩)
  | nodeWr =>
    obtain hr | ⟨hl, hr⟩ := complete_ifUnlocked h
    · exact .inl hr
    · exact (nodeWrite_effect hl hr).imp_right .inl
  | nodeRd =>
    obtain ⟨u, e, code, info, hu, rfl⟩ := (nodeRead_registersOnly s).completion h
    exact .inl (hu.completedWith e code info)
  | assign =>
    obtain hr | ⟨hl, hr⟩ := complete_ifUnlocked h
    · exact .inl hr
    · exact .inr (.inl (assignCodes_effect hl hr))
  | build =>
    obtain hr | ⟨hl, hr⟩ := complete_ifUnlocked h
    · exact .inl hr
    · exact .inr (.inl (buildTree_effect hl hr))
  | encode => exact .inr (.inr ⟨.inl rfl, emitted_effect (start := s.encodeStart) rfl rfl (encodeStream_frame s) h⟩)
  | decode => exact .inr (.inr ⟨.inr rfl, emitted_effect (start := s.decodeStart) rfl rfl (decodeStream_frame s) h⟩)

/-! ### What a step of the world outside can change -/

/-- Nothing but the buffer addresses and the model's own fields of the world outside differs. -/
def QuietOnly (s t : State) : Prop :=
  t = { s with
    ibufAddr := t.ibufAddr, obufAddr := t.obufAddr, draws := t.draws, inputs := t.inputs, sched := t.sched,
    rdata := t.rdata }

theorem QuietOnly.trans {s t u : State} (h₁ : QuietOnly s t) (h₂ : QuietOnly t u) : QuietOnly s u :=
  Eq.trans h₂ (by rw [h₁])

theorem State.tick_quietOnly (s : State) : QuietOnly s s.tick := by
  unfold State.tick
  split <;> rfl

theorem portRead_quietOnly (b : Buf) (s : State) : QuietOnly s (portRead b s).2 := by cases b <;> rfl

/-- A read changes nothing but a data port's address (40_control.md R141, R144). -/
theorem hostRead_quietOnly (off : Nat) (s : State) : QuietOnly s (hostRead off s).2 := by
  unfold hostRead
  split
  · unfold readBusy
    split <;> rfl
  · unfold readIdle
    split
    · rfl
    · exact portRead_quietOnly _ s
    · rfl

theorem accessOffset_read_quietOnly (off : Nat) (s : State) : QuietOnly s (accessOffset off .read s) :=
  (hostRead_quietOnly off s).trans rfl

theorem writeBusy_other {off : Nat} (d : Word) (s : State) (h : off ≠ Reg.offset .status) :
    writeBusy off d s = s.setOvr := by
  unfold writeBusy
  split
  · exact absurd (regAt_eq_some.1 ‹_›) h
  · rfl

/-- What a write does: STATUS clears flags; any other is dropped and sets OVR while busy, and goes to its register, if
it has one, while idle (40_control.md R142, R145). -/
theorem hostWrite_cases (off : Nat) (d : Word) (s : State) :
    (off = Reg.offset .status ∧ hostWrite off d s = s.writeStatus d) ∨
    (s.busy = true ∧ off ≠ Reg.offset .status ∧ hostWrite off d s = s.setOvr) ∨
    (s.busy = false ∧ hostWrite off d s = s) ∨
    (s.busy = false ∧ ∃ r, r ≠ .status ∧ off = r.offset ∧ hostWrite off d s = writeReg r d s) := by
  by_cases hoff : off = Reg.offset .status
  · subst hoff
    refine .inl ⟨rfl, ?_⟩
    cases hb : s.busy <;> simp only [hostWrite, hb, writeBusy, writeIdle, regAt_offset] <;> rfl
  refine .inr ?_
  cases hb : s.busy with
  | true =>
    exact .inl ⟨rfl, hoff, (if_pos hb).trans (writeBusy_other d s hoff)⟩
  | false =>
    refine .inr ?_
    cases hr : regAt off with
    | none => exact .inl ⟨rfl, by simp [hostWrite, hb, writeIdle, hr]⟩
    | some r =>
      refine .inr ⟨rfl, r, ?_, regAt_eq_some.1 hr, by simp [hostWrite, hb, writeIdle, hr]⟩
      rintro rfl
      exact hoff (regAt_eq_some.1 hr)

/-- Everything a step can do: leave the block alone but for a data port's address; a command; an illegal word; a host
write; reset. -/
theorem step_effect {s t : State} (h : step s = .next t) :
    QuietOnly s t ∨ (∃ i, s.Executes i ∧ exec i s.tick = .next t) ∨ (∃ w, s.turn = .engine w ∧ t = s.tick.fails 1 w) ∨
    (∃ a rest d off, s.turn = .host (.access a) rest ∧ a.dir = .write d ∧ a.addr = s.cfg.base + off ∧
      t = hostWrite off d (s.tick.setInputs rest)) ∨
    ∃ rest, s.turn = .host .reset rest ∧ t = (s.tick.setInputs rest).hardReset := by
  obtain ⟨-, e⟩ | ⟨w, i, hturn, hd, e⟩ | ⟨w, _, hturn, -, e⟩ | ⟨i, rest, hturn, e⟩ := step_cases s
  · cases e.symm.trans h
    exact .inl rfl
  · exact .inr (.inl ⟨i, ⟨w, hturn, hd⟩, e.symm.trans h⟩)
  · cases e.symm.trans h
    exact .inr (.inr (.inl ⟨w, hturn, rfl⟩))
  · have quiet : ∀ {u}, QuietOnly (s.tick.setInputs rest) u → QuietOnly s u := fun hu =>
      (s.tick_quietOnly.trans (rfl : QuietOnly s.tick (s.tick.setInputs rest))).trans hu
    obtain ⟨a, rfl, hwf, rfl⟩ | ⟨-, rfl⟩ | ⟨rfl, rfl⟩ := hostStep_eq_next.1 (e.symm.trans h)
    · cases hdir : a.dir with
      | read => exact .inl (quiet (accessOffset_read_quietOnly _ _))
      | write d =>
        refine .inr (.inr (.inr (.inl ⟨a, rest, d, a.addr - s.cfg.base, hturn, hdir, ?_, ?_⟩)))
        · have hin : s.cfg.base ≤ a.addr := by
            simp only [Access.wellFormed, Access.inWindow, State.tick_cfg, Bool.and_eq_true, decide_eq_true_eq] at hwf
            exact hwf.1.2.1
          omega
        · rw [State.tick_cfg]
          rfl
    · exact .inl (s.tick_quietOnly.trans ((accessOffset_read_quietOnly _ _).trans rfl))
    · exact .inr (.inr (.inr (.inr ⟨rest, hturn, rfl⟩)))

end Sys2Proof.Machine

/-! PROOFS. The family 10_state.md: the tables and SYNC, OVR, IRQ, the buffers' bytes, LOCK, and a code read back. -/

namespace Sys2Proof.Machine

/-! ### Who changes the tables -/

/-- CT, TM, ROOT and SYNC are as in `s`. -/
def TablesKept (s t : State) : Prop := t.ct = s.ct ∧ t.tm = s.tm ∧ t.root = s.root ∧ t.sync = s.sync

theorem TablesKept.trans {s t u : State} (h₁ : TablesKept s t) (h₂ : TablesKept t u) : TablesKept s u := by
  obtain ⟨hct, htm, hroot, hsync⟩ := h₁
  obtain ⟨hct', htm', hroot', hsync'⟩ := h₂
  exact ⟨hct'.trans hct, htm'.trans htm, hroot'.trans hroot, hsync'.trans hsync⟩

theorem QuietOnly.tablesKept {s t : State} (h : QuietOnly s t) : TablesKept s t := by
  rw [h]
  exact ⟨rfl, rfl, rfl, rfl⟩

theorem RegistersOnly.tablesKept {s t : State} (h : RegistersOnly s t) : TablesKept s t := by
  rw [h]
  exact ⟨rfl, rfl, rfl, rfl⟩

theorem StreamsOnly.tablesKept {s t : State} (h : StreamsOnly s t) : TablesKept s t := by
  rw [h]
  exact ⟨rfl, rfl, rfl, rfl⟩

/-- A data port's write changes the buffers and their addresses only (40_control.md R143). -/
theorem portWrite_frame (b : Buf) (v : Byte) (s : State) : portWrite b v s =
    { s with
      ibuf := (portWrite b v s).ibuf, obuf := (portWrite b v s).obuf,
      ibufAddr := (portWrite b v s).ibufAddr, obufAddr := (portWrite b v s).obufAddr } := by
  unfold portWrite
  dsimp only
  cases b <;> split <;> rfl

/-- Of the registers only ROOT leads a write to the tables (40_control.md R142). -/
theorem writeReg_tablesKept {r : Reg} (hr : r ≠ .root) (d : Word) (s : State) : TablesKept s (writeReg r d s) := by
  cases r with
  | root => exact absurd rfl hr
  | bufAddr b => cases b <;> exact ⟨rfl, rfl, rfl, rfl⟩
  | bufData b =>
    simp only [writeReg]
    rw [portWrite_frame]
    exact ⟨rfl, rfl, rfl, rfl⟩
  | _ => exact ⟨rfl, rfl, rfl, rfl⟩

/-- A write of ROOT is ignored while locked, and clears SYNC otherwise (10_state.md R49). -/
theorem writeRoot_cases (d : Word) (s : State) :
    writeRoot d s = s ∨ (s.lock = false ∧ (writeRoot d s).sync = false) := by
  unfold writeRoot
  split
  · exact .inl rfl
  next hl => exact .inr ⟨by simpa using hl, rfl⟩

/-- A host write keeps the tables, unless it is an effective write of ROOT. -/
theorem hostWrite_tables (off : Nat) (d : Word) (s : State) :
    TablesKept s (hostWrite off d s) ∨
      (s.lock = false ∧ s.busy = false ∧ off = Reg.offset .root ∧ (hostWrite off d s).sync = false) := by
  obtain ⟨-, e⟩ | ⟨-, -, e⟩ | ⟨-, e⟩ | ⟨hb, r, -, hoff, e⟩ := hostWrite_cases off d s <;> rw [e]
  · exact .inl ⟨rfl, rfl, rfl, rfl⟩
  · exact .inl ⟨rfl, rfl, rfl, rfl⟩
  · exact .inl ⟨rfl, rfl, rfl, rfl⟩
  · by_cases hr : r = .root
    · subst hr
      obtain hsame | ⟨hl, hsync⟩ := writeRoot_cases d s
      · exact .inl (by simp [writeReg, hsame, TablesKept])
      · exact .inr ⟨hl, hb, hoff, hsync⟩
    · exact .inl (writeReg_tablesKept hr d s)

/-- The next step from `s` is an effective write of ROOT (10_state.md R49). -/
def State.RootWritten (s : State) : Prop :=
  s.lock = false ∧ s.busy = false ∧ ∃ a rest d, s.turn = .host (.access a) rest ∧ a.dir = .write d ∧
    a.addr = s.cfg.base + Reg.offset .root

/-- Everything a step can do to CT, TM, ROOT and SYNC. -/
theorem step_tables {s t : State} (h : step s = .next t) :
    TablesKept s t ∨ (∃ i, s.Executes i ∧ TablesWritten i s.tick t) ∨ (s.RootWritten ∧ t.sync = false) ∨
      ((∃ rest, s.turn = .host .reset rest) ∧ t.sync = false) := by
  have htick := s.tick_quietOnly.tablesKept
  obtain hq | ⟨i, hi, he⟩ | ⟨w, -, rfl⟩ | ⟨a, rest, d, off, hturn, hdir, haddr, rfl⟩ | ⟨rest, hturn, rfl⟩ :=
    step_effect h
  · exact .inl hq.tablesKept
  · obtain hr | hw | ⟨-, hs, -⟩ := exec_effect he
    · exact .inl (htick.trans hr.tablesKept)
    · exact .inr (.inl ⟨i, hi, hw⟩)
    · exact .inl (htick.trans hs.tablesKept)
  · exact .inl (htick.trans ⟨rfl, rfl, rfl, rfl⟩)
  · obtain hk | ⟨hl, hb, rfl, hsync⟩ := hostWrite_tables off d (s.tick.setInputs rest)
    · exact .inl (htick.trans hk)
    · refine .inr (.inr (.inl ⟨⟨?_, ?_, a, rest, d, hturn, hdir, haddr⟩, hsync⟩))
      · simpa using hl
      · exact s.busy_tick.symm.trans hb
  · exact .inr (.inr (.inr ⟨⟨rest, hturn⟩, rfl⟩))

/-! ### The tree decodes the table -/

theorem State.TableLegal.congr {s t : State} (h : s.TableLegal) (hct : t.ct = s.ct) : t.TableLegal :=
  fun a c hc => h a c ((State.ctAt_congr a hct).symm.trans hc)

/-- Where ASSIGN or BUILD derived it, the tree decodes the table (10_state.md R37). -/
theorem TreeDerived.treeMatches {i : Instr} {s t : State} (h : TreeDerived i s t) (hlegal : s.TableLegal) :
    t.TreeMatches := by
  obtain ⟨-, u, hu, rfl⟩ | ⟨-, u, hu, rfl⟩ := h
  · exact (assignCodes_ok_treeMatches hu).congr rfl rfl rfl
  · exact (buildTree_ok_treeMatches hlegal hu).congr rfl rfl rfl

/-- Settles O59: a step that leaves SYNC 1 kept CT, TM and ROOT, or derived one of them from the other. -/
theorem stepKeepsSyncSound : Obligations.StepKeepsSyncSound := by
  intro s t hinv hsound hstep hsync
  obtain ⟨hct, htm, hroot, hsame⟩ | ⟨i, -, -, -, -, hderived⟩ | ⟨-, hclear⟩ | ⟨-, hclear⟩ := step_tables hstep
  · exact (hsound (hsame.symm.trans hsync)).congr hct htm hroot
  · exact (hderived hsync).treeMatches (hinv.legal.congr s.tick_ct)
  · cases hclear.symm.trans hsync
  · cases hclear.symm.trans hsync

/-- Settles O53: locked, neither a writing command nor a write of ROOT takes effect. -/
theorem lockMakesTablesReadOnly : Obligations.LockMakesTablesReadOnly := by
  intro s t hlock hreset hstep
  obtain hk | ⟨i, -, -, hl, -, -⟩ | ⟨⟨hl, -⟩, -⟩ | ⟨⟨rest, hturn⟩, -⟩ := step_tables hstep
  · exact hk
  · rw [State.tick_lock, hlock] at hl
    cases hl
  · rw [hlock] at hl
    cases hl
  · exact absurd hturn (hreset rest)

/-- Settles O54: the four cases of `step_tables`, read for SYNC. -/
theorem onlyListedEventsChangeSync : Obligations.OnlyListedEventsChangeSync := by
  intro s t hstep
  obtain ⟨-, -, -, hsame⟩ | ⟨i, hi, hmem, hl, -, hderived⟩ | ⟨hroot, hclear⟩ | ⟨hreset, hclear⟩ := step_tables hstep
  · rw [hsame]
    exact ⟨fun h₀ h₁ => absurd (h₀.symm.trans h₁) (by decide), fun h₁ h₀ => absurd (h₁.symm.trans h₀) (by decide)⟩
  · have hlock : s.lock = false := s.tick_lock.symm.trans hl
    refine ⟨fun _ hsync => ⟨hlock, ?_⟩, fun _ _ => .inl ⟨hlock, i, hmem, hi⟩⟩
    obtain ⟨rfl, -⟩ | ⟨rfl, -⟩ := hderived hsync
    · exact .inl hi
    · exact .inr hi
  · obtain ⟨hl, hb, hwrite⟩ := hroot
    exact ⟨fun _ h₁ => absurd (hclear.symm.trans h₁) (by decide), fun _ _ => .inr (.inl ⟨hl, hb, hwrite⟩)⟩
  · exact ⟨fun _ h₁ => absurd (hclear.symm.trans h₁) (by decide), fun _ _ => .inr (.inr hreset)⟩

/-! ### OVR -/

/-- No command changes IRQ_EN, OVR, IBUF or the number of resets. -/
theorem exec_keeps {i : Instr} {s t : State} (h : exec i s = .next t) :
    t.irqEn = s.irqEn ∧ t.ovr = s.ovr ∧ t.ibuf = s.ibuf ∧ t.epoch = s.epoch := by
  obtain hr | ⟨-, -, hr, -⟩ | ⟨-, hr, -⟩ := exec_effect h <;> rw [hr] <;> exact ⟨rfl, rfl, rfl, rfl⟩

theorem writeReg_ovr {r : Reg} (hr : r ≠ .status) (d : Word) (s : State) : (writeReg r d s).ovr = s.ovr := by
  cases r with
  | status => exact absurd rfl hr
  | root =>
    simp only [writeReg, writeRoot]
    split <;> rfl
  | bufAddr b => exact s.setBufAddr_ovr b d
  | bufData b =>
    simp only [writeReg]
    rw [portWrite_frame]
  | _ => rfl

/-- What a host write does to OVR: STATUS clears it by bit 3; any other sets it while busy and leaves it alone while
idle (10_state.md R36, 40_control.md R145). -/
theorem hostWrite_ovr (off : Nat) (d : Word) (s : State) :
    (off = Reg.offset .status ∧ (hostWrite off d s).ovr = (s.ovr && !d.getLsbD 3)) ∨
    (s.busy = true ∧ off ≠ Reg.offset .status ∧ (hostWrite off d s).ovr = true) ∨ (hostWrite off d s).ovr = s.ovr := by
  obtain ⟨hoff, e⟩ | ⟨hb, hoff, e⟩ | ⟨-, e⟩ | ⟨-, r, hr, -, e⟩ := hostWrite_cases off d s <;> rw [e]
  · exact .inl ⟨hoff, rfl⟩
  · exact .inr (.inl ⟨hb, hoff, rfl⟩)
  · exact .inr (.inr rfl)
  · exact .inr (.inr (writeReg_ovr hr d s))

/-- Everything a step can do to OVR. -/
theorem step_ovr {s t : State} (h : step s = .next t) :
    t.ovr = s.ovr ∨ (∃ rest, s.turn = .host .reset rest ∧ t.ovr = false) ∨
    ∃ a rest d off, s.turn = .host (.access a) rest ∧ a.dir = .write d ∧ a.addr = s.cfg.base + off ∧
      ((off = Reg.offset .status ∧ t.ovr = (s.ovr && !d.getLsbD 3)) ∨
        (s.busy = true ∧ off ≠ Reg.offset .status ∧ t.ovr = true)) := by
  obtain hq | ⟨i, -, he⟩ | ⟨w, -, rfl⟩ | ⟨a, rest, d, off, hturn, hdir, haddr, rfl⟩ | ⟨rest, hturn, rfl⟩ :=
    step_effect h
  · exact .inl (by rw [hq])
  · exact .inl ((exec_keeps he).2.1.trans s.tick_ovr)
  · exact .inl s.tick_ovr
  · have hovr : (s.tick.setInputs rest).ovr = s.ovr := s.tick_ovr
    have hbusy : (s.tick.setInputs rest).busy = s.busy := s.busy_tick
    obtain ⟨hoff, e⟩ | ⟨hb, hoff, e⟩ | e := hostWrite_ovr off d (s.tick.setInputs rest)
    · exact .inr (.inr ⟨a, rest, d, off, hturn, hdir, haddr, .inl ⟨hoff, hovr ▸ e⟩⟩)
    · exact .inr (.inr ⟨a, rest, d, off, hturn, hdir, haddr, .inr ⟨hbusy ▸ hb, hoff, e⟩⟩)
    · exact .inl (e.trans hovr)
  · exact .inr (.inl ⟨rest, hturn, rfl⟩)

/-- Settles O55: the cases of `step_ovr`. -/
theorem onlyDroppedWritesSetOvr : Obligations.OnlyDroppedWritesSetOvr := by
  intro s t hstep
  obtain hsame | ⟨rest, hturn, hclear⟩ | ⟨a, rest, d, off, hturn, hdir, haddr, ⟨hoff, e⟩ | ⟨hb, hoff, e⟩⟩ :=
    step_ovr hstep
  · rw [hsame]
    exact ⟨fun h₀ h₁ => absurd (h₀.symm.trans h₁) (by decide), fun h₁ h₀ => absurd (h₁.symm.trans h₀) (by decide)⟩
  · exact ⟨fun _ h₁ => absurd (hclear.symm.trans h₁) (by decide), fun _ _ => .inr ⟨rest, hturn⟩⟩
  · subst hoff
    refine ⟨fun h₀ h₁ => by simp [e, h₀] at h₁, fun h₁ h₀ => .inl ⟨a, rest, d, hturn, hdir, haddr, ?_⟩⟩
    simpa [e, h₁] using h₀
  · have hne : a.addr ≠ s.cfg.base + 0x0C := fun h => hoff (Nat.add_left_cancel (haddr.symm.trans h))
    exact ⟨fun _ _ => ⟨hb, a, rest, d, hturn, hdir, hne⟩, fun _ h₀ => absurd (e.symm.trans h₀) (by decide)⟩

/-! ### IRQ -/

theorem complete_done {r : CmdResult Unit} {t : State} (h : complete r = .next t) : t.done = true := by
  obtain ⟨u, -, rfl⟩ | ⟨c, info, u, -, rfl⟩ := complete_eq_next.1 h <;> rfl

theorem exec_done {i : Instr} {s t : State} (h : exec i s = .next t) : t.done = true := by
  cases i with
  | nop => exact complete_done (r := .ok () s) h
  | tableRd => exact complete_done (r := .ok () (s.readEntry (s.ctAt s.sym))) h
  | _ => exact complete_done h

/-- Settles O20: a completion sets DONE, and nothing changes IRQ_EN. -/
theorem irqRisesAtCompletion : Obligations.IrqRisesAtCompletion := by
  refine ⟨fun _ => rfl, rfl, fun i s t h => ?_, fun w s t h => ?_⟩
  · obtain ⟨hen, -⟩ := exec_keeps h
    exact ⟨hen, by simp [State.irq, exec_done h, hen]⟩
  · cases h
    exact ⟨rfl, by simp [State.irq]⟩

/-! ### The bytes of the buffers -/

/-- Settles O52: IBUF by the frames of the commands, OBUF by the tail that ENCODE and DECODE leave. -/
theorem commandsKeepOtherBytes : Obligations.CommandsKeepOtherBytes := by
  intro i s t h
  obtain ⟨-, -, hibuf, hepoch⟩ := exec_keeps h
  have same : t.obuf = s.obuf → ∀ a, t.bufByte .obuf a = s.bufByte .obuf a := fun hobuf a =>
    State.bufByte_congr .obuf a hobuf hepoch
  refine ⟨fun a => State.bufByte_congr .ibuf a hibuf hepoch, ?_⟩
  obtain hr | ⟨-, -, hr, -⟩ | ⟨hi, -, htail⟩ := exec_effect h
  · have hobuf := same (by rw [hr])
    exact ⟨fun _ _ => hobuf, fun _ a _ => hobuf a⟩
  · have hobuf := same (by rw [hr])
    exact ⟨fun _ _ => hobuf, fun _ a _ => hobuf a⟩
  · exact ⟨fun hne hnd => absurd hi (by simp [hne, hnd]), fun _ => htail⟩

/-! ### LOCKED -/

/-- Settles O29: the check comes first in each of the six commands. -/
theorem lockedCommandsChangeNothing : Obligations.LockedCommandsChangeNothing := by
  intro s i hl hi
  have locked : ∀ r, complete (ifUnlocked i s r) = .next (s.fails 2 (i.opcode.setWidth 32)) := fun r => by
    rw [ifUnlocked_of_lock r hl]
    rfl
  simp only [List.mem_cons, List.not_mem_nil, or_false] at hi
  obtain rfl | rfl | rfl | rfl | rfl | rfl := hi <;> exact locked _

/-! ### A code written and read back -/

/-- The `n` words of 32 bits of a number add up to the number modulo 2^(32n) (30_encoding.md R115). -/
theorem sum_words (n v : Nat) :
    ∑ k : Fin n, v / 2 ^ (32 * k.val) % 2 ^ 32 * 2 ^ (32 * k.val) = v % 2 ^ (32 * n) := by
  induction n with
  | zero => simp [Nat.mod_one]
  | succ n ih =>
    rw [Fin.sum_univ_castSucc, Nat.mul_succ, pow_add, Nat.mod_mul]
    simp only [Fin.val_castSucc, Fin.val_last, ih]
    rw [Nat.mul_comm (v / _ % _)]

/-- CODE_W0..7 written from a value add up to it. -/
theorem sum_codeWords (v : BitVec 256) :
    ∑ k : Fin 8, ((codeWords v)[k.val]).toNat * 2 ^ (32 * k.val) = v.toNat := by
  simp only [codeWords, Vector.getElem_ofFn, BitVec.toNat_ofNat]
  exact (sum_words 8 v.toNat).trans (Nat.mod_eq_of_lt v.isLt)

/-- CODEV is the sum of CODE_Wk * 2^(32k); it fits 256 bits (30_encoding.md R115). -/
theorem codeValue_toNat (w : Vector Word 8) :
    (codeValue w).toNat = ∑ k : Fin 8, (w[k.val]).toNat * 2 ^ (32 * k.val) := by
  have h0 := w[0].isLt
  have h1 := w[1].isLt
  have h2 := w[2].isLt
  have h3 := w[3].isLt
  have h4 := w[4].isLt
  have h5 := w[5].isLt
  have h6 := w[6].isLt
  have h7 := w[7].isLt
  rw [codeValue, BitVec.toNat_ofNat, Nat.mod_eq_of_lt (by omega)]
  simp [Fin.sum_univ_eight]

/-- The value of the code operand is CODEV mod 2^L (30_encoding.md R115). -/
theorem codeOperand_val_toNat (len : Byte) (w : Vector Word 8) :
    (codeOperand len w).val.toNat = (codeValue w).toNat % 2 ^ len.toNat := by
  have hle := Nat.mod_le (codeValue w).toNat (2 ^ len.toNat)
  have hlt := (codeValue w).isLt
  rw [codeOperand, BitVec.toNat_ofNat, Nat.mod_eq_of_lt (by omega)]

theorem State.ctAt_writeEntry_same (s : State) (a : Byte) (c : Code) : (s.writeEntry a c).ctAt a = some c := by
  unfold State.writeEntry
  split <;> exact State.ctAt_setCt_same _ a (some c)

/-- Settles O25: the entry that TABLE_WR writes is the one TABLE_RD spreads over CODE_W0..7. -/
theorem tableWrThenTableRd : Obligations.TableWrThenTableRd := by
  intro s hlock hlen
  have hwr : exec .tableWr s =
      .next ((s.writeEntry s.sym (codeOperand s.codeLen s.codeW)).setSync false).succeeds := by
    simp only [exec, execTableWr, ifUnlocked_of_unlocked _ hlock, tableWrite, if_neg hlen, complete_ok]
  refine ⟨_, _, hwr, rfl, ?_⟩
  have hentry : ((s.writeEntry s.sym (codeOperand s.codeLen s.codeW)).setSync false).succeeds.ctAt s.sym =
      some (codeOperand s.codeLen s.codeW) := s.ctAt_writeEntry_same _ _
  have hsym : ((s.writeEntry s.sym (codeOperand s.codeLen s.codeW)).setSync false).succeeds.sym = s.sym :=
    s.writeEntry_sym _ _
  rw [hsym, hentry]
  refine ⟨rfl, (sum_codeWords _).trans ?_⟩
  rw [codeOperand_val_toNat, codeValue_toNat]

end Sys2Proof.Machine

/-! PROOFS. The family 10_state.md: every step keeps the machine's invariant. -/

namespace Sys2Proof.Machine

/-! ### SYM_COUNT and the number of valid entries -/

/-- The valid entries counted, one symbol apart from the others. -/
theorem State.length_validEntries (s : State) (a : Byte) : s.validEntries.length =
    (allSymbols.erase a).countP (fun b => (s.ctAt b).isSome) + if (s.ctAt a).isSome then 1 else 0 := by
  rw [State.validEntries, List.length_filterMap_eq_countP]
  simp only [Option.isSome_map]
  rw [(List.perm_cons_erase (mem_allSymbols a)).countP_eq, List.countP_cons]

/-- An entry written changes the count by that entry only. -/
theorem State.length_validEntries_setCt (s : State) (a : Byte) (c : Code) :
    (s.setCt a (some c)).validEntries.length =
      (allSymbols.erase a).countP (fun b => (s.ctAt b).isSome) + 1 := by
  have others : ∀ b ∈ allSymbols.erase a, ((s.setCt a (some c)).ctAt b).isSome = (s.ctAt b).isSome := fun b hb => by
    rw [s.ctAt_setCt_other _ (allSymbols_nodup.mem_erase_iff.1 hb).1]
  rw [State.length_validEntries _ a, State.ctAt_setCt_same, List.countP_congr fun b hb => by rw [others b hb]]
  rfl

theorem State.length_validEntries_le (s : State) : s.validEntries.length ≤ 256 :=
  (List.length_filterMap_le _ _).trans_eq (by rw [allSymbols, List.length_map, List.length_range])

theorem State.countsTable_of_empty {s : State} (hct : ∀ a, s.ctAt a = none) (hcount : s.symCount = 0) :
    s.CountsTable := by
  have hnil : s.validEntries = [] :=
    List.eq_nil_iff_forall_not_mem.2 fun e he => by simpa [hct] using (s.mem_validEntries e.1 e.2).1 he
  simp [State.CountsTable, hnil, hcount]

/-- A new entry counted keeps SYM_COUNT the number of valid entries (10_state.md R51). -/
theorem State.CountsTable.newEntry {s : State} {a : Byte} (h : s.CountsTable) (hnone : s.ctAt a = none) (c : Code) :
    (s.setCt a (some c)).countSym.CountsTable := by
  have hold := s.length_validEntries a
  have hle := s.length_validEntries_le
  have hnew : (s.setCt a (some c)).countSym.validEntries.length = _ := s.length_validEntries_setCt a c
  have hcount : (s.setCt a (some c)).countSym.symCount.toNat = (s.symCount.toNat + 1) % 2 ^ 9 := BitVec.toNat_add _ _
  simp only [hnone, Option.isSome_none, Bool.false_eq_true, if_false] at hold
  rw [State.CountsTable] at h ⊢
  omega

/-- An entry written over needs no count. -/
theorem State.CountsTable.oldEntry {s : State} {a : Byte} (h : s.CountsTable) (hsome : (s.ctAt a).isSome = true)
    (c : Code) : (s.setCt a (some c)).CountsTable := by
  have hold := s.length_validEntries a
  rw [if_pos hsome] at hold
  rw [State.CountsTable] at h ⊢
  rw [s.length_validEntries_setCt, State.setCt_symCount, h, hold]

/-! ### Legal codes -/

theorem State.TableLegal.setCt {s : State} {a : Byte} {c : Code} (h : s.TableLegal) (hc : c.Legal) :
    (s.setCt a (some c)).TableLegal := by
  intro b d hd
  by_cases hb : b = a
  · subst hb
    rw [State.ctAt_setCt_same] at hd
    exact Option.some.inj hd ▸ hc
  · exact h b d ((s.ctAt_setCt_other _ hb).symm.trans hd)

/-- The code operand is legal where its length is not 0 (30_encoding.md R115). -/
theorem codeOperand_legal {len : Byte} (w : Vector Word 8) (h : len ≠ 0) : (codeOperand len w).Legal := by
  constructor
  · have hne : len.toNat ≠ 0 := fun h0 => h (BitVec.eq_of_toNat_eq h0)
    change 1 ≤ len.toNat
    omega
  · rw [codeOperand_val_toNat]
    exact Nat.mod_lt _ (Nat.two_pow_pos _)

/-- The code of a leaf is legal, where its depth and its path fit it (41_tree_assign.md R174, R178). -/
theorem leafCode_legal {v : Visit} (hd : v.depth ≤ 255) (hp : v.path < 2 ^ v.depth) : (leafCode v).Legal := by
  by_cases h0 : v.depth = 0
  · rw [leafCode, if_pos h0]
    exact ⟨by decide, by decide⟩
  · have hlen : (BitVec.ofNat 8 v.depth).toNat = v.depth := by
      rw [BitVec.toNat_ofNat]
      omega
    rw [leafCode, if_neg h0]
    refine ⟨?_, ?_⟩
    · change 1 ≤ (BitVec.ofNat 8 v.depth).toNat
      omega
    · change (BitVec.ofNat 256 v.path).toNat < 2 ^ (BitVec.ofNat 8 v.depth).toNat
      rw [hlen, BitVec.toNat_ofNat]
      exact (Nat.mod_le _ _).trans_lt hp

theorem Visit.path_child_lt {v : Visit} (h : v.path < 2 ^ v.depth) (b : Bool) (c : Slot) :
    (v.child b c).path < 2 ^ (v.child b c).depth := by
  have hb := b.toNat_lt
  change 2 * v.path + b.toNat < 2 ^ (v.depth + 1)
  rw [Nat.pow_succ]
  omega

/-! ### What is kept while a command runs -/

/-- The invariant without its part about a pending command: what every part of a command keeps. -/
structure State.Lasting (s : State) : Prop where
  buffers : s.BuffersWf
  legal : s.TableLegal
  counts : s.CountsTable
  masked : s.NodesMasked
  recorded : s.ErrorRecorded
  outLen : s.outLen.toNat ≤ s.cfg.obufBytes
  nodeCount : s.nodeCount.toNat ≤ 511
  rooted : s.SyncRooted

theorem State.Inv.lasting {s : State} (h : s.Inv) : s.Lasting :=
  ⟨h.buffers, h.legal, h.counts, h.masked, h.recorded, h.outLen, h.nodeCount, h.rooted⟩

theorem State.Lasting.inv {s : State} (h : s.Lasting) (hclean : s.IssueClean) : s.Inv :=
  ⟨h.buffers, h.legal, h.counts, h.masked, hclean, h.recorded, h.outLen, h.nodeCount, h.rooted⟩

/-- A completion meets the invariant: nothing is pending, and an error has its code (60_exceptions.md R304). -/
theorem complete_inv {r : CmdResult Unit} {t : State} (hr : r.All State.Lasting) (h : complete r = .next t) :
    t.Inv := by
  obtain ⟨u, hu, rfl | ⟨c, info, rfl⟩⟩ := hr.complete h
  · exact State.Lasting.inv { hu with buffers := hu.buffers } fun hb => by cases hb
  · refine State.Lasting.inv { hu with recorded := ⟨errNumber_le c, fun _ => errNumber_ne_zero c, fun h0 => ?_⟩ }
      fun hb => by cases hb
    exact absurd h0 (errNumber_ne_zero c)

theorem State.syncRooted_of_clear {s : State} (h : s.sync = false) : s.SyncRooted := fun hs => by
  cases h.symm.trans hs

/-- A tree that decodes a counted table of at least one symbol is rooted as SYNC = 1 asks: a root that is a leaf has
one symbol only (10_state.md R37). -/
theorem State.TreeMatches.syncRooted {s : State} (h : s.TreeMatches) (hcounts : s.CountsTable)
    (hone : 1 ≤ s.symCount.toNat) : s.SyncRooted := by
  obtain ⟨r, hr⟩ := h.rooted
  have hroot : s.reach [] = some r := s.reach_nil.trans hr
  refine fun _ => ⟨hone, r, hr, h.used [] r hroot, fun htwo => Bool.eq_false_iff.2 fun hl => ?_⟩
  have sole : ∀ b c, s.ctAt b = some c → b = nodeSym (s.tmAt r) := by
    intro b c hc
    obtain ⟨p, ⟨n, hn, -, rfl⟩, -⟩ := h.codeLeaf b c hc
    rw [State.reach_of_root hr, walkTree_of_leaf hl] at hn
    rw [hn.2]
  have none_else : (allSymbols.erase (nodeSym (s.tmAt r))).countP (fun b => (s.ctAt b).isSome) = 0 := by
    refine List.countP_eq_zero.2 fun b hb hsome => ?_
    obtain ⟨c, hc⟩ := Option.isSome_iff_exists.1 hsome
    exact (allSymbols_nodup.mem_erase_iff.1 hb).1 (sole b c hc)
  have hlen := s.length_validEntries (nodeSym (s.tmAt r))
  rw [none_else] at hlen
  rw [State.CountsTable] at hcounts
  split at hlen <;> omega

/-! ### Each command's part -/

theorem State.Lasting.clearTable {s : State} (h : s.Lasting) : (s.clearTable.setSync false).Lasting :=
  { h with
    legal := fun a c hc => by cases (s.ctAt_clearTable a).symm.trans hc
    counts := State.countsTable_of_empty s.ctAt_clearTable rfl
    rooted := State.syncRooted_of_clear rfl }

theorem State.Lasting.clearTree {s : State} (h : s.Lasting) : (s.clearTree.setSync false).Lasting :=
  { h with
    masked := ⟨h.masked.1, fun n => by
      have hzero : (s.clearTree.setSync false).tmAt n = 0 := s.tmAt_clearTree n
      rw [hzero]
      exact BitVec.zero_and⟩
    nodeCount := by simp
    rooted := State.syncRooted_of_clear rfl }

theorem State.Lasting.writeEntry {s : State} (h : s.Lasting) (a : Byte) {c : Code} (hc : c.Legal) :
    ((s.writeEntry a c).setSync false).Lasting := by
  unfold State.writeEntry
  split
  next hsome =>
    exact { h with
      legal := h.legal.setCt hc
      counts := h.counts.oldEntry hsome c
      rooted := State.syncRooted_of_clear rfl }
  next hnone =>
    exact { h with
      legal := h.legal.setCt hc
      counts := h.counts.newEntry (Option.not_isSome_iff_eq_none.1 hnone) c
      rooted := State.syncRooted_of_clear rfl }

theorem tableWrite_lasting {s : State} (h : s.Lasting) : (tableWrite s).All State.Lasting := by
  unfold tableWrite
  split
  · exact h
  next hlen => exact h.writeEntry _ (codeOperand_legal _ hlen)

theorem State.Lasting.readEntry {s : State} (h : s.Lasting) (e : Option Code) : (s.readEntry e).Lasting := by
  cases e <;> exact { h with buffers := h.buffers }

/-- A masked word written leaves every slot masked (10_state.md R60). -/
theorem State.setTm_masked {s : State} {w : Word} (h : ∀ m, s.tmAt m &&& nodeMask = s.tmAt m)
    (hw : w &&& nodeMask = w) (n m : Slot) : (s.setTm n w).tmAt m &&& nodeMask = (s.setTm n w).tmAt m := by
  by_cases hm : m = n
  · rw [hm, s.tmAt_setTm_same, hw]
  · rw [s.tmAt_setTm_other w hm, h m]

theorem nodeWrite_lasting {s : State} (h : s.Lasting) : (nodeWrite s).All State.Lasting := by
  unfold nodeWrite
  split
  · exact h
  next n _ =>
    exact { h with
      masked := ⟨h.masked.1, State.setTm_masked h.masked.2 h.masked.1 n⟩
      rooted := State.syncRooted_of_clear rfl }

theorem nodeRead_lasting {s : State} (h : s.Lasting) : (nodeRead s).All State.Lasting := by
  unfold nodeRead
  split
  · exact h
  next n _ =>
    exact { h with masked := ⟨h.masked.2 n, h.masked.2⟩ }

/-- What ASSIGN's walk keeps with `k` slots left: SYNC is 0, NODE_COUNT has room for the slots left, and each stacked
path fits its depth (41_tree_assign.md R174). -/
structure WalkInv (k : Nat) (stack : List Visit) (s : State) : Prop where
  lasting : s.Lasting
  sync : s.sync = false
  room : s.nodeCount.toNat + k ≤ 511
  paths : ∀ v ∈ stack, v.path < 2 ^ v.depth

/-- A slot counted with `k + 1` slots left. -/
theorem WalkInv.countNode {k : Nat} {stack : List Visit} {s : State} (h : WalkInv (k + 1) stack s) :
    WalkInv k stack s.countNode := by
  have hroom := h.room
  have hcount : s.countNode.nodeCount.toNat = (s.nodeCount.toNat + 1) % 2 ^ 10 := BitVec.toNat_add _ _
  exact ⟨{ h.lasting with nodeCount := by omega }, h.sync, by omega, h.paths⟩

theorem WalkInv.assignLeaf {k : Nat} {v : Visit} {stack : List Visit} {s : State} (hd : v.depth ≤ 255)
    (hnone : s.ctAt (nodeSym (s.tmAt v.slot)) = none) (h : WalkInv (k + 1) (v :: stack) s) :
    WalkInv k stack (s.assignLeaf v) := by
  obtain ⟨hl, hsync, hroom, -⟩ := h.countNode
  refine ⟨{ hl with legal := ?_, counts := ?_, rooted := State.syncRooted_of_clear hsync }, hsync, hroom,
    fun u hu => h.paths u (List.mem_cons_of_mem v hu)⟩
  · exact hl.legal.setCt (leafCode_legal hd (h.paths v List.mem_cons_self))
  · exact hl.counts.newEntry hnone (leafCode v)

theorem WalkInv.pushChildren {k : Nat} {v : Visit} {stack : List Visit} {s : State}
    (h : WalkInv (k + 1) (v :: stack) s) :
    WalkInv k (pushChildren (s.tmAt v.slot) v stack) s.countNode := by
  obtain ⟨hl, hsync, hroom, hpaths⟩ := h.countNode
  refine ⟨hl, hsync, hroom, fun u hu => ?_⟩
  obtain ⟨b, c, -, rfl⟩ | hu := mem_pushChildren.1 hu
  · exact Visit.path_child_lt (hpaths v List.mem_cons_self) b c
  · exact hpaths u (List.mem_cons_of_mem v hu)

theorem State.Lasting.assignStart {s : State} (h : s.Lasting) :
    WalkInv 511 (pushChild (slotOf s.root) 0 0 []) s.assignStart := by
  refine ⟨{ h.clearTable with nodeCount := by simp, rooted := State.syncRooted_of_clear rfl }, rfl, by simp,
    fun v hv => ?_⟩
  cases hr : slotOf s.root with
  | none => simp [hr, pushChild] at hv
  | some r =>
    rw [hr] at hv
    obtain rfl := List.mem_singleton.1 hv
    exact Nat.two_pow_pos 0

theorem assignCodes_lasting {s : State} (h : s.Lasting) : (assignCodes s).All State.Lasting := by
  have walk : (assignWalk 511 [] (pushChild (slotOf s.root) 0 0 []) s.assignStart).All State.Lasting :=
    assignWalk_all (P := WalkInv) (fun _ _ _ h => h.lasting) (fun _ _ _ _ h => h.countNode.lasting)
      (fun _ _ _ _ hd hnone h => h.assignLeaf hd hnone) (fun _ _ _ _ h => h.pushChildren) h.assignStart
  cases hr : assignCodes s with
  | ok a t =>
    have hm := assignCodes_ok_treeMatches hr
    obtain ⟨u, hwalk, hcount, rfl⟩ := assignCodes_ok hr
    have hu := walk.of_ok hwalk
    have hone : u.symCount.toNat ≠ 0 := fun h0 => hcount (BitVec.eq_of_toNat_eq h0)
    exact { hu with rooted := hm.syncRooted hu.counts (Nat.one_le_iff_ne_zero.2 hone) }
  | error c info t =>
    obtain hwalk | hwalk := assignCodes_error hr
    · exact walk.of_error hwalk
    · exact walk.of_ok hwalk
  | stop f => trivial

theorem State.Lasting.graft {s : State} (h : s.Lasting) (hsync : s.sync = false) (n : Slot) (b : Bool) {w : Word}
    (c : Slot) (hw : w &&& nodeMask = w) : (s.graft n b w c).Lasting := by
  have hchild := State.setTm_masked h.masked.2 hw c
  have hmasked := State.setTm_masked hchild (linkWord_masked b c (hchild n)) n
  refine { h with
    masked := ⟨h.masked.1, hmasked⟩
    nodeCount := ?_
    rooted := State.syncRooted_of_clear hsync }
  have hc := c.isLt
  change (BitVec.ofNat 10 (c.val + 1)).toNat ≤ 511
  rw [BitVec.toNat_ofNat]
  omega

/-- BUILD starts its trie in a state that meets the invariant. -/
theorem State.Lasting.buildStart {s : State} (h : s.Lasting) : s.buildStart.Lasting :=
  { h.clearTree with
    masked := ⟨h.masked.1, State.setTm_masked h.clearTree.masked.2 (by decide) 0⟩
    nodeCount := (by decide : (BitVec.ofNat 10 1).toNat ≤ 511)
    rooted := State.syncRooted_of_clear rfl }

theorem buildTree_lasting {s : State} (h : s.Lasting) : (buildTree s).All State.Lasting := by
  have entries : (buildEntries s.validEntries 1 s.buildStart).All fun u => u.Lasting ∧ u.sync = false :=
    buildEntries_all (fun _ n b _ c hw hu => ⟨hu.1.graft hu.2 n b c hw, hu.2⟩) ⟨h.buildStart, rfl⟩
  cases hr : buildTree s with
  | ok a t =>
    have hm := buildTree_ok_treeMatches h.legal hr
    obtain ⟨hcount, next, u, hbuild, rfl⟩ := buildTree_ok hr
    obtain ⟨hu, -⟩ := entries.of_ok hbuild
    have hsame : u.symCount = s.symCount := by rw [(buildEntries_treeOnly _ _ _).of_ok hbuild]; rfl
    have hone : u.symCount.toNat ≠ 0 := fun h0 => hcount (hsame ▸ BitVec.eq_of_toNat_eq h0)
    exact { hu with rooted := hm.syncRooted hu.counts (Nat.one_le_iff_ne_zero.2 hone) }
  | error c info t =>
    obtain rfl | hbuild := buildTree_error hr
    · exact { h.clearTree with rooted := State.syncRooted_of_clear rfl }
    · exact (entries.of_error hbuild).1
  | stop f => trivial

/-- Output bytes inside OBUF keep what lasts. -/
theorem Emitted.lasting {s t : State} (h : Emitted s t) (hs : s.Lasting) : t.Lasting := by
  obtain ⟨hout, hin, -, -, hwf⟩ := h
  have hobuf := hwf hs.buffers.2
  rw [State.OutInside] at hin
  rw [hout.cfg] at hin hobuf
  rw [hout]
  exact { hs with buffers := ⟨hs.buffers.1, hobuf⟩, outLen := hin }

theorem encodeStream_lasting {s : State} (h : s.Lasting) : (encodeStream s).All State.Lasting := by
  refine (encodeStream_frame s).imp fun t ht => ?_
  obtain rfl | ht := ht
  · exact h
  · exact ht.lasting { h with outLen := s.encodeStart_outInside }

theorem decodeStream_lasting {s : State} (h : s.Lasting) : (decodeStream s).All State.Lasting := by
  refine (decodeStream_frame s).imp fun t ht => ?_
  obtain rfl | ht := ht
  · exact h
  · exact ht.lasting { h with outLen := s.decodeStart_outInside }

/-- Every command that answers a next state leaves the invariant. -/
theorem exec_inv {i : Instr} {s t : State} (hs : s.Lasting) (h : exec i s = .next t) : t.Inv := by
  cases i with
  | nop => exact complete_inv (r := .ok () s) hs h
  | tableClear => exact complete_inv (ifUnlocked_all (r := .ok () _) hs hs.clearTable) h
  | tableWr => exact complete_inv (ifUnlocked_all hs (tableWrite_lasting hs)) h
  | tableRd => exact complete_inv (r := .ok () (s.readEntry (s.ctAt s.sym))) (hs.readEntry _) h
  | treeClear => exact complete_inv (ifUnlocked_all (r := .ok () _) hs hs.clearTree) h
  | nodeWr => exact complete_inv (ifUnlocked_all hs (nodeWrite_lasting hs)) h
  | nodeRd => exact complete_inv (nodeRead_lasting hs) h
  | assign => exact complete_inv (ifUnlocked_all hs (assignCodes_lasting hs)) h
  | build => exact complete_inv (ifUnlocked_all hs (buildTree_lasting hs)) h
  | encode => exact complete_inv (encodeStream_lasting hs) h
  | decode => exact complete_inv (decodeStream_lasting hs) h

/-! ### Steps of the world outside -/

theorem QuietOnly.inv {s t : State} (hq : QuietOnly s t) (h : s.Inv) : t.Inv := by
  rw [hq]
  exact { h with buffers := h.buffers }

theorem State.Inv.writeStatus {s : State} (h : s.Inv) (d : Word) : (s.writeStatus d).Inv := by
  obtain ⟨hcode, herr, hinfo⟩ := h.recorded
  refine { h with clean := fun hb => ?_, recorded := ⟨hcode, fun he => herr ?_, hinfo⟩ }
  · obtain ⟨hdone, herr0, hcode0, hinfo0⟩ := h.clean hb
    exact ⟨by simp [hdone], by simp [herr0], hcode0, hinfo0⟩
  · simp only [State.writeStatus_err, Bool.and_eq_true] at he
    exact he.1

theorem portWrite_inv {s : State} (h : s.Inv) (b : Buf) (v : Byte) : (portWrite b v s).Inv := by
  unfold portWrite
  dsimp only
  cases b <;> split
  next hlt => exact { h with buffers := ⟨Memory.write_wf v h.buffers.1 hlt, h.buffers.2⟩ }
  · exact { h with buffers := h.buffers }
  next hlt => exact { h with buffers := ⟨h.buffers.1, Memory.write_wf v h.buffers.2 hlt⟩ }
  · exact { h with buffers := h.buffers }

theorem writeRoot_inv {s : State} (h : s.Inv) (d : Word) : (writeRoot d s).Inv := by
  unfold writeRoot
  split
  · exact h
  · exact { h with rooted := State.syncRooted_of_clear rfl }

/-- Issue clears what the invariant asks to be clear while busy (40_control.md R147). -/
theorem State.Inv.issue {s : State} (h : s.Inv) (d : Word) : (s.issue d).Inv :=
  { h with clean := fun _ => ⟨rfl, rfl, rfl, rfl⟩, recorded := ⟨by simp, (fun he => by cases he), fun _ => rfl⟩ }

theorem writeReg_inv {s : State} (h : s.Inv) (r : Reg) (d : Word) : (writeReg r d s).Inv := by
  cases r with
  | status => exact h.writeStatus d
  | cmd => exact h.issue d
  | nodeData =>
    have hmask : d &&& nodeMask &&& nodeMask = d &&& nodeMask := by rw [BitVec.and_assoc, BitVec.and_self]
    exact { h with masked := ⟨hmask, h.masked.2⟩ }
  | root => exact writeRoot_inv h d
  | bufAddr b => cases b <;> exact { h with buffers := h.buffers }
  | bufData b => exact portWrite_inv h b _
  | _ => exact { h with buffers := h.buffers }

theorem hostWrite_inv {s : State} (h : s.Inv) (off : Nat) (d : Word) : (hostWrite off d s).Inv := by
  obtain ⟨-, e⟩ | ⟨-, -, e⟩ | ⟨-, e⟩ | ⟨-, r, -, -, e⟩ := hostWrite_cases off d s <;> rw [e]
  · exact h.writeStatus d
  · exact { h with buffers := h.buffers }
  · exact h
  · exact writeReg_inv h r d

/-- Reset meets the invariant, whatever the block was doing (70_reset_and_hazards.md R340). -/
theorem State.hardReset_inv (s : State) : s.hardReset.Inv where
  buffers := ⟨Memory.nil_wf _, Memory.nil_wf _⟩
  legal a c hc := by simp [State.ctAt] at hc
  counts := State.countsTable_of_empty (fun a => by simp [State.ctAt]) rfl
  masked := ⟨by simp, fun n => by simp [State.tmAt]⟩
  clean hb := by cases hb
  recorded := ⟨by simp, (fun he => by cases he), fun _ => rfl⟩
  outLen := by simp
  nodeCount := by simp
  rooted := State.syncRooted_of_clear rfl

/-- Settles O58: a command by what its parts keep, a step of the world outside register by register, reset by its
values. -/
theorem stepKeepsInvariant : Obligations.StepKeepsInvariant := by
  intro s t hinv hstep
  have htick : s.tick.Inv := s.tick_quietOnly.inv hinv
  obtain hq | ⟨i, -, he⟩ | ⟨w, -, rfl⟩ | ⟨a, rest, d, off, -, -, -, rfl⟩ | ⟨rest, -, rfl⟩ := step_effect hstep
  · exact hq.inv hinv
  · exact exec_inv htick.lasting he
  · exact complete_inv (r := .error .illegalCmd w s.tick) htick.lasting rfl
  · exact hostWrite_inv (s := s.tick.setInputs rest) { htick with buffers := htick.buffers } off d
  · exact State.hardReset_inv _

end Sys2Proof.Machine

/-! PROOFS. The family 20_memory.md: what the host can do while a command is pending, that the pending command ends,
and which accesses have a meaning. -/

namespace Sys2Proof.Machine

/-! ### What the host can change while busy -/

/-- Nothing but DONE, ERR, OVR and the model's own fields of the world outside differs, and DONE and ERR do not rise;
the scheduler's list is the same. -/
def BusyHostOnly (s t : State) : Prop :=
  t = { s with
    done := t.done, err := t.err, ovr := t.ovr, draws := t.draws, inputs := t.inputs, rdata := t.rdata } ∧
  (t.done = true → s.done = true) ∧ (t.err = true → s.err = true)

theorem BusyHostOnly.trans {s t u : State} (h₁ : BusyHostOnly s t) (h₂ : BusyHostOnly t u) : BusyHostOnly s u := by
  obtain ⟨hframe₁, hdone₁, herr₁⟩ := h₁
  obtain ⟨hframe₂, hdone₂, herr₂⟩ := h₂
  exact ⟨Eq.trans hframe₂ (by rw [hframe₁]), hdone₁ ∘ hdone₂, herr₁ ∘ herr₂⟩

theorem State.setInputs_busyHostOnly (s : State) (is : List Input) : BusyHostOnly s (s.setInputs is) :=
  ⟨rfl, id, id⟩

theorem State.writeStatus_busyHostOnly (s : State) (d : Word) : BusyHostOnly s (s.writeStatus d) :=
  ⟨rfl, fun h => by simp_all, fun h => by simp_all⟩

theorem readBusy_busyHostOnly (off : Nat) (s : State) : BusyHostOnly s (readBusy off s).2 := by
  unfold readBusy
  split <;> exact ⟨rfl, id, id⟩

/-- A read or a write while busy (40_control.md R144, R145). -/
theorem accessOffset_busyHostOnly {s : State} (hb : s.busy = true) (off : Nat) (dir : Dir) :
    BusyHostOnly s (accessOffset off dir s) := by
  cases dir with
  | read =>
    have hread : hostRead off s = readBusy off s := if_pos hb
    simp only [accessOffset, hread]
    exact (readBusy_busyHostOnly off s).trans ⟨rfl, id, id⟩
  | write d =>
    show BusyHostOnly s (hostWrite off d s)
    obtain ⟨-, e⟩ | ⟨-, -, e⟩ | ⟨hidle, -⟩ | ⟨hidle, -⟩ := hostWrite_cases off d s
    · exact e ▸ s.writeStatus_busyHostOnly d
    · exact e ▸ ⟨rfl, id, id⟩
    · exact absurd hb (by simp [hidle])
    · exact absurd hb (by simp [hidle])

theorem hostStep_busyHostOnly {s t : State} {i : Input} {rest : List Input} (hb : s.busy = true) (hi : i ≠ .reset)
    (h : hostStep i rest s = .next t) : BusyHostOnly s t := by
  obtain ⟨a, -, -, rfl⟩ | ⟨-, rfl⟩ | ⟨hreset, -⟩ := hostStep_eq_next.1 h
  · exact (s.setInputs_busyHostOnly rest).trans (accessOffset_busyHostOnly (s := s.setInputs rest) hb _ _)
  · exact (accessOffset_busyHostOnly hb _ .read).trans (State.setInputs_busyHostOnly _ _)
  · exact absurd hreset hi

/-- A busy step of the world outside uses up one choice of the scheduler and else keeps the operands, the tables, the
buffers and the pending command. -/
theorem step_busyHostOnly {s t : State} {i : Input} {rest : List Input} (hb : s.busy = true)
    (hturn : s.turn = .host i rest) (hi : i ≠ .reset) (h : step s = .next t) :
    BusyHostOnly { s with sched := s.sched.tail } t := by
  rw [step_of_turn_host hturn, State.tick_of_busy hb] at h
  exact hostStep_busyHostOnly (s := { s with sched := s.sched.tail }) hb hi h

/-- Settles O18: `step_busyHostOnly` with the scheduler's list left open. -/
theorem busyHostStepsKeepOperands : Obligations.BusyHostStepsKeepOperands := by
  intro s t i rest hb hturn hi hstep
  obtain ⟨hframe, hflags⟩ := step_busyHostOnly hb hturn hi hstep
  exact ⟨Eq.trans hframe (by rw [hframe]), hflags⟩

/-! ### A pending command ends -/

theorem complete_busy {r : CmdResult Unit} {t : State} (h : complete r = .next t) : t.busy = false := by
  obtain ⟨u, -, rfl⟩ | ⟨c, info, u, -, rfl⟩ := complete_eq_next.1 h <;> rfl

/-- Every command that answers has completed (40_control.md R148). -/
theorem exec_busy {i : Instr} {s t : State} (h : exec i s = .next t) : t.busy = false := by
  cases i with
  | nop => exact complete_busy (r := .ok () s) h
  | tableRd => exact complete_busy (r := .ok () (s.readEntry (s.ctAt s.sym))) h
  | _ => exact complete_busy h

/-- A busy step ends the command, or uses up one choice of the scheduler. -/
theorem step_of_busy {s t : State} (hb : s.busy = true) (h : step s = .next t) :
    t.busy = false ∨ (t.busy = true ∧ s.sched.length = t.sched.length + 1) := by
  have hpending : s.pending ≠ none := by simpa [State.busy, Option.isSome_iff_ne_none] using hb
  obtain ⟨hturn, -⟩ | ⟨w, i, -, -, e⟩ | ⟨w, _, -, -, e⟩ | ⟨i, rest, hturn, e⟩ := step_cases s
  · exact absurd (State.turn_idle.1 hturn).1 hpending
  · exact .inl (exec_busy (e.symm.trans h))
  · cases e.symm.trans h
    exact .inl rfl
  · by_cases hi : i = .reset
    · subst hi
      cases e.symm.trans h
      exact .inl rfl
    · obtain ⟨hframe, -⟩ := step_busyHostOnly hb hturn hi h
      have hchosen : s.sched.head? = some .host := (State.turn_host.1 hturn).2.resolve_left hpending
      obtain ⟨rest', hsched⟩ := List.head?_eq_some_iff.1 hchosen
      rw [hframe]
      exact .inr ⟨hb, by simp [hsched]⟩

theorem run_of_step {s u : State} (h : step s = .next u) (k : Nat) : core.run (k + 1) s = core.run k u := by
  have hcore : core.step s = .next u := h
  simp only [Host.Core.run, hcore]

theorem step_of_run {s t : State} {k : Nat} (h : core.run (k + 1) s = .next t) :
    ∃ u, step s = .next u ∧ core.run k u = .next t := by
  simp only [Host.Core.run] at h
  split at h
  next u hstep => exact ⟨u, hstep, h⟩
  · cases h
  · cases h

/-- A run longer than the scheduler's list comes to BUSY = 0. -/
theorem run_reaches_idle {n : Nat} {s t : State} (hb : s.busy = true) (hn : s.sched.length = n)
    (h : core.run (n + 1) s = .next t) : ∃ k u, k ≤ n + 1 ∧ core.run k s = .next u ∧ u.busy = false := by
  induction n generalizing s with
  | zero =>
    obtain ⟨u, hstep, -⟩ := step_of_run h
    obtain hu | ⟨-, hlen⟩ := step_of_busy hb hstep
    · exact ⟨1, u, by omega, run_of_step hstep 0, hu⟩
    · omega
  | succ n ih =>
    obtain ⟨u, hstep, hrun⟩ := step_of_run h
    obtain hu | ⟨hu, hlen⟩ := step_of_busy hb hstep
    · exact ⟨1, u, by omega, run_of_step hstep 0, hu⟩
    · obtain ⟨k, v, hk, hv, hidle⟩ := ih hu (by omega) hrun
      exact ⟨k + 1, v, by omega, (run_of_step hstep k).trans hv, hidle⟩

/-- Settles O10, by induction on the scheduler's list. -/
theorem engineEventuallyMoves : Obligations.EngineEventuallyMoves := fun _ _ hb h => run_reaches_idle hb rfl h

/-! ### Which accesses have a meaning -/

/-- An access that is taken is HostAccess, after the input and, while busy, one choice of the scheduler are used up. -/
theorem step_access {s : State} {a : Access} {rest : List Input} (hin : s.inputs = .access a :: rest)
    (hturn : s.pending = none ∨ s.sched.head? = some .host) :
    step s = hostAccess a { s with inputs := rest, sched := if s.busy then s.sched.tail else s.sched } := by
  rw [step_of_turn_host (State.turn_host.2 ⟨hin, hturn⟩)]
  show hostAccess a (s.tick.setInputs rest) = _
  cases hb : s.busy with
  | false =>
    rw [State.tick_of_idle hb]
    rfl
  | true =>
    rw [State.tick_of_busy hb]
    rfl

/-- Settles O12: `step_access`, and then one clause per branch of HostAccess. -/
theorem onlyWordAccessesInWindow : Obligations.OnlyWordAccessesInWindow := by
  intro s u a rest hin hturn hu
  have hcfg : u.cfg = s.cfg := by rw [hu]
  rw [step_access hin hturn, ← hu, hostAccess, hcfg]
  refine ⟨fun ⟨hbits, hbeats, hlow, hhigh, haligned⟩ => ?word, fun hbits => if_pos hbits,
    fun hbits hbeats => ?burst, fun hbits hbeats hout => ?outside, fun hbits hbeats hlow hhigh hoff => ?misaligned⟩
  case word =>
    have hwindow : ¬ (a.addr < s.cfg.base ∨ s.cfg.base + 256 ≤ a.addr) := by omega
    simp only [hbits, hbeats, hwindow, haligned, ne_eq, not_true_eq_false, if_false]
    refine ⟨fun hread => ?_, fun d hwrite => ?_⟩
    · rw [hread]
      rfl
    · rw [hwrite]
      rfl
  case burst => simp [hbits, hbeats]
  case outside => simp [hbits, hbeats, hout]
  case misaligned =>
    have hwindow : ¬ (a.addr < s.cfg.base ∨ s.cfg.base + 256 ≤ a.addr) := by omega
    simp only [hbits, hbeats, hwindow, hoff, ne_eq, not_true_eq_false, not_false_eq_true, if_false, if_true]

end Sys2Proof.Machine

/-! PROOFS. The family 30_encoding.md: the opcode map, illegal words, what each command can write, and WAIT. -/

namespace Sys2Proof

/-! ### The opcode map -/

/-- A word is its two fields side by side (30_encoding.md R110). -/
theorem eq_append_iff_fields {w : Word} {r : BitVec 24} {op : Byte} :
    w = r ++ op ↔ rsvdField w = r ∧ opcodeField w = op := by
  constructor
  · rintro rfl
    exact ⟨BitVec.extractLsb'_append_eq_left, BitVec.extractLsb'_append_eq_right⟩
  · rintro ⟨rfl, rfl⟩
    have h : rsvdField w ++ opcodeField w = w.extractLsb' 0 (24 + 8) :=
      BitVec.extractLsb'_append_extractLsb'_eq_extractLsb' rfl
    rw [h, BitVec.extractLsb'_eq_self]

theorem instrOfOpcode_eq_some {op : Byte} {i : Instr} : instrOfOpcode op = some i ↔ op = i.opcode := by
  constructor
  · intro h
    apply BitVec.eq_of_toNat_eq
    unfold instrOfOpcode at h
    split at h <;> cases h <;> assumption
  · rintro rfl
    cases i <;> rfl

/-- The decoder asks for RSVD = 0 and for an OPCODE of the map (40_control.md R149). -/
theorem decode_eq_ok {w : Word} {i : Instr} :
    decode w = .ok i ↔ rsvdField w = 0 ∧ instrOfOpcode (opcodeField w) = some i := by
  unfold decode
  split
  next hr => simp only [reduceCtorEq, hr, false_and]
  next hr =>
    have hr : rsvdField w = 0 := not_not.1 hr
    split
    next j hj => simp [hr, hj]
    next hj => simp [hj]

theorem decode_eq_ok_iff_encode {w : Word} {i : Instr} : decode w = .ok i ↔ w = encode i := by
  rw [decode_eq_ok, instrOfOpcode_eq_some, encode, eq_append_iff_fields]

/-- Settles O2: `decode_eq_ok_iff_encode`, and the eleven words by evaluation. -/
theorem opcodeMapIsExact : Obligations.OpcodeMapIsExact :=
  ⟨fun _ _ => decode_eq_ok_iff_encode, rfl, rfl, rfl, rfl, rfl, rfl, rfl, rfl, rfl, rfl, rfl⟩

theorem decode_encode (i : Instr) : decode (encode i) = .ok i := decode_eq_ok_iff_encode.2 rfl

/-- Settles O1: the commands' words by `decode_encode`, the illegal ones by evaluation. -/
theorem sampleWordsDecode : Obligations.SampleWordsDecode :=
  ⟨decode_encode .nop, decode_encode .tableWr, decode_encode .nodeWr, decode_encode .assign, decode_encode .encode,
    decode_encode .decode, rfl, rfl, rfl⟩

/-! ### Illegal words -/

theorem Instr.opcode_lt (i : Instr) : i.opcode.toNat < 0x0B := by cases i <;> decide

/-- A word with OPCODE outside the map or RSVD other than 0 selects no command (30_encoding.md R112). -/
theorem exists_decode_eq_error {w : Word} (h : 0x0B ≤ (opcodeField w).toNat ∨ rsvdField w ≠ 0) :
    ∃ e, decode w = .error e := by
  cases hd : decode w with
  | error e => exact ⟨e, rfl⟩
  | ok i =>
    obtain ⟨hrsvd, hop⟩ := eq_append_iff_fields.1 (decode_eq_ok_iff_encode.1 hd)
    obtain h | h := h
    · exact absurd (hop ▸ i.opcode_lt) (Nat.not_lt.2 h)
    · exact absurd hrsvd h

end Sys2Proof

namespace Sys2Proof.Machine

/-- A write of CMD while idle issues its word, whatever the word is (40_control.md R147). -/
theorem hostWrite_cmd_of_idle {s : State} (hp : s.pending = none) (w : Word) :
    hostWrite (Reg.offset .cmd) w s = s.issue w := by
  have hb : s.busy = false := by simp [State.busy, hp]
  simp [hostWrite, hb, writeIdle, writeReg]

/-- The ENGINE's step executes the pending word, after one choice of the scheduler is used up (log 1). -/
theorem step_of_turn_engine {s : State} {w : Word} (h : s.turn = .engine w) :
    step s = engineStep w { s with sched := s.sched.tail } := by
  obtain ⟨hp, -⟩ := State.turn_engine.1 h
  have hb : s.busy = true := by simp [State.busy, hp]
  rw [← State.tick_of_busy hb]
  simp [step, h]

/-- Settles O3: such a word is issued like any other, and `exists_decode_eq_error` sends its ENGINE step to
ILLEGAL_CMD. -/
theorem illegalWordsRaiseIllegalCmd : Obligations.IllegalWordsRaiseIllegalCmd := by
  intro w s hw
  obtain ⟨e, he⟩ := exists_decode_eq_error hw
  refine ⟨fun hp => hostWrite_cmd_of_idle hp w, fun hturn => ?_⟩
  rw [step_of_turn_engine hturn, engineStep_illegal he]

/-! ### WAIT -/

/-- STATUS reads exactly and without effect, busy or idle (40_control.md R141, R144). -/
theorem hostRead_status (s : State) : hostRead (Reg.offset .status) s = (s.statusWord, s) := by
  unfold hostRead readBusy readIdle
  rw [regAt_offset]
  exact ite_self _

/-- Bit 0 of STATUS is BUSY (10_state.md R36). -/
theorem State.getLsbD_statusWord_zero (s : State) : s.statusWord.getLsbD 0 = s.busy := by
  simp [State.statusWord, bitAt]

/-- Settles O19: the read by `hostRead_status`, the repetition by `State.getLsbD_statusWord_zero`. -/
theorem waitPollsBusy : Obligations.WaitPollsBusy := by
  intro s rest
  have hpass : hostWait s rest = (s.setRdata s.statusWord).setInputs (if s.busy then .wait :: rest else rest) := by
    rw [hostWait, accessOffset, hostRead_status, State.getLsbD_statusWord_zero]
  exact ⟨_, congrArg Host.Outcome.next hpass, rfl, rfl, rfl⟩

/-! ### What each command can write -/

/-- Where every state that the parts of a command leave is fixed by `f`, and `f` does not look at what a completion
records, the next state is fixed by `f` but for that. -/
theorem complete_frame {f : State → State} {r : CmdResult Unit} {t : State} (hr : r.All fun u => u = f u)
    (hf : ∀ u e code info, f (u.completedWith e code info) = f u) (h : complete r = .next t) :
    t = (f t).completedWith t.err t.errCode t.errInfo := by
  obtain ⟨u, e, code, info, hu, rfl⟩ := hr.completion h
  rw [hf]
  exact congrArg (·.completedWith e code info) hu

/-- Nothing but CT, SYM_COUNT and SYNC differs. -/
def EntriesOnly (s t : State) : Prop := t = { s with ct := t.ct, symCount := t.symCount, sync := t.sync }

/-- Nothing but TM and SYNC differs. -/
def SlotsOnly (s t : State) : Prop := t = { s with tm := t.tm, sync := t.sync }

/-- Nothing but TM, NODE_COUNT and SYNC differs. -/
def SlotsAndCountOnly (s t : State) : Prop := t = { s with tm := t.tm, nodeCount := t.nodeCount, sync := t.sync }

/-- Nothing but NODE_DATA differs. -/
def NodeDataOnly (s t : State) : Prop := t = { s with nodeData := t.nodeData }

/-- Nothing but OBUF and OUT_LEN differs. -/
def BytesOnly (s t : State) : Prop := t = { s with obuf := t.obuf, outLen := t.outLen }

theorem State.clearTable_entriesOnly (s : State) :
    (CmdResult.ok () (s.clearTable.setSync false)).All (EntriesOnly s) := rfl

theorem State.clearTree_slotsAndCountOnly (s : State) :
    (CmdResult.ok () (s.clearTree.setSync false)).All (SlotsAndCountOnly s) := rfl

theorem tableWrite_entriesOnly (s : State) : (tableWrite s).All (EntriesOnly s) := by
  unfold tableWrite
  split
  · exact (rfl : EntriesOnly s s)
  · unfold State.writeEntry
    split
    · exact (rfl : EntriesOnly s ((s.setCt _ _).setSync false))
    · exact (rfl : EntriesOnly s ((s.countSym.setCt _ _).setSync false))

theorem nodeWrite_slotsOnly (s : State) : (nodeWrite s).All (SlotsOnly s) := by
  unfold nodeWrite
  split
  · exact (rfl : SlotsOnly s s)
  next n _ => exact (rfl : SlotsOnly s ((s.setTm n s.nodeData).setSync false))

theorem nodeRead_nodeDataOnly (s : State) : (nodeRead s).All (NodeDataOnly s) := by
  unfold nodeRead
  split
  · exact (rfl : NodeDataOnly s s)
  next n _ => exact (rfl : NodeDataOnly s (s.setNodeData (s.tmAt n)))

/-- The parts of ENCODE leave the state alone or change the output (42_encode.md R202). -/
theorem encodeStream_outputOnly (s : State) : (encodeStream s).All (OutputOnly s) := by
  refine (encodeStream_frame s).imp fun t ht => ?_
  obtain rfl | ⟨hout, -⟩ := ht
  · exact OutputOnly.refl t
  · exact OutputOnly.trans (t := s.encodeStart) rfl hout

theorem checkResidue_all {P : State → Prop} (n : Nat) {s : State} (h : P s) : (checkResidue n s).All P := by
  obtain ⟨-, e⟩ | ⟨-, e⟩ := checkResidue_cases n s <;> rw [e] <;> exact h

/-! A property that one more output byte keeps, through the parts of DECODE. -/

section
variable {P : State → Prop} (happend : ∀ s v, P s → P (s.appendOut v))
include happend

theorem emitByte_all (v : Byte) (info : Word) {s : State} (h : P s) : (emitByte v info s).All P := by
  obtain ⟨-, e⟩ | ⟨-, e⟩ := emitByte_cases v info s <;> rw [e]
  · exact h
  · exact happend s v h

theorem decodeWalk_all (k b : Nat) (cur : Option Slot) (nres : Nat) {s : State} (h : P s) :
    (decodeWalk k b cur nres s).All P := by
  induction k generalizing b cur nres s with
  | zero => exact h
  | succ k ih =>
    cases cur with
    | none => trivial
    | some n =>
      simp only [decodeWalk]
      split
      · exact h
      · split
        · exact (emitByte_all happend _ _ h).andThen (fun _ h => h) fun _ _ h => ih _ _ _ h
        · exact ih _ _ _ h

theorem decodeCopies_all (sym : Byte) (len m k : Nat) {s : State} (h : P s) : (decodeCopies sym len m k s).All P := by
  induction m generalizing k s with
  | zero => exact h
  | succ m ih => exact (emitByte_all happend _ _ h).andThen (fun _ h => h) fun _ _ h => ih _ h

theorem decodeSingle_all (n : Nat) {s : State} (h : P s) : (decodeSingle n s).All P := by
  unfold decodeSingle
  split
  · trivial
  · exact (decodeCopies_all happend _ _ _ _ h).andThen (fun _ h => h) fun _ _ h => checkResidue_all _ h

/-- What holds where DECODE starts its output, and survives one more byte, holds of every state that DECODE leaves
after its checks (44_decode.md R252, R253). -/
theorem decodeStream_all {s : State} (hs : P s) (hstart : P s.decodeStart) : (decodeStream s).All P := by
  unfold decodeStream
  split
  · exact hs
  · split
    · exact hs
    · dsimp only
      split
      · exact decodeSingle_all happend _ hstart
      · exact (decodeWalk_all happend _ _ _ _ hstart).andThen (fun _ h => h) fun _ _ h => checkResidue_all _ h

end

theorem BytesOnly.appendOut {s t : State} (v : Byte) (h : BytesOnly s t) : BytesOnly s (t.appendOut v) :=
  Eq.trans (congrArg (·.appendOut v) h) rfl

/-- DECODE changes nothing but OBUF and OUT_LEN (44_decode.md R259 (c)). -/
theorem decodeStream_bytesOnly (s : State) : (decodeStream s).All (BytesOnly s) :=
  decodeStream_all (fun _ v h => h.appendOut v) rfl rfl

/-- Settles O51: per command, the frame of its parts carried through completion by `complete_frame`. -/
theorem commandsWriteOnlyTheirRegisters : Obligations.CommandsWriteOnlyTheirRegisters := by
  intro i s t h
  cases i with
  | nop =>
    cases h
    rfl
  | tableClear => exact complete_frame (ifUnlocked_all rfl s.clearTable_entriesOnly) (fun _ _ _ _ => rfl) h
  | tableWr => exact complete_frame (ifUnlocked_all rfl (tableWrite_entriesOnly s)) (fun _ _ _ _ => rfl) h
  | tableRd =>
    cases h
    cases s.ctAt s.sym <;> rfl
  | treeClear => exact complete_frame (ifUnlocked_all rfl s.clearTree_slotsAndCountOnly) (fun _ _ _ _ => rfl) h
  | nodeWr => exact complete_frame (ifUnlocked_all rfl (nodeWrite_slotsOnly s)) (fun _ _ _ _ => rfl) h
  | nodeRd => exact complete_frame (nodeRead_nodeDataOnly s) (fun _ _ _ _ => rfl) h
  | assign => exact complete_frame (ifUnlocked_all rfl (assignCodes_tableOnly s)) (fun _ _ _ _ => rfl) h
  | build => exact complete_frame (ifUnlocked_all rfl (buildTree_treeOnly s)) (fun _ _ _ _ => rfl) h
  | encode => exact complete_frame (encodeStream_outputOnly s) (fun _ _ _ _ => rfl) h
  | decode => exact complete_frame (decodeStream_bytesOnly s) (fun _ _ _ _ => rfl) h

end Sys2Proof.Machine

/-! PROOFS. The family 40_control.md: issue and completion, what a read and a write of each offset do while idle and
while busy, the data ports, and NOP. -/

namespace Sys2Proof.Machine

/-! ### Completion -/

/-- What an error records is as it was. -/
def ErrorsKept (s t : State) : Prop := t.err = s.err ∧ t.errCode = s.errCode ∧ t.errInfo = s.errInfo

/-- ERR is set with a code of the table (60_exceptions.md R300). -/
def State.ErrorRaised (s : State) : Prop := s.err = true ∧ 1 ≤ s.errCode.toNat ∧ s.errCode.toNat ≤ 15

theorem State.fails_errorRaised (s : State) (c : ErrCode) (info : Word) :
    (s.fails (errNumber c) info).ErrorRaised := by
  have hne : (errNumber c).toNat ≠ 0 := fun h => errNumber_ne_zero c (BitVec.eq_of_toNat_eq h)
  exact ⟨rfl, Nat.one_le_iff_ne_zero.2 hne, errNumber_le c⟩

/-- Where every state that the parts of a command leave is fixed by `f`, and `f` keeps what an error records, the next
state keeps it too or has an error recorded. -/
theorem complete_recorded {f : State → State} {r : CmdResult Unit} {s t : State} (hr : r.All fun u => u = f u)
    (hf : ∀ u, ErrorsKept s (f u)) (h : complete r = .next t) : ErrorsKept s t ∨ t.ErrorRaised := by
  obtain ⟨u, hu, rfl | ⟨c, info, rfl⟩⟩ := hr.complete h
  · rw [hu]
    exact .inl (hf u)
  · exact .inr (u.fails_errorRaised c info)

/-- The parts of a command never touch ERR, ERR_CODE and ERR_INFO; only its completion does (60_exceptions.md
R304). -/
theorem exec_recorded {i : Instr} {s t : State} (h : exec i s = .next t) : ErrorsKept s t ∨ t.ErrorRaised := by
  have kept : ErrorsKept s s := ⟨rfl, rfl, rfl⟩
  cases i with
  | nop =>
    cases h
    exact .inl kept
  | tableClear => exact complete_recorded (ifUnlocked_all rfl s.clearTable_entriesOnly) (fun _ => kept) h
  | tableWr => exact complete_recorded (ifUnlocked_all rfl (tableWrite_entriesOnly s)) (fun _ => kept) h
  | tableRd =>
    cases h
    cases s.ctAt s.sym <;> exact .inl kept
  | treeClear => exact complete_recorded (ifUnlocked_all rfl s.clearTree_slotsAndCountOnly) (fun _ => kept) h
  | nodeWr => exact complete_recorded (ifUnlocked_all rfl (nodeWrite_slotsOnly s)) (fun _ => kept) h
  | nodeRd => exact complete_recorded (nodeRead_nodeDataOnly s) (fun _ => kept) h
  | assign => exact complete_recorded (ifUnlocked_all rfl (assignCodes_tableOnly s)) (fun _ => kept) h
  | build => exact complete_recorded (ifUnlocked_all rfl (buildTree_treeOnly s)) (fun _ => kept) h
  | encode => exact complete_recorded (encodeStream_outputOnly s) (fun _ => kept) h
  | decode => exact complete_recorded (decodeStream_bytesOnly s) (fun _ => kept) h

/-- Settles O9: completion by `exec_busy` and `exec_done`, the record by `exec_recorded`. -/
theorem commandsCompleteAndRecordErrors : Obligations.CommandsCompleteAndRecordErrors := fun _ _ _ h =>
  ⟨by simpa [State.busy] using exec_busy h, exec_done h, exec_recorded h⟩

/-- Settles O6: it is the ENGINE's turn (`State.turn_engine`), and its step executes the decoded command. -/
theorem stepRunsDecodedCommand : Obligations.StepRunsDecodedCommand := by
  intro s w i hp hturn hd
  rw [step_of_turn_engine (State.turn_engine.2 ⟨hp, hturn⟩), engineStep_ok hd]

/-! ### Issue -/

/-- The registers lie at the word offsets 0x00 to 0x78 (10_state.md R32). -/
theorem Reg.offset_bounds (r : Reg) : r.offset % 4 = 0 ∧ r.offset ≤ 0x78 := by
  cases r with
  | codeW k =>
    have hk := k.isLt
    simp only [Reg.offset]
    omega
  | bufAddr b => cases b <;> decide
  | bufData b => cases b <;> decide
  | bufSize b => cases b <;> decide
  | _ => decide

/-- A write of a register that the host has next while idle is taken in one step. -/
theorem step_wrInput_of_idle {s : State} {r : Reg} {d : Word} {rest : List Input} (hp : s.pending = none)
    (hin : s.inputs = wrInput s.cfg r d :: rest) :
    step s = .next (hostWrite r.offset d { s with inputs := rest }) := by
  obtain ⟨haligned, hle⟩ := r.offset_bounds
  have hoff : s.cfg.base + r.offset - s.cfg.base = r.offset := Nat.add_sub_cancel_left ..
  have hlt : r.offset < 256 := by omega
  rw [step_access hin (.inl hp)]
  simp [hostAccess, accessOffset, State.busy, hp, hoff, hlt, haligned]

/-- Settles O8: the write is taken (`step_wrInput_of_idle`), and CMD issues it (`hostWrite_cmd_of_idle`). -/
theorem cmdWriteIssuesCommand : Obligations.CmdWriteIssuesCommand := by
  intro s d rest hp hin
  rw [step_wrInput_of_idle hp hin, hostWrite_cmd_of_idle (s := { s with inputs := rest }) hp]
  rfl

/-! ### The register words and flags -/

theorem State.ctrlWord_eq (s : State) : s.ctrlWord = BitVec.ofNat 32 (s.lock.toNat + 2 * s.irqEn.toNat) := by
  unfold State.ctrlWord
  cases s.lock <;> cases s.irqEn <;> rfl

/-- Five flags in bits 0 to 4 are a sum of powers of two. -/
theorem bitAt_or_five : ∀ b₀ b₁ b₂ b₃ b₄ : Bool,
    bitAt b₀ 0 ||| bitAt b₁ 1 ||| bitAt b₂ 2 ||| bitAt b₃ 3 ||| bitAt b₄ 4 =
      BitVec.ofNat 32 (b₀.toNat + 2 * b₁.toNat + 4 * b₂.toNat + 8 * b₃.toNat + 16 * b₄.toNat) := by
  decide

theorem State.statusWord_eq (s : State) : s.statusWord = BitVec.ofNat 32
    (s.busy.toNat + 2 * s.done.toNat + 4 * s.err.toNat + 8 * s.ovr.toNat + 16 * s.sync.toNat) :=
  bitAt_or_five ..

/-- Each flag is cleared where the data has a 1 (10_state.md R36). -/
theorem State.writeStatus_eq (s : State) (d : Word) : s.writeStatus d = { s with
    done := if d.getLsbD 1 then false else s.done
    err := if d.getLsbD 2 then false else s.err
    ovr := if d.getLsbD 3 then false else s.ovr } := by
  have clear (b flag : Bool) : (flag && !b) = if b then false else flag := by cases b <;> simp
  simp only [State.writeStatus, clear]

/-! ### The register window while idle -/

/-- The offsets above the last register are reserved (10_state.md R32). -/
theorem regAt_reserved {off : Nat} (h : 0x7C ≤ off) : regAt off = none := by
  cases hr : regAt off with
  | none => rfl
  | some r =>
    obtain ⟨-, hle⟩ := r.offset_bounds
    have := regAt_eq_some.1 hr
    omega

/-- What an idle read of a register leaves: only a data port counts its address on (40_control.md R141). -/
def State.afterRead (s : State) : Reg → State
  | .bufData b => (portRead b s).2
  | _ => s

section
variable {s : State} (hp : s.pending = none)
include hp

theorem hostRead_eq_readIdle (off : Nat) : hostRead off s = readIdle off s := if_neg (by simp [State.busy, hp])

theorem hostWrite_eq_writeIdle (off : Nat) (d : Word) : hostWrite off d s = writeIdle off d s :=
  if_neg (by simp [State.busy, hp])

/-- An idle read of a register returns its word. -/
theorem hostRead_of_idle (r : Reg) : hostRead r.offset s = (s.regWord r, s.afterRead r) := by
  rw [hostRead_eq_readIdle hp, readIdle, regAt_offset]
  cases r <;> rfl

theorem hostRead_reserved_of_idle {off : Nat} (h : 0x7C ≤ off) : hostRead off s = (0, s) := by
  rw [hostRead_eq_readIdle hp, readIdle, regAt_reserved h]

theorem hostWrite_of_idle (r : Reg) (d : Word) : hostWrite r.offset d s = writeReg r d s := by
  rw [hostWrite_eq_writeIdle hp, writeIdle, regAt_offset]

theorem hostWrite_reserved_of_idle {off : Nat} (h : 0x7C ≤ off) (d : Word) : hostWrite off d s = s := by
  rw [hostWrite_eq_writeIdle hp, writeIdle, regAt_reserved h]

/-- STATUS while idle: BUSY is 0. -/
theorem statusWord_of_idle : s.statusWord = BitVec.ofNat 32
    (2 * s.done.toNat + 4 * s.err.toNat + 8 * s.ovr.toNat + 16 * s.sync.toNat) := by
  have hb : s.busy = false := by simp [State.busy, hp]
  rw [State.statusWord_eq, hb, Bool.toNat_false, Nat.zero_add]

end

/-- Settles O13: one clause per register, each by `hostRead_of_idle`. -/
theorem idleReadsFollowRegisterMap : Obligations.IdleReadsFollowRegisterMap := by
  intro s hp
  have read := hostRead_of_idle hp
  have hctrl : hostRead 0x08 s = (s.ctrlWord, s) := read .ctrl
  have hstatus : hostRead 0x0C s = (s.statusWord, s) := read .status
  rw [hctrl, hstatus, s.ctrlWord_eq, statusWord_of_idle hp]
  exact ⟨read .id, read .version, rfl, rfl, read .cmd, read .errCode, read .errInfo, read .inLen, read .bitLen,
    read .outLen, read .sym, read .codeLen, fun k => read (.codeW k), read .nodeIdx, read .nodeData, read .root,
    read .nodeCount, read .symCount, read (.bufAddr .ibuf), read (.bufData .ibuf), read (.bufAddr .obuf),
    read (.bufData .obuf), read (.bufSize .ibuf), read (.bufSize .obuf), fun _ h _ => hostRead_reserved_of_idle hp h⟩

theorem writeRoot_of_unlocked {s : State} (h : s.lock = false) (d : Word) :
    writeRoot d s = { s with root := d.extractLsb' 0 9, sync := false } := by simp [writeRoot, h]

theorem writeRoot_of_locked {s : State} (h : s.lock = true) (d : Word) : writeRoot d s = s := by simp [writeRoot, h]

/-- The read-only registers (10_state.md R32). -/
def readOnlyRegs : List Reg :=
  [.id, .version, .errCode, .errInfo, .outLen, .nodeCount, .symCount, .bufSize .ibuf, .bufSize .obuf]

theorem writeReg_readOnly {r : Reg} (hr : r ∈ readOnlyRegs) (d : Word) (s : State) : writeReg r d s = s := by
  simp only [readOnlyRegs, List.mem_cons, List.not_mem_nil, or_false] at hr
  rcases hr with rfl | rfl | rfl | rfl | rfl | rfl | rfl | rfl | rfl <;> rfl

/-- Settles O14: one clause per register, each by `hostWrite_of_idle`. -/
theorem idleWritesFollowRegisterMap : Obligations.IdleWritesFollowRegisterMap := by
  intro s d hp
  have write r := hostWrite_of_idle hp r d
  rw [BitVec.setWidth_eq_extractLsb' (by decide : 8 ≤ 32), BitVec.setWidth_eq_extractLsb' (by decide : 9 ≤ 32)]
  refine ⟨write .ctrl, (write .status).trans (s.writeStatus_eq d), write .cmd, write .inLen, write .bitLen,
    write .sym, write .codeLen, fun k => write (.codeW k), write .nodeIdx, write .nodeData,
    fun hl => (write .root).trans (writeRoot_of_unlocked hl d),
    fun hl => (write .root).trans (writeRoot_of_locked hl d),
    write (.bufAddr .ibuf), write (.bufAddr .obuf), write (.bufData .ibuf), write (.bufData .obuf), fun off hoff => ?_,
    fun _ h _ => hostWrite_reserved_of_idle hp h d⟩
  obtain ⟨r, hr, rfl⟩ : ∃ r ∈ readOnlyRegs, r.offset = off := List.mem_map.1 hoff
  rw [write r, writeReg_readOnly hr]

/-! ### The data ports -/

/-- The address of a data port counts on modulo 2^32 (40_control.md R143). -/
theorem word_add_one (a : Word) : a + 1 = BitVec.ofNat 32 (a.toNat + 1) := by
  rw [BitVec.ofNat_add, BitVec.ofNat_toNat, BitVec.setWidth_eq]
  rfl

@[simp] theorem State.bufByte_setBufAddr (s : State) (b b' : Buf) (a : Nat) (d : Word) :
    (s.setBufAddr b d).bufByte b' a = s.bufByte b' a := by
  cases b <;> cases b' <;> rfl

/-- PortWrite moves one byte, where the address is inside the buffer (40_control.md R143). -/
theorem bufByte_portWrite (b : Buf) (v : Byte) (s : State) (a : Nat) : (portWrite b v s).bufByte b a =
    if a = (s.bufAddr b).toNat ∧ a < s.bufSize b then v else s.bufByte b a := by
  simp only [portWrite, State.bufByte_setBufAddr]
  by_cases ha : a = (s.bufAddr b).toNat
  · subst ha
    split
    next h => simp [h, State.bufByte_writeBuf_same]
    next h => simp [h]
  · simp only [ha, false_and, if_false]
    split
    · exact s.bufByte_writeBuf_other v (.inr ha)
    · rfl

/-- PortWrite changes its own buffer and its own address only. -/
theorem portWrite_frame_port (b : Buf) (v : Byte) (s : State) : portWrite b v s =
    match b with
    | .ibuf => { s with ibuf := (portWrite .ibuf v s).ibuf, ibufAddr := s.ibufAddr + 1 }
    | .obuf => { s with obuf := (portWrite .obuf v s).obuf, obufAddr := s.obufAddr + 1 } := by
  unfold portWrite
  dsimp only
  cases b <;> split <;> rfl

/-- Settles O15: reads are the model's PortRead; writes by `bufByte_portWrite` and the frames of the two ports. -/
theorem dataPortsMoveOneByte : Obligations.DataPortsMoveOneByte := by
  intro s hp
  have hread b : hostRead (Reg.offset (.bufData b)) s = portRead b s := hostRead_of_idle hp _
  have hwrite b d : hostWrite (Reg.offset (.bufData b)) d s = portWrite b (d.setWidth 8) s := by
    rw [hostWrite_of_idle hp, BitVec.setWidth_eq_extractLsb' (by decide)]
    rfl
  rw [← word_add_one, ← word_add_one]
  exact ⟨congrArg Prod.fst (hread .ibuf), congrArg Prod.snd (hread .ibuf), congrArg Prod.fst (hread .obuf),
    congrArg Prod.snd (hread .obuf), fun d => ⟨_, _,
      hwrite .ibuf d, portWrite_frame_port .ibuf _ s, bufByte_portWrite .ibuf _ s,
      hwrite .obuf d, portWrite_frame_port .obuf _ s, bufByte_portWrite .obuf _ s⟩⟩

/-! ### The register window while busy -/

/-- Every offset but those of ID, VERSION, CTRL and STATUS reads a draw (40_control.md R144). -/
theorem readBusy_other {off : Nat} {s : State} (h₀ : off ≠ 0x00) (h₁ : off ≠ 0x04) (h₂ : off ≠ 0x08)
    (h₃ : off ≠ 0x0C) : readBusy off s = (Config.busyRead s.draws, { s with draws := s.draws + 1 }) := by
  unfold readBusy
  split
  next h => exact absurd (regAt_eq_some.1 h) h₀
  next h => exact absurd (regAt_eq_some.1 h) h₁
  next h => exact absurd (regAt_eq_some.1 h) h₂
  next h => exact absurd (regAt_eq_some.1 h) h₃
  · rfl

/-- Settles O16: the four exact reads by evaluation, any other offset by `readBusy_other`. -/
theorem busyReadsAreDraws : Obligations.BusyReadsAreDraws := by
  intro s hb
  have read off : hostRead off s = readBusy off s := if_pos hb
  have hstatus : s.statusWord = BitVec.ofNat 32
      (1 + 2 * s.done.toNat + 4 * s.err.toNat + 8 * s.ovr.toNat + 16 * s.sync.toNat) := by
    rw [s.statusWord_eq, hb, Bool.toNat_true]
  rw [← s.ctrlWord_eq, ← hstatus]
  exact ⟨read 0x00, read 0x04, read 0x08, read 0x0C,
    fun off h₀ h₁ h₂ h₃ => (read off).trans (readBusy_other h₀ h₁ h₂ h₃)⟩

/-- Settles O17: STATUS by `State.writeStatus_eq`, any other offset by `writeBusy_other`. -/
theorem busyWritesAreDropped : Obligations.BusyWritesAreDropped := by
  intro s d hb
  have write off : hostWrite off d s = writeBusy off d s := if_pos hb
  exact ⟨(write 0x0C).trans (s.writeStatus_eq d), fun off h => (write off).trans (writeBusy_other d s h)⟩

/-! ### NOP -/

/-- Settles O21: NOP's completion undoes the BUSY of its issue (`hostWrite_cmd_of_idle`) and raises DONE. -/
theorem nopOnlyCompletes : Obligations.NopOnlyCompletes := by
  refine ⟨fun _ => rfl, fun s hp => ⟨(s.issue 0).succeeds, ?_, ?_, ?_⟩⟩
  · exact congrArg (exec .nop) (hostWrite_cmd_of_idle hp 0)
  · simp [State.issue, State.succeeds, hp]
  · exact Bool.and_true _

end Sys2Proof.Machine

/-! PROOFS. The family 41_tree_assign.md: ASSIGN's walk visits the reachable paths in preorder, and what that leaves. -/

namespace Sys2Proof.Machine

/-! ### Preorder and the visits on ASSIGN's stack -/

theorem pathBefore_asymm {p q : List Bool} (h : pathBefore p q = true) : ¬ pathBefore q p = true := fun h' => by
  simpa using pathBefore_trans h h'

theorem pathBefore_extension (p : List Bool) (b : Bool) (r : List Bool) : pathBefore p (p ++ b :: r) = true := by
  induction p with
  | nil => rfl
  | cons a p ih => simpa using ih

/-- A path before another is before everything below that one. -/
theorem pathBefore_append {q p : List Bool} (h : pathBefore q p = true) (r : List Bool) :
    pathBefore q (p ++ r) = true := by
  cases r with
  | nil => simpa using h
  | cons b r => exact pathBefore_trans h (pathBefore_extension p b r)

@[simp] theorem Visit.length_bits (v : Visit) : v.bits.length = v.depth := by simp [Visit.bits]

/-- Every path below visit `v` comes before the path of visit `w` (41_tree_assign.md R174). -/
def Visit.Precedes (v w : Visit) : Prop := ∀ p, pathBefore (v.bits ++ p) w.bits = true

theorem Visit.Precedes.child {v w : Visit} (h : v.Precedes w) (b : Bool) (c : Slot) : (v.child b c).Precedes w := by
  intro p
  rw [Visit.bits_child, List.append_assoc]
  exact h _

theorem Visit.precedes_siblings (v : Visit) (l r : Slot) : (v.child false l).Precedes (v.child true r) := by
  intro p
  rw [Visit.bits_child, Visit.bits_child, List.append_assoc]
  exact pathBefore_branches v.bits p []

/-- The visits that a visit puts on the stack: those of its slot's children, none for a leaf (41_tree_assign.md
R174). -/
def Visit.children (tm : Slot → Word) (v : Visit) : List Visit :=
  if leafNode (tm v.slot) then [] else pushChildren (tm v.slot) v []

theorem Visit.mem_children {tm : Slot → Word} {u v : Visit} : u ∈ v.children tm ↔
    leafNode (tm v.slot) = false ∧ ∃ b c, childOf (tm v.slot) b = some c ∧ u = v.child b c := by
  cases hl : leafNode (tm v.slot) <;> simp [Visit.children, hl, mem_pushChildren]

theorem pushChildren_eq_append (w : Word) (v : Visit) (stack : List Visit) :
    pushChildren w v stack = pushChildren w v [] ++ stack := by
  cases hl : childOf w false <;> cases hr : childOf w true <;> simp [pushChildren, pushChild, hl, hr]

theorem Visit.before_children {tm : Slot → Word} {u v : Visit} (hu : u ∈ v.children tm) :
    pathBefore v.bits u.bits = true := by
  obtain ⟨-, b, c, -, rfl⟩ := Visit.mem_children.1 hu
  rw [Visit.bits_child]
  exact pathBefore_extension v.bits b []

/-- The left child stands before the right one. -/
theorem Visit.pairwise_children (tm : Slot → Word) (v : Visit) : (v.children tm).Pairwise Visit.Precedes := by
  unfold Visit.children
  split
  · exact List.Pairwise.nil
  · cases hl : childOf (tm v.slot) false <;> cases hr : childOf (tm v.slot) true <;>
      simp only [pushChildren, pushChild, hl, hr, List.Pairwise.nil, List.pairwise_singleton, List.pairwise_pair]
    exact v.precedes_siblings _ _

/-- Every path that goes through a visit ends there or goes through a visit of a child. -/
theorem Visit.leads_cases {tm : Slot → Word} {v : Visit} {q : List Bool} {n : Slot} (h : v.Leads tm q n) :
    q = v.bits ∨ ∃ u ∈ v.children tm, u.bits <+: q := by
  cases hl : leafNode (tm v.slot) with
  | true => exact .inl ((Visit.leads_leaf hl).1 h).1
  | false =>
    obtain ⟨rfl, -⟩ | ⟨b, c, hc, p, -, rfl⟩ := (Visit.leads_internal hl).1 h
    · exact .inl rfl
    · exact .inr ⟨_, Visit.mem_children.2 ⟨hl, b, c, hc, rfl⟩, List.prefix_append _ _⟩

theorem State.reach_append {s : State} {p q : List Bool} {m : Slot} :
    s.reach (p ++ q) = some m ↔ ∃ c, s.reach p = some c ∧ walkTree s.tmAt c q = some m := by
  cases hr : slotOf s.root with
  | none => simp [State.reach, hr]
  | some r => simp only [State.reach_of_root hr, walkTree_append]

/-- Visit `v` stands for the path that leads to its slot: its depth and its path value denote that path. -/
structure Visit.On (s : State) (v : Visit) : Prop where
  reach : s.reach v.bits = some v.slot
  fits : v.path < 2 ^ v.depth

theorem Visit.On.child {s : State} {u v : Visit} (h : v.On s) (hu : u ∈ v.children s.tmAt) : u.On s := by
  obtain ⟨hl, b, c, hc, rfl⟩ := Visit.mem_children.1 hu
  refine ⟨?_, Visit.path_child_lt h.fits b c⟩
  rw [Visit.bits_child]
  exact State.reach_append.2 ⟨v.slot, h.reach, walkTree_cons.2 ⟨hl, c, hc, rfl⟩⟩

theorem Visit.On.slot_eq {s : State} {v : Visit} {n : Slot} (h : v.On s) (hn : s.reach v.bits = some n) : v.slot = n :=
  Option.some.inj (h.reach.symm.trans hn)

theorem Visit.On.leads {s : State} {v : Visit} (h : v.On s) {q : List Bool} {n : Slot} (hq : s.reach q = some n)
    (hp : v.bits <+: q) : v.Leads s.tmAt q n := by
  obtain ⟨p, rfl⟩ := hp
  obtain ⟨c, hc, hn⟩ := State.reach_append.1 hq
  obtain rfl := h.slot_eq hc
  exact ⟨p, hn, rfl⟩

/-! ### How far ASSIGN's walk has come -/

/-- The walk on the tree of `s` has visited `trail`, the last visit first, with `stack` still to come: the visits on the
trail are those of the reachable paths before all paths of the stack, and no error applied to them (41_tree_assign.md
R174, R175). -/
structure Walked (s : State) (trail stack : List Visit) : Prop where
  visitedOn : ∀ v ∈ trail, v.On s
  stackOn : ∀ v ∈ stack, v.On s
  ok : ∀ v ∈ trail, s.VisitOk v.bits v.slot
  before : ∀ v ∈ trail, ∀ w ∈ stack, pathBefore v.bits w.bits = true
  sorted : stack.Pairwise Visit.Precedes
  cover : ∀ q n, s.reach q = some n → (∃ v ∈ trail, v.bits = q) ∨ ∃ w ∈ stack, w.bits <+: q
  distinct : (trail.map Visit.slot).Nodup

theorem walked_start (s : State) : Walked s [] (pushChild (slotOf s.root) 0 0 []) := by
  cases hr : slotOf s.root with
  | none => constructor <;> simp [pushChild, State.reach, hr]
  | some r =>
    have hroot : (⟨r, 0, 0⟩ : Visit).On s := ⟨s.reach_nil.trans hr, Nat.two_pow_pos 0⟩
    constructor <;> simp [pushChild, Visit.bits, hroot]

namespace Walked
variable {s : State} {trail stack : List Visit} {v : Visit}

/-- The reachable paths before the next visit are those of the trail. -/
theorem before_iff (h : Walked s trail (v :: stack)) {q : List Bool} :
    (pathBefore q v.bits = true ∧ ∃ n, s.reach q = some n) ↔ ∃ w ∈ trail, w.bits = q := by
  constructor
  · rintro ⟨hb, n, hq⟩
    obtain hw | ⟨w, hw, p, rfl⟩ := h.cover q n hq
    · exact hw
    · obtain rfl | hw := List.mem_cons.1 hw
      · cases p with
        | nil => simp at hb
        | cons b p => exact absurd hb (pathBefore_asymm (pathBefore_extension _ b p))
      · have hvw := (List.pairwise_cons.1 h.sorted).1 w hw []
        rw [List.append_nil] at hvw
        exact absurd hb (pathBefore_asymm (pathBefore_append hvw p))
  · rintro ⟨w, hw, rfl⟩
    exact ⟨h.before w hw v List.mem_cons_self, w.slot, (h.visitedOn w hw).reach⟩

/-- At the end of the walk the trail holds every reachable path. -/
theorem reach_iff (h : Walked s trail []) {q : List Bool} :
    (∃ n, s.reach q = some n) ↔ ∃ w ∈ trail, w.bits = q := by
  constructor
  · rintro ⟨n, hq⟩
    simpa using h.cover q n hq
  · rintro ⟨w, hw, rfl⟩
    exact ⟨w.slot, (h.visitedOn w hw).reach⟩

/-- A slot that is popped again is one an earlier path reached. -/
theorem mem_slots_iff (h : Walked s trail (v :: stack)) :
    v.slot ∈ trail.map Visit.slot ↔ s.Revisited v.bits v.slot := by
  rw [List.mem_map]
  constructor
  · rintro ⟨w, hw, hslot⟩
    exact ⟨w.bits, h.before w hw v List.mem_cons_self, hslot ▸ (h.visitedOn w hw).reach⟩
  · rintro ⟨q, hb, hq⟩
    obtain ⟨w, hw, rfl⟩ := h.before_iff.1 ⟨hb, _, hq⟩
    exact ⟨w, hw, (h.visitedOn w hw).slot_eq hq⟩

/-- A visit to which no error applies moves from the stack to the trail, and its children come to stand on the stack. -/
theorem advance (h : Walked s trail (v :: stack)) (hok : s.VisitOk v.bits v.slot) :
    Walked s (v :: trail) (v.children s.tmAt ++ stack) := by
  have hnew : v.slot ∉ trail.map Visit.slot := fun hm => by
    obtain ⟨-, hfresh, -⟩ := hok
    exact hfresh (h.mem_slots_iff.1 hm)
  obtain ⟨visitedOn, stackOn, ok, before, sorted, cover, distinct⟩ := h
  obtain ⟨hv, hstack⟩ := List.forall_mem_cons.1 stackOn
  obtain ⟨hfirst, hsorted⟩ := List.pairwise_cons.1 sorted
  refine ⟨List.forall_mem_cons.2 ⟨hv, visitedOn⟩, List.forall_mem_append.2 ⟨fun _ => hv.child, hstack⟩,
    List.forall_mem_cons.2 ⟨hok, ok⟩, ?before, ?sorted, ?cover, List.nodup_cons.2 ⟨hnew, distinct⟩⟩
  case before =>
    have hnext : ∀ u ∈ v.children s.tmAt ++ stack, pathBefore v.bits u.bits = true :=
      List.forall_mem_append.2 ⟨fun _ => Visit.before_children, fun w hw => by simpa using hfirst w hw []⟩
    exact List.forall_mem_cons.2 ⟨hnext, fun w hw u hu =>
      pathBefore_trans (before w hw v List.mem_cons_self) (hnext u hu)⟩
  case sorted =>
    refine List.pairwise_append.2 ⟨v.pairwise_children s.tmAt, hsorted, fun u hu w hw => ?_⟩
    obtain ⟨-, b, c, -, rfl⟩ := Visit.mem_children.1 hu
    exact (hfirst w hw).child b c
  case cover =>
    intro q n hq
    obtain ⟨w, hw, rfl⟩ | ⟨w, hw, hp⟩ := cover q n hq
    · exact .inl ⟨w, List.mem_cons_of_mem v hw, rfl⟩
    · obtain rfl | hw := List.mem_cons.1 hw
      · obtain rfl | ⟨u, hu, hp⟩ := Visit.leads_cases (hv.leads hq hp)
        · exact .inl ⟨w, List.mem_cons_self, rfl⟩
        · exact .inr ⟨u, List.mem_append_left _ hu, hp⟩
      · exact .inr ⟨w, List.mem_append_right _ hw, hp⟩

/-- No path is visited twice. -/
theorem nodup_paths (h : Walked s trail stack) : (trail.map Visit.bits).Nodup := by
  have hslots : (trail.map Visit.bits).map s.reach = (trail.map Visit.slot).map some := by
    rw [List.map_map, List.map_map]
    exact List.map_congr_left fun v hv => (h.visitedOn v hv).reach
  exact (hslots ▸ h.distinct.map (Option.some_injective _)).of_map _

end Walked

/-! ### Counting what the walk has visited -/

/-- Counting the visits of a list by something they do not share. -/
theorem ncard_of_visits {α : Type} {trail : List Visit} (g : Visit → α) (f : Visit → Bool)
    (h : (trail.map g).Nodup) : {x | ∃ v ∈ trail, f v = true ∧ g v = x}.ncard = trail.countP f := by
  classical
  have hnodup : ((trail.filter f).map g).Nodup := h.sublist (List.filter_sublist.map g)
  have hset : {x | ∃ v ∈ trail, f v = true ∧ g v = x} = (((trail.filter f).map g).toFinset : Set α) := by
    ext x
    simp [and_assoc]
  rw [hset, Set.ncard_coe_finset, List.toFinset_card_of_nodup hnodup, List.length_map, List.countP_eq_length_filter]

/-- The paths before the next visit, counted by what they lead to. -/
theorem Walked.ncard_paths_before {s : State} {trail stack : List Visit} {v : Visit}
    (h : Walked s trail (v :: stack)) (f : Slot → Bool) :
    {q | pathBefore q v.bits = true ∧ ∃ n, s.reach q = some n ∧ f n = true}.ncard =
      trail.countP fun w => f w.slot := by
  rw [← ncard_of_visits Visit.bits _ h.nodup_paths]
  refine congrArg Set.ncard (Set.ext fun q => ?_)
  constructor
  · rintro ⟨hb, n, hq, hf⟩
    obtain ⟨w, hw, rfl⟩ := h.before_iff.1 ⟨hb, n, hq⟩
    obtain rfl := (h.visitedOn w hw).slot_eq hq
    exact ⟨w, hw, hf, rfl⟩
  · rintro ⟨w, hw, hf, rfl⟩
    exact ⟨h.before w hw v List.mem_cons_self, w.slot, (h.visitedOn w hw).reach, hf⟩

/-- The reachable slots of a kind, counted at the end of the walk. -/
theorem Walked.ncard_slots {s : State} {trail : List Visit} (h : Walked s trail []) (f : Slot → Bool) :
    {n | ∃ path, s.reach path = some n ∧ f n = true}.ncard = trail.countP fun w => f w.slot := by
  rw [← ncard_of_visits Visit.slot _ h.distinct]
  refine congrArg Set.ncard (Set.ext fun n => ?_)
  constructor
  · rintro ⟨q, hq, hf⟩
    obtain ⟨w, hw, rfl⟩ := h.reach_iff.1 ⟨n, hq⟩
    obtain rfl := (h.visitedOn w hw).slot_eq hq
    exact ⟨w, hw, hf, rfl⟩
  · rintro ⟨w, hw, hf, rfl⟩
    exact ⟨w.bits, (h.visitedOn w hw).reach, hf⟩

end Sys2Proof.Machine

/-! PROOFS. The family 41_tree_assign.md: what ASSIGN's walk has written, and how the walk ends. -/

namespace Sys2Proof.Machine

/-! ### What ASSIGN's walk has written -/

/-- A legal code is determined by its bits. -/
theorem Code.Legal.eq_of_bits_eq {c d : Code} (hc : c.Legal) (hd : d.Legal) (h : c.bits = d.bits) : c = d := by
  have hlen : c.len = d.len := BitVec.eq_of_toNat_eq (by rw [← c.length_bits, ← d.length_bits, h])
  have hval : c.val = d.val := BitVec.eq_of_toNat_eq (by rw [← hc.bitsValue_bits, ← hd.bitsValue_bits, h])
  cases c
  cases d
  simp_all

/-- Visit `v` is one of a leaf of symbol `a`. -/
def Visit.IsLeafOf (s : State) (v : Visit) (a : Byte) : Prop :=
  leafNode (s.tmAt v.slot) = true ∧ nodeSym (s.tmAt v.slot) = a

theorem Visit.On.leafAt {s : State} {v : Visit} (h : v.On s) {a : Byte} : s.LeafAt v.bits a ↔ v.IsLeafOf s a := by
  constructor
  · rintro ⟨n, hn, hl⟩
    obtain rfl := h.slot_eq hn
    exact hl
  · exact fun hl => ⟨v.slot, h.reach, hl⟩

theorem State.LeafAt.reaches {s : State} {p : List Bool} {a : Byte} (h : s.LeafAt p a) :
    ∃ n, s.reach p = some n := by
  obtain ⟨n, hn, -⟩ := h
  exact ⟨n, hn⟩

theorem State.exists_leafAt_iff {s : State} {p : List Bool} :
    (∃ a, s.LeafAt p a) ↔ ∃ n, s.reach p = some n ∧ leafNode (s.tmAt n) = true := by
  simp only [State.LeafAt]
  constructor
  · rintro ⟨-, n, hn, hleaf, rfl⟩
    exact ⟨n, hn, hleaf⟩
  · rintro ⟨n, hn, hleaf⟩
    exact ⟨_, n, hn, hleaf, rfl⟩

/-- The walk on the tree of `s` has written into `t` the codes of the leaves on `trail` and no others, their number, and
the number of the visits and of `counted` more (41_tree_assign.md R174). -/
structure Recorded (s : State) (trail : List Visit) (counted : Nat) (t : State) : Prop where
  tm : t.tm = s.tm
  codes : ∀ a c, t.ctAt a = some c ↔ ∃ v ∈ trail, v.IsLeafOf s a ∧ c = leafCode v
  symCount : t.symCount.toNat = trail.countP fun v => leafNode (s.tmAt v.slot)
  nodeCount : t.nodeCount.toNat = trail.length + counted

/-- The state a walk goes on in from a visit to which no error applies. -/
def State.afterVisit (t : State) (v : Visit) : State :=
  if leafNode (t.tmAt v.slot) then t.assignLeaf v else t.countNode

theorem State.ctAt_assignLeaf (t : State) (v : Visit) (a : Byte) :
    (t.assignLeaf v).ctAt a = if a = nodeSym (t.tmAt v.slot) then some (leafCode v) else t.ctAt a := by
  split
  next ha => exact ha ▸ t.countNode.ctAt_setCt_same a _
  next ha => exact t.countNode.ctAt_setCt_other _ ha

theorem recorded_start (s : State) : Recorded s [] 0 s.assignStart := by
  constructor <;> simp [State.ctAt_assignStart]

namespace Recorded
variable {s t : State} {trail : List Visit} {v : Visit}

theorem tmAt (h : Recorded s trail 0 t) : t.tmAt = s.tmAt := funext fun n => State.tmAt_congr n h.tm

theorem countNode (h : Recorded s trail 0 t) (hroom : trail.length ≤ 511) : Recorded s trail 1 t.countNode := by
  have hcount : t.countNode.nodeCount.toNat = (t.nodeCount.toNat + 1) % 2 ^ 10 := BitVec.toNat_add _ _
  have hold := h.nodeCount
  exact ⟨h.tm, h.codes, h.symCount, by omega⟩

/-- A new leaf of a symbol without a code. -/
theorem assignLeaf (h : Recorded s trail 0 t) (hroom : trail.length < 511) (hleaf : leafNode (t.tmAt v.slot) = true)
    (hnone : t.ctAt (nodeSym (t.tmAt v.slot)) = none) : Recorded s (v :: trail) 0 (t.assignLeaf v) := by
  have hcount := (h.countNode hroom.le).nodeCount
  have hsyms : (t.assignLeaf v).symCount.toNat = (t.symCount.toNat + 1) % 2 ^ 9 := BitVec.toNat_add _ _
  have hold := h.symCount
  have hle := trail.countP_le_length (p := fun u => leafNode (s.tmAt u.slot))
  rw [h.tmAt] at hleaf hnone
  refine ⟨h.tm, fun a c => ?codes, ?symCount, hcount⟩
  case symCount =>
    rw [List.countP_cons, if_pos hleaf]
    omega
  case codes =>
    rw [State.ctAt_assignLeaf, h.tmAt]
    split
    next ha =>
      have hothers : ∀ u ∈ trail, ¬ u.IsLeafOf s a := fun u hu hl => by
        simp [← ha, (h.codes a _).2 ⟨u, hu, hl, rfl⟩] at hnone
      constructor
      · intro hc
        exact ⟨v, List.mem_cons_self, ⟨hleaf, ha.symm⟩, (Option.some.inj hc).symm⟩
      · rintro ⟨u, hu, hl, rfl⟩
        obtain rfl | hu := List.mem_cons.1 hu
        · rfl
        · exact absurd hl (hothers u hu)
    next ha =>
      have hv : ¬ v.IsLeafOf s a := fun hl => ha hl.2.symm
      exact (h.codes a c).trans (by simp [hv])

/-- An internal node. -/
theorem countInternal (h : Recorded s trail 0 t) (hroom : trail.length < 511)
    (hleaf : leafNode (t.tmAt v.slot) = false) : Recorded s (v :: trail) 0 t.countNode := by
  obtain ⟨tm, codes, symCount, nodeCount⟩ := h.countNode hroom.le
  rw [h.tmAt] at hleaf
  refine ⟨tm, fun a c => ?_, by simpa [hleaf] using symCount, nodeCount⟩
  simpa [Visit.IsLeafOf, hleaf] using codes a c

theorem afterVisit (h : Recorded s trail 0 t) (hroom : trail.length < 511)
    (hnone : leafNode (t.tmAt v.slot) = true → t.ctAt (nodeSym (t.tmAt v.slot)) = none) :
    Recorded s (v :: trail) 0 (t.afterVisit v) := by
  unfold State.afterVisit
  split
  next hleaf => exact h.assignLeaf hroom hleaf (hnone hleaf)
  next hleaf => exact h.countInternal hroom (by simpa using hleaf)

/-- A symbol has a code exactly where an earlier leaf holds it. -/
theorem isSome_iff {stack : List Visit} (h : Recorded s trail 0 t) (hw : Walked s trail (v :: stack)) (a : Byte) :
    (t.ctAt a).isSome = true ↔ ∃ q, pathBefore q v.bits = true ∧ s.LeafAt q a := by
  rw [Option.isSome_iff_exists]
  constructor
  · rintro ⟨c, hc⟩
    obtain ⟨w, hmem, hl, -⟩ := (h.codes a c).1 hc
    exact ⟨w.bits, hw.before w hmem v List.mem_cons_self, (hw.visitedOn w hmem).leafAt.2 hl⟩
  · rintro ⟨q, hb, hq⟩
    obtain ⟨w, hmem, rfl⟩ := hw.before_iff.1 ⟨hb, hq.reaches⟩
    exact ⟨_, (h.codes a _).2 ⟨w, hmem, (hw.visitedOn w hmem).leafAt.1 hq, rfl⟩⟩

theorem symbolTaken_iff {stack : List Visit} (h : Recorded s trail 0 t) (hw : Walked s trail (v :: stack)) :
    s.SymbolTaken v.bits v.slot ↔
      leafNode (t.tmAt v.slot) = true ∧ (t.ctAt (nodeSym (t.tmAt v.slot))).isSome = true := by
  rw [h.tmAt, h.isSome_iff hw]
  rfl

/-- The codes written, by the paths they stand for. -/
theorem codes_iff {counted : Nat} {stack : List Visit} (h : Recorded s trail counted t) (hw : Walked s trail stack)
    (a : Byte) (c : Code) : t.ctAt a = some c ↔
      c.Legal ∧ ∃ q, (∃ v ∈ trail, v.bits = q) ∧ s.LeafAt q a ∧ c.bits = leafBits q := by
  have leaf_code : ∀ v ∈ trail, (leafCode v).Legal ∧ (leafCode v).bits = leafBits v.bits := fun v hv => by
    obtain ⟨-, -, hdepth, -⟩ := hw.ok v hv
    rw [Visit.length_bits] at hdepth
    exact ⟨leafCode_legal hdepth (hw.visitedOn v hv).fits, leafCode_bits hdepth⟩
  rw [h.codes]
  constructor
  · rintro ⟨v, hv, hl, rfl⟩
    obtain ⟨hlegal, hbits⟩ := leaf_code v hv
    exact ⟨hlegal, v.bits, ⟨v, hv, rfl⟩, (hw.visitedOn v hv).leafAt.2 hl, hbits⟩
  · rintro ⟨hc, q, ⟨v, hv, rfl⟩, hl, hcbits⟩
    obtain ⟨hlegal, hbits⟩ := leaf_code v hv
    exact ⟨v, hv, (hw.visitedOn v hv).leafAt.1 hl, hc.eq_of_bits_eq hlegal (hcbits.trans hbits.symm)⟩

/-- What the walk has written where it stops at visit `v`. -/
theorem assignedBefore {counted : Nat} {stack : List Visit} (h : Recorded s trail counted t)
    (hw : Walked s trail (v :: stack)) : s.AssignedBefore t v.bits counted := by
  refine ⟨fun a c => ?codes, ?symCount, ?nodeCount⟩
  case codes =>
    rw [h.codes_iff hw]
    refine and_congr_right fun _ => exists_congr fun q => ?_
    rw [← hw.before_iff, and_assoc]
    exact and_congr_right fun _ => ⟨fun hq => hq.2, fun hq => ⟨hq.1.reaches, hq⟩⟩
  case symCount =>
    rw [h.symCount, ← hw.ncard_paths_before fun n => leafNode (s.tmAt n)]
    simp only [State.exists_leafAt_iff]
  case nodeCount =>
    have hcard := hw.ncard_paths_before fun _ => true
    simp only [and_true, List.countP_true] at hcard
    rw [h.nodeCount, hcard]

/-- A walk that visited every path counts a leaf exactly where a path leads to one. -/
theorem one_le_symCount_iff (h : Recorded s trail 0 t) (hw : Walked s trail []) :
    1 ≤ t.symCount.toNat ↔ ∃ p a, s.LeafAt p a := by
  rw [h.symCount, Nat.one_le_iff_ne_zero, ← Nat.pos_iff_ne_zero, List.countP_pos_iff]
  constructor
  · rintro ⟨v, hv, hleaf⟩
    exact ⟨v.bits, _, (hw.visitedOn v hv).leafAt.2 ⟨hleaf, rfl⟩⟩
  · rintro ⟨p, a, hp⟩
    obtain ⟨v, hv, rfl⟩ := hw.reach_iff.1 hp.reaches
    exact ⟨v, hv, ((hw.visitedOn v hv).leafAt.1 hp).1⟩

end Recorded

/-! ### How ASSIGN's walk ends -/

/-- Everything one round of the walk can do, with the check that stops it (41_tree_assign.md R174). -/
theorem assignWalk_cons_outcomes (k : Nat) (visited : List Slot) (v : Visit) (stack : List Visit) (t : State) :
    ((usedNode (t.tmAt v.slot) = false ∨ v.slot ∈ visited) ∧
      assignWalk (k + 1) visited (v :: stack) t = .error .malformedTree (slotInfo v.slot) t) ∨
    (usedNode (t.tmAt v.slot) = true ∧ v.slot ∉ visited ∧
      ((255 < v.depth ∧ assignWalk (k + 1) visited (v :: stack) t = .error .codeTooLong (slotInfo v.slot) t) ∨
      (v.depth ≤ 255 ∧ leafNode (t.tmAt v.slot) = true ∧ (t.ctAt (nodeSym (t.tmAt v.slot))).isSome = true ∧
        assignWalk (k + 1) visited (v :: stack) t = .error .malformedTree (slotInfo v.slot) t.countNode) ∨
      (v.depth ≤ 255 ∧ (leafNode (t.tmAt v.slot) = true → t.ctAt (nodeSym (t.tmAt v.slot)) = none) ∧
        assignWalk (k + 1) visited (v :: stack) t =
          assignWalk k (v.slot :: visited) (v.children t.tmAt ++ stack) (t.afterVisit v)))) := by
  cases hused : usedNode (t.tmAt v.slot) with
  | false => exact .inl ⟨.inl rfl, by simp [assignWalk, hused]⟩
  | true =>
    by_cases hvisited : v.slot ∈ visited
    · exact .inl ⟨.inr hvisited, by simp [assignWalk, hused, hvisited]⟩
    refine .inr ⟨rfl, hvisited, ?_⟩
    by_cases hdepth : 255 < v.depth
    · exact .inl ⟨hdepth, by simp [assignWalk, hused, hvisited, hdepth]⟩
    refine .inr ?_
    cases hleaf : leafNode (t.tmAt v.slot) with
    | false =>
      refine .inr ⟨by omega, nofun, ?_⟩
      simp [assignWalk, hused, hvisited, hdepth, hleaf, Visit.children, State.afterVisit,
        ← pushChildren_eq_append]
    | true =>
      have hct : t.countNode.ctAt (nodeSym (t.tmAt v.slot)) = t.ctAt (nodeSym (t.tmAt v.slot)) := rfl
      cases hnone : t.ctAt (nodeSym (t.tmAt v.slot)) with
      | none =>
        refine .inr ⟨by omega, fun _ => rfl, ?_⟩
        simp [assignWalk, hused, hvisited, hdepth, hleaf, hct, hnone, Visit.children, State.afterVisit,
          State.assignLeaf]
      | some c =>
        refine .inl ⟨by omega, rfl, rfl, ?_⟩
        simp [assignWalk, hused, hvisited, hdepth, hleaf, hct, hnone]

/-- The walk on the tree of `s` ends well with every reachable path visited, or stops at the first path where an error
applies (41_tree_assign.md R174, R175). -/
def WalkEnds (s : State) : CmdResult Unit → Prop
  | .ok _ t => ∃ trail, Walked s trail [] ∧ Recorded s trail 0 t
  | .error c info t => ∃ p n counted, s.AssignStopsAt p n (errNumber c) counted ∧ info = slotInfo n ∧
      s.AssignedBefore t p counted
  | .stop _ => False

/-- The walk stops at the next visit where one of the errors applies to it. -/
theorem Walked.ends_error {s t : State} {trail stack : List Visit} {v : Visit} {c : ErrCode} {counted : Nat}
    (h : Walked s trail (v :: stack)) (hr : Recorded s trail counted t)
    (herror :
      (c = .malformedTree ∧ counted = 0 ∧ (usedNode (s.tmAt v.slot) = false ∨ s.Revisited v.bits v.slot)) ∨
      (c = .codeTooLong ∧ counted = 0 ∧ usedNode (s.tmAt v.slot) = true ∧ ¬ s.Revisited v.bits v.slot ∧
        255 < v.bits.length) ∨
      (c = .malformedTree ∧ counted = 1 ∧ usedNode (s.tmAt v.slot) = true ∧ ¬ s.Revisited v.bits v.slot ∧
        v.bits.length ≤ 255 ∧ s.SymbolTaken v.bits v.slot)) :
    WalkEnds s (.error c (slotInfo v.slot) t) := by
  refine ⟨v.bits, v.slot, counted, ⟨(h.stackOn v List.mem_cons_self).reach, fun q m hb hq => ?first, ?error⟩, rfl,
    hr.assignedBefore h⟩
  case first =>
    obtain ⟨w, hw, rfl⟩ := h.before_iff.1 ⟨hb, m, hq⟩
    obtain rfl := (h.visitedOn w hw).slot_eq hq
    exact h.ok w hw
  case error =>
    refine herror.imp ?_ (Or.imp ?_ ?_)
    all_goals
      rintro ⟨rfl, hrest⟩
      exact ⟨rfl, hrest⟩

/-- From any point of the walk, with a slot left for every slot not yet visited, the walk ends as it should. -/
theorem assignWalk_ends {s : State} {k : Nat} {trail stack : List Visit} {t : State} (hk : trail.length + k = 511)
    (hw : Walked s trail stack) (hr : Recorded s trail 0 t) :
    WalkEnds s (assignWalk k (trail.map Visit.slot) stack t) := by
  induction k generalizing trail stack t with
  | zero =>
    cases stack with
    | nil => exact ⟨trail, hw, hr⟩
    | cons v stack =>
      have hvisited := mem_of_all_slots_visited _ hw.distinct ((List.length_map _).trans hk) v.slot
      exact hw.ends_error hr (.inl ⟨rfl, rfl, .inr (hw.mem_slots_iff.1 hvisited)⟩)
  | succ k ih =>
    cases stack with
    | nil => exact ⟨trail, hw, hr⟩
    | cons v stack =>
      have hround := assignWalk_cons_outcomes k (trail.map Visit.slot) v stack t
      have htaken := hr.symbolTaken_iff hw
      rw [hw.mem_slots_iff] at hround
      rw [hr.tmAt] at hround htaken
      obtain ⟨hbad, e⟩ | ⟨hused, hnew, ⟨hdeep, e⟩ | ⟨hdepth, hleaf, hsome, e⟩ | ⟨hdepth, hnone, e⟩⟩ := hround <;>
        rw [e]
      · exact hw.ends_error hr (.inl ⟨rfl, rfl, hbad⟩)
      · exact hw.ends_error hr (.inr (.inl ⟨rfl, rfl, hused, hnew, v.length_bits ▸ hdeep⟩))
      · exact hw.ends_error (hr.countNode (by omega))
          (.inr (.inr ⟨rfl, rfl, hused, hnew, v.length_bits ▸ hdepth, htaken.2 ⟨hleaf, hsome⟩⟩))
      · have hok : s.VisitOk v.bits v.slot := by
          refine ⟨hused, hnew, v.length_bits ▸ hdepth, fun htake => ?_⟩
          obtain ⟨hleaf, hsome⟩ := htaken.1 htake
          simp [hnone hleaf] at hsome
        exact ih (trail := v :: trail) (by rw [List.length_cons]; omega) (hw.advance hok)
          (hr.afterVisit (by omega) (by rwa [hr.tmAt]))

/-- ASSIGN's walk from ROOT ends as it should. -/
theorem assignWalk_root_ends (s : State) :
    WalkEnds s (assignWalk 511 [] (pushChild (slotOf s.root) 0 0 []) s.assignStart) :=
  assignWalk_ends (trail := []) rfl (walked_start s) (recorded_start s)

end Sys2Proof.Machine

/-! PROOFS. The family 41_tree_assign.md: ASSIGN and the small tree commands. -/

namespace Sys2Proof.Machine

/-! ### ASSIGN -/

theorem exec_assign_of_unlocked {s : State} (hl : s.lock = false) : exec .assign s = complete (assignCodes s) :=
  congrArg complete (ifUnlocked_of_unlocked _ hl)

/-- Everything ASSIGN can end in: every reachable path visited and a leaf found; every one visited and none a leaf; or
a stop at the first path where an error applies (41_tree_assign.md R174, R175). -/
theorem assignCodes_cases (s : State) :
    (∃ trail t, assignCodes s = .ok () t ∧ Walked s trail [] ∧ Recorded s trail 0 t ∧ 1 ≤ t.symCount.toNat ∧
      t.sync = true) ∨
    (∃ trail t, assignCodes s = .error .invalidInput 0 t ∧ Walked s trail [] ∧ Recorded s trail 0 t ∧
      t.symCount = 0 ∧ ∀ p a, ¬ s.LeafAt p a) ∨
    (∃ c t p n counted, assignCodes s = .error c (slotInfo n) t ∧ s.AssignStopsAt p n (errNumber c) counted ∧
      s.AssignedBefore t p counted) := by
  have hends := assignWalk_root_ends s
  unfold assignCodes
  cases hwalk : assignWalk 511 [] (pushChild (slotOf s.root) 0 0 []) s.assignStart with
  | ok a t =>
    rw [hwalk] at hends
    obtain ⟨trail, hw, hr⟩ := hends
    by_cases hcount : t.symCount = 0
    · have no_leaf : ∀ p a, ¬ s.LeafAt p a := fun p a hp => by
        simpa [hcount] using (hr.one_le_symCount_iff hw).2 ⟨p, a, hp⟩
      exact .inr (.inl ⟨trail, t, if_pos hcount, hw, hr, hcount, no_leaf⟩)
    · have hone : 1 ≤ t.symCount.toNat := Nat.one_le_iff_ne_zero.2 fun h0 => hcount (BitVec.eq_of_toNat_eq h0)
      exact .inl ⟨trail, t.setSync true, if_neg hcount, hw, { hr with codes := hr.codes }, hone, rfl⟩
  | error c info t =>
    rw [hwalk] at hends
    obtain ⟨p, n, counted, hstop, rfl, hbefore⟩ := hends
    exact .inr (.inr ⟨c, t, p, n, counted, rfl, hstop, hbefore⟩)
  | stop f =>
    rw [hwalk] at hends
    exact hends.elim

/-- An ASSIGN that leaves SYNC 1 has visited every reachable path and found a leaf, and the tree is as it was. -/
theorem exec_assign_sync {s t : State} (hl : s.lock = false) (h : exec .assign s = .next t) (hs : t.sync = true) :
    ∃ trail, Walked s trail [] ∧ Recorded s trail 0 t ∧ 1 ≤ t.symCount.toNat ∧ t.TreeMatches ∧
      t.root = s.root := by
  rw [exec_assign_of_unlocked hl] at h
  obtain ⟨trail, u, e, hw, hr, hone, -⟩ | ⟨_, u, e, -⟩ | ⟨_, u, _, _, _, e, -⟩ := assignCodes_cases s <;>
    rw [e] at h <;> cases h
  · have hframe := (assignCodes_tableOnly s).of_ok e
    have hroot : u.root = s.root := by rw [hframe]
    exact ⟨trail, hw, { hr with codes := hr.codes }, hone, (assignCodes_ok_treeMatches e).congr rfl rfl rfl, hroot⟩
  · cases (assignCodes_error_sync e).symm.trans hs
  · cases (assignCodes_error_sync e).symm.trans hs

theorem Walked.visitOk {s : State} {trail : List Visit} (h : Walked s trail []) {q : List Bool} {n : Slot}
    (hq : s.reach q = some n) : s.VisitOk q n := by
  obtain ⟨v, hv, rfl⟩ := h.reach_iff.1 ⟨n, hq⟩
  obtain rfl := (h.visitedOn v hv).slot_eq hq
  exact h.ok v hv

/-- Settles O30: the frame by O51, the outcomes by `assignCodes_cases`. -/
theorem assignCompletes : Obligations.AssignCompletes := by
  intro s hl
  obtain ⟨t, h⟩ := exec_next .assign (by decide) s
  refine ⟨t, h, commandsWriteOnlyTheirRegisters .assign s t h, ?_⟩
  rw [exec_assign_of_unlocked hl] at h
  obtain ⟨_, u, e, -, -, hone, hsync⟩ | ⟨_, u, e, hw, hr, hcount, no_leaf⟩ | ⟨_, u, p, n, k, e, hstop, hbefore⟩ :=
    assignCodes_cases s <;> rw [e] at h <;> cases h
  · have hframe := (assignCodes_tableOnly s).of_ok e
    exact .inl ⟨hsync, by rw [hframe]; rfl, by rw [hframe]; rfl, by rw [hframe]; rfl, hone⟩
  · have hsync := assignCodes_error_sync e
    refine .inr ⟨hsync, rfl, .inl ⟨rfl, rfl, hcount, fun a => ?_, no_leaf⟩⟩
    refine Option.eq_none_iff_forall_ne_some.2 fun c hc => ?_
    obtain ⟨-, q, -, hq, -⟩ := (hr.codes_iff hw a c).1 hc
    exact no_leaf q a hq
  · have hsync := assignCodes_error_sync e
    exact .inr ⟨hsync, rfl, .inr ⟨p, n, k, hstop, rfl, { hbefore with codes := hbefore.codes }⟩⟩

/-- Settles O33: the walk visited every reachable path (`Walked.reach_iff`) and recorded its leaves. -/
theorem assignGivesPathCodes : Obligations.AssignGivesPathCodes := by
  intro s t hl h hs
  obtain ⟨trail, hw, hr, hone, -, hroot⟩ := exec_assign_sync hl h hs
  refine ⟨fun a c => ?codes, ?symCount, hone, ?nodeCount, hr.tm, hroot⟩
  case codes =>
    rw [hr.codes_iff hw]
    refine and_congr_right fun _ => exists_congr fun q => ?_
    exact ⟨fun hq => hq.2, fun hq => ⟨hw.reach_iff.1 hq.1.reaches, hq⟩⟩
  case symCount => exact hr.symCount.trans (hw.ncard_slots fun n => leafNode (s.tmAt n)).symm
  case nodeCount =>
    have hcard := hw.ncard_slots fun _ => true
    simp only [and_true, List.countP_true] at hcard
    rw [hr.nodeCount, Nat.add_zero, hcard]

/-- A leaf's path begins no other leaf's. -/
theorem State.LeafAt.eq_of_prefix {s : State} {p q : List Bool} {a b : Byte} (hp : s.LeafAt p a) (hq : s.LeafAt q b)
    (h : p <+: q) : a = b := by
  obtain ⟨n, hn, hleaf, rfl⟩ := hp
  obtain ⟨m, hm, -, rfl⟩ := hq
  obtain ⟨r, rfl⟩ := h
  obtain ⟨c, hc, hr⟩ := State.reach_append.1 hm
  obtain rfl := Option.some.inj (hc.symm.trans hn)
  obtain ⟨-, rfl⟩ := (walkTree_of_leaf hleaf).1 hr
  rfl

/-- In a table that a tree decodes no code begins another (41_tree_assign.md R177). -/
theorem State.TreeMatches.prefixFree {s : State} (h : s.TreeMatches) : s.PrefixFree := by
  intro a b ca cb hne ha hb hprefix
  obtain ⟨p, hp, hpbits⟩ := h.codeLeaf a ca ha
  obtain ⟨q, hq, hqbits⟩ := h.codeLeaf b cb hb
  by_cases hp0 : p = []
  · exact hne (hp.eq_of_prefix hq (hp0 ▸ List.nil_prefix))
  by_cases hq0 : q = []
  · exact hne (hq.eq_of_prefix hp (hq0 ▸ List.nil_prefix)).symm
  rw [hpbits, hqbits, leafBits, leafBits, if_neg hp0, if_neg hq0] at hprefix
  exact hne (hp.eq_of_prefix hq hprefix)

/-- Where the root is a leaf, it is the only one. -/
theorem State.ncard_leaves_le_one {s : State} {a : Byte} (h : s.LeafAt [] a) :
    {n : Slot | ∃ path, s.reach path = some n ∧ leafNode (s.tmAt n) = true}.ncard ≤ 1 := by
  obtain ⟨r, hr, hleaf, -⟩ := h
  have hsub : {n : Slot | ∃ path, s.reach path = some n ∧ leafNode (s.tmAt n) = true} ⊆ {r} := by
    rintro n ⟨path, hn, -⟩
    rw [State.reach_of_root (s.reach_nil.symm.trans hr), walkTree_of_leaf hleaf] at hn
    exact hn.2
  exact (Set.ncard_le_ncard hsub).trans_eq (Set.ncard_singleton r)

/-- Settles O34: the tree decodes the table a successful ASSIGN leaves, and with two symbols the root is no leaf. -/
theorem assignCodesArePrefixFree : Obligations.AssignCodesArePrefixFree := by
  intro s t hl h hs
  obtain ⟨_, -, -, -, hmatches, -⟩ := exec_assign_sync hl h hs
  obtain ⟨-, hcount, -, -, htm, hroot⟩ := assignGivesPathCodes s t hl h hs
  refine ⟨hmatches.prefixFree, fun htwo a c hc => ?_⟩
  obtain ⟨p, hp, hbits⟩ := hmatches.codeLeaf a c hc
  have htmAt : t.tmAt = s.tmAt := funext fun n => State.tmAt_congr n htm
  have hp0 : p ≠ [] := by
    rintro rfl
    have hone := State.ncard_leaves_le_one hp
    rw [State.reach_congr htm hroot, htmAt, ← hcount] at hone
    omega
  rwa [hbits, leafBits, if_neg hp0]

/-- No error applies to any reachable path exactly where every one leads to a used slot, at most 255 deep, and no two
share a slot or a leaf's symbol (41_tree_assign.md R175). -/
theorem State.forall_visitOk_iff {s : State} : (∀ p n, s.reach p = some n → s.VisitOk p n) ↔
    (∀ p n, s.reach p = some n → usedNode (s.tmAt n) = true ∧ p.length ≤ 255) ∧
    (∀ p q n, s.reach p = some n → s.reach q = some n → p = q) ∧
    ∀ p q a, s.LeafAt p a → s.LeafAt q a → p = q := by
  constructor
  · intro h
    refine ⟨fun p n hp => ?_, fun p q n hp hq => ?_, fun p q a hp hq => ?_⟩
    · obtain ⟨hused, -, hdepth, -⟩ := h p n hp
      exact ⟨hused, hdepth⟩
    · by_contra hne
      obtain hb | hb := pathBefore_total hne
      · obtain ⟨-, hnew, -, -⟩ := h q n hq
        exact hnew ⟨p, hb, hp⟩
      · obtain ⟨-, hnew, -, -⟩ := h p n hp
        exact hnew ⟨q, hb, hq⟩
    · by_contra hne
      obtain ⟨n, hn, hnleaf, hna⟩ := id hp
      obtain ⟨m, hm, hmleaf, hma⟩ := id hq
      obtain hb | hb := pathBefore_total hne
      · obtain ⟨-, -, -, hfree⟩ := h q m hm
        exact hfree ⟨hmleaf, p, hb, hma ▸ hp⟩
      · obtain ⟨-, -, -, hfree⟩ := h p n hn
        exact hfree ⟨hnleaf, q, hb, hna ▸ hq⟩
  · rintro ⟨hslots, hpaths, hsyms⟩ p n hp
    obtain ⟨hused, hdepth⟩ := hslots p n hp
    refine ⟨hused, ?_, hdepth, ?_⟩
    · rintro ⟨q, hb, hq⟩
      obtain rfl := hpaths p q n hp hq
      simp at hb
    · rintro ⟨hleaf, q, hb, hq⟩
      obtain rfl := hsyms p q _ ⟨n, hp, hleaf, rfl⟩ hq
      simp at hb

/-- The walk stops at a path to which an error applies. -/
theorem State.AssignStopsAt.not_visitOk {s : State} {p : List Bool} {n : Slot} {code : Byte} {counted : Nat}
    (h : s.AssignStopsAt p n code counted) : ¬ s.VisitOk p n := by
  rintro ⟨hused, hnew, hdepth, hfree⟩
  obtain ⟨-, -, hunused | hrevisited⟩ | ⟨-, -, -, -, hdeep⟩ | ⟨-, -, -, -, -, htaken⟩ := h.error
  · simp [hused] at hunused
  · exact hnew hrevisited
  · omega
  · exact hfree htaken

/-- Settles O35: a completed walk met no error on any path, and a stopped one met one. -/
theorem assignSucceedsExactlyOnGoodTrees : Obligations.AssignSucceedsExactlyOnGoodTrees := by
  intro s hl
  obtain ⟨t, h⟩ := exec_next .assign (by decide) s
  refine ⟨t, h, ?_⟩
  suffices hgood : t.sync = true ↔ (∀ p n, s.reach p = some n → s.VisitOk p n) ∧ ∃ p a, s.LeafAt p a by
    rwa [State.forall_visitOk_iff, and_assoc, and_assoc] at hgood
  rw [exec_assign_of_unlocked hl] at h
  obtain ⟨_, u, e, hw, hr, hone, hsync⟩ | ⟨_, u, e, -, -, -, no_leaf⟩ | ⟨_, u, p, n, _, e, hstop, -⟩ :=
    assignCodes_cases s <;> rw [e] at h <;> cases h
  · exact iff_of_true hsync ⟨fun _ _ => hw.visitOk, (hr.one_le_symCount_iff hw).1 hone⟩
  · have hsync := assignCodes_error_sync e
    refine iff_of_false (Bool.eq_false_iff.1 hsync) fun ⟨_, p, a, hp⟩ => ?_
    exact no_leaf p a hp
  · have hsync := assignCodes_error_sync e
    refine iff_of_false (Bool.eq_false_iff.1 hsync) fun ⟨hok, _⟩ => ?_
    exact hstop.not_visitOk (hok p n hstop.here)

/-! ### ASSIGN at the root -/

theorem slotOf_eq_some_iff_toNat {i : SlotIndex} {n : Slot} : slotOf i = some n ↔ i.toNat = n.val := by
  have hn := n.isLt
  rw [slotOf_eq_some, ← BitVec.toNat_inj, indexOf, BitVec.toNat_ofNat, Nat.mod_eq_of_lt (by omega)]

theorem assignCodes_of_nil {s : State} (hroot : s.root = 0x1FF) :
    assignCodes s = .error .invalidInput 0 s.assignStart := by
  rw [assignCodes, hroot, slotOf_nil]
  rfl

theorem assignCodes_of_unused {s : State} {r : Slot} (hroot : slotOf s.root = some r)
    (hused : usedNode (s.tmAt r) = false) :
    assignCodes s = .error .malformedTree (slotInfo r) s.assignStart := by
  have htm : s.assignStart.tmAt r = s.tmAt r := rfl
  simp [assignCodes, hroot, pushChild, assignWalk, htm, hused]

/-- Settles O31: the walk has nothing to visit, or stops at the root. -/
theorem assignRootErrors : Obligations.AssignRootErrors := by
  refine fun s hl => ⟨fun hroot => ?_, fun r hroot hused => ?_⟩
  · rw [exec_assign_of_unlocked hl, assignCodes_of_nil hroot]
    rfl
  · rw [exec_assign_of_unlocked hl, assignCodes_of_unused (slotOf_eq_some_iff_toNat.2 hroot) hused]
    rfl

theorem assignCodes_of_root_leaf {s : State} {r : Slot} (hroot : slotOf s.root = some r)
    (hused : usedNode (s.tmAt r) = true) (hleaf : leafNode (s.tmAt r) = true) :
    assignCodes s = .ok () ((s.assignStart.assignLeaf ⟨r, 0, 0⟩).setSync true) := by
  have htm : s.assignStart.tmAt r = s.tmAt r := rfl
  have hnone : s.assignStart.countNode.ctAt (nodeSym (s.tmAt r)) = none := s.ctAt_assignStart _
  simp [assignCodes, hroot, pushChild, assignWalk, htm, hused, hleaf, hnone, State.assignLeaf]

/-- Where SYM_COUNT is 1, the one entry with a code is the sole entry (44_decode.md R253). -/
theorem State.soleEntry_of_count {s : State} (h : s.CountsTable) (hone : s.symCount = 1) {a : Byte} {c : Code}
    (hc : s.ctAt a = some c) (hlen : c.len ≠ 0) : s.soleEntry = some (a, c) := by
  have hlength : s.validEntries.length = 1 := by
    rw [← h, hone]
    rfl
  obtain ⟨e, he⟩ := List.length_eq_one_iff.1 hlength
  have hmem := (s.mem_validEntries a c).2 hc
  rw [he, List.mem_singleton] at hmem
  simp only [State.soleEntry, he, ← hmem, if_neg hlen]

/-- Settles O32: one round of the walk, which gives the root's symbol the code of the empty path. -/
theorem assignLoneLeafGetsZero : Obligations.AssignLoneLeafGetsZero := by
  intro s r hl hroot hused hleaf
  have hassign := assignCodes_of_root_leaf (slotOf_eq_some_iff_toNat.2 hroot) hused hleaf
  have hsym : (s.tmAt r).setWidth 8 = nodeSym (s.tmAt r) := BitVec.setWidth_eq_extractLsb' (by decide)
  have hcounts : (s.assignStart.assignLeaf ⟨r, 0, 0⟩).CountsTable :=
    State.CountsTable.newEntry (s := s.assignStart.countNode)
      (State.countsTable_of_empty s.ctAt_assignStart rfl) (s.ctAt_assignStart _) _
  have hcode : (s.assignStart.assignLeaf ⟨r, 0, 0⟩).ctAt (nodeSym (s.tmAt r)) = some loneCode :=
    s.assignStart.countNode.ctAt_setCt_same _ _
  rw [hsym]
  refine ⟨((s.assignStart.assignLeaf ⟨r, 0, 0⟩).setSync true).succeeds, loneCode, ?_, hcode, rfl, rfl,
    fun a ha => ?_, rfl, rfl, rfl, ?_, rfl⟩
  · rw [exec_assign_of_unlocked hl, hassign, complete_ok]
  · exact (s.assignStart.countNode.ctAt_setCt_other _ ha).trans (s.ctAt_assignStart a)
  · exact State.soleEntry_of_count hcounts rfl hcode (by decide)

/-! ### TREE_CLEAR, NODE_WR and NODE_RD -/

theorem nodeWrite_of_slot {s : State} {n : Slot} (h : slotOf s.nodeIdx = some n) :
    nodeWrite s = .ok () ((s.setTm n s.nodeData).setSync false) := by
  simp [nodeWrite, h]

theorem nodeRead_of_slot {s : State} {n : Slot} (h : slotOf s.nodeIdx = some n) :
    nodeRead s = .ok () (s.setNodeData (s.tmAt n)) := by
  simp [nodeRead, h]

/-- Settles O27: the three branches of NODE_WR. -/
theorem nodeWrWritesSlot : Obligations.NodeWrWritesSlot := by
  have run : ∀ s : State, s.lock = false → exec .nodeWr s = complete (nodeWrite s) := fun s hl =>
    congrArg complete (ifUnlocked_of_unlocked _ hl)
  refine fun s => ⟨fun hl => ?locked, fun hl hnil => ?nil, fun hl n hn => ?slot⟩
  case locked => exact lockedCommandsChangeNothing s .nodeWr hl (by decide)
  case nil =>
    rw [run s hl, nodeWrite, hnil, slotOf_nil]
    rfl
  case slot =>
    rw [run s hl, nodeWrite_of_slot (slotOf_eq_some_iff_toNat.2 hn)]
    exact ⟨_, rfl, s.tmAt_setTm_same n _, fun m hm => s.tmAt_setTm_other _ hm, rfl, rfl⟩

/-- Settles O28: the two branches of NODE_RD. -/
theorem nodeRdReadsSlot : Obligations.NodeRdReadsSlot := by
  refine fun s => ⟨fun hnil => ?nil, fun n hn => ?slot⟩
  case nil =>
    change complete (nodeRead s) = _
    rw [nodeRead, hnil, slotOf_nil]
    rfl
  case slot =>
    exact congrArg complete (nodeRead_of_slot (slotOf_eq_some_iff_toNat.2 hn))

/-- Settles O26: what follows it is ASSIGN at an unused root (O31) and NODE_RD of a cleared slot (O28). -/
theorem treeClearEmptiesTree : Obligations.TreeClearEmptiesTree := by
  refine fun s => ⟨fun hl => lockedCommandsChangeNothing s .treeClear hl (by decide), fun hl => ?_⟩
  have hzero : ∀ n, ((s.clearTree.setSync false).succeeds).tmAt n = 0 := s.tmAt_clearTree
  refine ⟨(s.clearTree.setSync false).succeeds, ?run, hzero, rfl, rfl, rfl, fun hroot => ?assign, fun n => ?read⟩
  case run => exact congrArg complete (ifUnlocked_of_unlocked _ hl)
  case assign =>
    obtain ⟨r, hr⟩ := Option.ne_none_iff_exists'.1 (mt slotOf_eq_none.1 hroot)
    have hassign := (assignRootErrors (s.clearTree.setSync false).succeeds hl).2 r (slotOf_eq_some_iff_toNat.1 hr)
      (by rw [hzero]; rfl)
    refine ⟨_, hassign, rfl, rfl, ?_⟩
    rw [slotOf_eq_some.1 hr, setWidth_indexOf]
    rfl
  case read =>
    exact ⟨_, (nodeRdReadsSlot _).2 n (slotOf_eq_some_iff_toNat.1 (slotOf_indexOf n)), hzero n⟩

end Sys2Proof.Machine

/-! PROOFS. The family 42_encode.md: the bit buffer as a list of bits, how far ENCODE's loop has come, and where it
stops. -/

namespace Sys2Proof.Machine

/-! ### The bit buffer and the bytes of OBUF as lists of bits -/

/-- The low `n` bits of a byte, most significant first (42_encode.md R202, 20_memory.md R82). -/
def lowBits (v : Byte) (n : Nat) : List Bool := (List.range n).map fun j => v.getLsbD (n - 1 - j)

/-- The bits that ACC and NACC hold (42_encode.md R202). -/
def Packer.bits (p : Packer) : List Bool := lowBits p.acc p.nacc

/-- ACC and NACC after one more bit, whether or not it fills a byte (42_encode.md R202). -/
def Packer.push (p : Packer) (b : Bool) : Packer :=
  { acc := 2 * p.acc + (BitVec.ofBool b).setWidth 8, nacc := p.nacc + 1 }

/-- The bits of the whole bytes that a streaming command has put out, OBUF bytes 0..OUT_LEN-1. -/
def State.outBits (s : State) : List Bool := (List.range (8 * s.outLen.toNat)).map s.outBit

@[simp] theorem length_lowBits (v : Byte) (n : Nat) : (lowBits v n).length = n := by simp [lowBits]

@[simp] theorem Packer.length_bits (p : Packer) : p.bits.length = p.nacc := length_lowBits _ _

@[simp] theorem Packer.bits_empty : Packer.empty.bits = [] := rfl

@[simp] theorem State.length_outBits (s : State) : s.outBits.length = 8 * s.outLen.toNat := by simp [State.outBits]

/-- Shifting a bit into a byte moves the others up by one place. -/
theorem getLsbD_pushBit (v : Byte) (b : Bool) {i : Nat} (hi : i < 8) :
    (2 * v + (BitVec.ofBool b).setWidth 8).getLsbD i = if i = 0 then b else v.getLsbD (i - 1) := by
  have hval : (2 * v + (BitVec.ofBool b).setWidth 8).toNat = Nat.bit b v.toNat % 2 ^ 8 := by
    cases b <;> simp [Nat.bit_val, BitVec.toNat_add, BitVec.toNat_mul]
  rw [← BitVec.testBit_toNat, hval, Nat.testBit_mod_two_pow, decide_eq_true hi, Bool.true_and]
  cases i with
  | zero => simp
  | succ i =>
    rw [Nat.testBit_bit_succ]
    rfl

/-- A bit goes in behind the bits already held. -/
theorem Packer.bits_push {p : Packer} (b : Bool) (h : p.nacc < 8) : (p.push b).bits = p.bits ++ [b] := by
  have hold : ((List.range p.nacc).map fun j => (p.push b).acc.getLsbD (p.nacc + 1 - 1 - j)) = p.bits := by
    refine List.map_congr_left fun j hj => ?_
    have hj := List.mem_range.1 hj
    rw [Packer.push, getLsbD_pushBit _ _ (by omega), if_neg (by omega)]
    congr 1
    omega
  have hnew : (p.push b).acc.getLsbD (p.nacc + 1 - 1 - p.nacc) = b := by
    rw [Packer.push, getLsbD_pushBit _ _ (by omega), if_pos (by omega)]
  change lowBits (p.push b).acc (p.nacc + 1) = _
  rw [lowBits, List.range_succ, List.map_append, hold, List.map_singleton, hnew]

/-- Moving the bits held to the top of the byte pads them with zeros (42_encode.md R204). -/
theorem lowBits_shiftLeft {p : Packer} (h : p.nacc ≤ 8) :
    lowBits (p.acc <<< (8 - p.nacc)) 8 = p.bits ++ List.replicate (8 - p.nacc) false := by
  refine List.ext_getElem (by simp; omega) fun j hj _ => ?_
  have hj : j < 8 := by simpa using hj
  simp only [lowBits, Packer.bits, List.getElem_map, List.getElem_range, List.getElem_append, List.length_map,
    List.length_range, List.getElem_replicate, BitVec.getLsbD_shiftLeft]
  split
  · rw [decide_eq_true (by omega), decide_eq_false (by omega)]
    simp only [Bool.not_false, Bool.true_and]
    congr 1
    omega
  · rw [decide_eq_true (by omega : 8 - 1 - j < 8 - p.nacc)]
    simp

/-- One output byte adds its bits to the bits put out. -/
theorem State.outBits_appendOut {s : State} (v : Byte) (h : s.outLen.toNat < s.cfg.obufBytes) :
    (s.appendOut v).outBits = s.outBits ++ lowBits v 8 := by
  have hold : ((List.range (8 * s.outLen.toNat)).map (s.appendOut v).outBit) = s.outBits := by
    refine List.map_congr_left fun k hk => ?_
    have hk := List.mem_range.1 hk
    rw [State.outBit, s.bufByte_appendOut_other v (by omega)]
    rfl
  have hnew : ((List.range 8).map fun j => (s.appendOut v).outBit (8 * s.outLen.toNat + j)) = lowBits v 8 := by
    refine List.map_congr_left fun j hj => ?_
    have hj := List.mem_range.1 hj
    have hbyte : (8 * s.outLen.toNat + j) / 8 = s.outLen.toNat := by omega
    have hbit : 7 - (8 * s.outLen.toNat + j) % 8 = 8 - 1 - j := by omega
    rw [State.outBit, hbyte, s.bufByte_appendOut_same v, bitInByte, hbit]
  rw [State.outBits, s.outLen_appendOut_toNat v h, Nat.mul_succ, List.range_add, List.map_append, hold,
    List.map_map, ← hnew]
  rfl

/-- Bit 7-j of OBUF byte k is bit 8k+j of what was put out (20_memory.md R82). -/
theorem State.getLsbD_bufByte_of_outBits {s : State} {bs : List Bool} (h : s.outBits <+: bs) {k j : Nat}
    (hk : k < s.outLen.toNat) (hj : j < 8) :
    (s.bufByte .obuf k).getLsbD (7 - j) = bs.getD (8 * k + j) false := by
  obtain ⟨rest, rfl⟩ := h
  have hidx : 8 * k + j < s.outBits.length := by
    rw [State.length_outBits]
    omega
  have hbyte : (8 * k + j) / 8 = k := by omega
  have hbit : (8 * k + j) % 8 = j := by omega
  rw [List.getD_append _ _ _ _ hidx, List.getD_eq_getElem _ _ hidx]
  simp only [State.outBits, List.getElem_map, List.getElem_range, State.outBit, bitInByte, hbyte, hbit]

/-! ### The codes of the first input symbols -/

theorem State.take_inputSyms {s : State} {m : Nat} (h : m ≤ s.inLen.toNat) :
    s.inputSyms.take m = (List.range m).map (s.bufByte .ibuf) := by
  rw [State.inputSyms, ← List.map_take, List.take_range, Nat.min_eq_left h]

theorem State.take_inputSyms_inLen (s : State) : s.inputSyms.take s.inLen.toNat = s.inputSyms :=
  s.take_inputSyms le_rfl

/-- The bitstream grows by the code of each symbol (30_encoding.md R116). -/
theorem State.codeBits_take_succ {s : State} {m : Nat} {c : Code} (h : m < s.inLen.toNat)
    (hc : s.ctAt (s.bufByte .ibuf m) = some c) :
    s.codeBits (s.inputSyms.take (m + 1)) = s.codeBits (s.inputSyms.take m) ++ c.bits := by
  rw [s.take_inputSyms h, s.take_inputSyms h.le, List.range_succ, List.map_append, State.codeBits, List.flatMap_append]
  simp [State.codeBits, hc]

/-- The codes of the first input symbols are the beginning of the whole bitstream. -/
theorem State.codeBits_take_prefix (s : State) (m : Nat) :
    s.codeBits (s.inputSyms.take m) <+: s.codeBits s.inputSyms := by
  refine ⟨s.codeBits (s.inputSyms.drop m), ?_⟩
  rw [State.codeBits, State.codeBits, ← List.flatMap_append, List.take_append_drop]
  rfl

/-! ### What ENCODE has put out -/

theorem Emitted.outputOnly {s t : State} (h : Emitted s t) : OutputOnly s t := h.1

theorem Emitted.outInside {s t : State} (h : Emitted s t) : t.OutInside := h.2.1

theorem Emitted.tailSame {s t : State} (h : Emitted s t) : TailSame s t := h.2.2.2.1

/-- One more output byte, where OBUF has room for it. -/
theorem Emitted.appendOut {s t : State} (v : Byte) (h : Emitted s t) (hlt : t.outLen.toNat < t.cfg.obufBytes) :
    Emitted s (t.appendOut v) := by
  have hbyte := emitByte_emitted v 0 h.outInside
  rw [emitByte, if_neg hlt.ne] at hbyte
  exact h.trans hbyte

/-- `t` has put out whole bytes of the bitstream `bits` since ENCODE began in `s`, and counts `n` bits in BIT_LEN. -/
structure PutOut (s : State) (n : Nat) (bits : List Bool) (t : State) : Prop where
  emitted : Emitted s.encodeStart t
  bitLen : t.bitLen.toNat = n
  bits : t.outBits <+: bits

/-- Between two bits of ENCODE's loop: `whole` are the bits of the symbols before the current one, counted in BIT_LEN,
and `part` those of the current one that are already packed; the whole bytes are put out, and the bit buffer holds the
rest. -/
structure Packed (s : State) (whole part : List Bool) (p : Packer) (t : State) : Prop where
  emitted : Emitted s.encodeStart t
  bitLen : t.bitLen.toNat = whole.length
  room : p.nacc < 8
  bits : t.outBits ++ p.bits = whole ++ part

namespace Packed

variable {s t : State} {whole part : List Bool} {p : Packer}

theorem start (s : State) : Packed s [] [] Packer.empty s.encodeStart :=
  ⟨Emitted.refl s.encodeStart_outInside, rfl, by decide, rfl⟩

theorem putOut (h : Packed s whole part p t) : PutOut s whole.length (whole ++ part) t :=
  ⟨h.emitted, h.bitLen, _, h.bits⟩

theorem putOut_whole (h : Packed s whole [] p t) : PutOut s whole.length whole t := by
  simpa only [List.append_nil] using h.putOut

theorem cfg (h : Packed s whole part p t) : t.cfg = s.cfg := h.emitted.cfg

theorem outInside (h : Packed s whole part p t) : t.outLen.toNat ≤ s.cfg.obufBytes := h.cfg ▸ h.emitted.outInside

/-- OUT_LEN and NACC count the bits packed. -/
theorem count (h : Packed s whole part p t) : 8 * t.outLen.toNat + p.nacc = whole.length + part.length := by
  simpa using congrArg List.length h.bits

/-- No more bits are packed than OBUF and the bit buffer hold. -/
theorem length_lt (h : Packed s whole part p t) : whole.length + part.length < 8 * (s.cfg.obufBytes + 1) := by
  have := h.count
  have := h.outInside
  have := h.room
  omega

theorem outLen_eq (h : Packed s whole part p t) : t.outLen.toNat = (whole.length + part.length) / 8 := by
  have := h.count
  have := h.room
  omega

/-- What ENCODE looks up for symbol `i` is as it was at the start (42_encode.md R207 (e)). -/
theorem lookup (h : Packed s whole part p t) (i : Nat) :
    t.ctAt (t.bufByte .ibuf i) = s.ctAt (s.bufByte .ibuf i) := by
  rw [h.emitted.outputOnly.bufByte_ibuf]
  exact State.ctAt_congr _ h.emitted.outputOnly.ct

end Packed

/-! ### One bit, one code -/

theorem packBit_of_room {p : Packer} (b : Bool) (i : Nat) (s : State) (h : p.nacc + 1 ≠ 8) :
    packBit b i p s = .ok (p.push b) s := if_neg h

theorem packBit_of_full {p : Packer} (b : Bool) (i : Nat) (s : State) (h : p.nacc + 1 = 8) :
    packBit b i p s =
      (emitByte (p.push b).acc (BitVec.ofNat 32 i) s).andThen fun _ s' => .ok Packer.empty s' := if_pos h

/-- One more bit is packed, or it completes one byte too many and nothing changes (42_encode.md R202, R206). -/
theorem Packed.packBit {s t : State} {whole part : List Bool} {p : Packer} (h : Packed s whole part p t) (b : Bool)
    (i : Nat) :
    (∃ p' t', packBit b i p t = .ok p' t' ∧ Packed s whole (part ++ [b]) p' t') ∨
      (packBit b i p t = .error .outputOverflow (BitVec.ofNat 32 i) t ∧ t.outLen.toNat = s.cfg.obufBytes ∧
        p.nacc + 1 = 8) := by
  have hbits : t.outBits ++ (p.push b).bits = whole ++ (part ++ [b]) := by
    rw [Packer.bits_push b h.room, ← List.append_assoc, h.bits, List.append_assoc]
  by_cases hfull : p.nacc + 1 = 8
  · rw [packBit_of_full b i t hfull]
    obtain ⟨hout, he⟩ | ⟨hout, he⟩ := emitByte_cases (p.push b).acc (BitVec.ofNat 32 i) t
    · rw [he]
      exact .inr ⟨rfl, h.cfg ▸ hout, hfull⟩
    · have hlt : t.outLen.toNat < t.cfg.obufBytes := lt_of_le_of_ne h.emitted.outInside hout
      have hbyte : lowBits (p.push b).acc 8 = (p.push b).bits := hfull ▸ rfl
      rw [he]
      refine .inl ⟨_, _, rfl, h.emitted.appendOut _ hlt, h.bitLen, by decide, ?_⟩
      rw [Packer.bits_empty, List.append_nil, State.outBits_appendOut _ hlt, hbyte, hbits]
  · have hroom := h.room
    have hroom' : p.nacc + 1 < 8 := by omega
    exact .inl ⟨_, _, packBit_of_room b i t hfull, h.emitted, h.bitLen, hroom', hbits⟩

/-- The bits of a code are packed, or OBUF is full and has no room for the byte that one of them completes
(42_encode.md R202, R206). -/
theorem Packed.packBits {s t : State} {whole part : List Bool} {p : Packer} (h : Packed s whole part p t)
    (bs : List Bool) (i : Nat) :
    (∃ p' t', packBits bs i p t = .ok p' t' ∧ Packed s whole (part ++ bs) p' t') ∨
      (∃ t', packBits bs i p t = .error .outputOverflow (BitVec.ofNat 32 i) t' ∧
        PutOut s whole.length (whole ++ (part ++ bs)) t' ∧ t'.outLen.toNat = s.cfg.obufBytes ∧
        8 * (s.cfg.obufBytes + 1) ≤ whole.length + (part ++ bs).length) := by
  induction bs generalizing part p t with
  | nil => exact .inl ⟨p, t, rfl, by simpa using h⟩
  | cons b bs ih =>
    rw [Machine.packBits]
    obtain ⟨p', t', he, h'⟩ | ⟨he, hout, hnacc⟩ := h.packBit b i
    · rw [he, CmdResult.ok_andThen]
      simpa using ih h'
    · have hcount := h.count
      have hputOut := h.putOut
      refine .inr ⟨t, by rw [he, CmdResult.error_andThen], ⟨hputOut.emitted, hputOut.bitLen, ?_⟩, hout, ?_⟩
      · rw [← List.append_assoc]
        exact hputOut.bits.trans (List.prefix_append _ _)
      · simp only [List.length_append, List.length_cons]
        omega

/-- At the end of a symbol, BIT_LEN counts its code; it does not wrap (42_encode.md R207 (g)). -/
theorem Packed.addBitLen {s t : State} {whole : List Bool} {p : Packer} {c : Code}
    (h : Packed s whole c.bits p t) : Packed s (whole ++ c.bits) [] p (t.addBitLen c.len) := by
  refine ⟨h.emitted.addBitLen c.len, ?_, h.room, by rw [List.append_nil]; exact h.bits⟩
  have hlen := h.length_lt
  have hbuf := s.cfg.obufBytes_le
  have hsum : (t.addBitLen c.len).bitLen.toNat = (t.bitLen.toNat + c.len.toNat) % 2 ^ 32 := by
    simp [State.addBitLen, BitVec.toNat_add]
  rw [Code.length_bits] at hlen
  rw [hsum, h.bitLen, List.length_append, Code.length_bits]
  omega

/-! ### The symbols -/

/-- The first `m` input symbols have codes, and OBUF has room for their whole bytes. -/
structure State.PacksFirst (s : State) (m : Nat) : Prop where
  coded : ∀ j, j < m → s.ctAt (s.bufByte .ibuf j) ≠ none
  fits : (s.codeBits (s.inputSyms.take m)).length < 8 * (s.cfg.obufBytes + 1)

theorem State.packsFirst_zero (s : State) : s.PacksFirst 0 :=
  ⟨fun _ hj => absurd hj (Nat.not_lt_zero _), by simp [State.codeBits]⟩

theorem packSymbols_unknown {k i : Nat} {p : Packer} {s : State} (h : s.ctAt (s.bufByte .ibuf i) = none) :
    packSymbols (k + 1) i p s = .error .unknownSymbol (BitVec.ofNat 32 i) s := by simp [packSymbols, h]

theorem packSymbols_coded {k i : Nat} {p : Packer} {s : State} {c : Code}
    (h : s.ctAt (s.bufByte .ibuf i) = some c) :
    packSymbols (k + 1) i p s =
      (packBits c.bits i p s).andThen fun p' s' => packSymbols k (i + 1) p' (s'.addBitLen c.len) := by
  simp [packSymbols, h]

/-- One symbol of the input: its code is packed and counted, or OBUF has no room for a byte it completes. -/
theorem Packed.packSymbol {s t : State} {p : Packer} {m k : Nat} {c : Code}
    (h : Packed s (s.codeBits (s.inputSyms.take m)) [] p t) (hm : m < s.inLen.toNat)
    (hc : s.ctAt (s.bufByte .ibuf m) = some c) :
    (∃ p' t', packSymbols (k + 1) m p t = packSymbols k (m + 1) p' t' ∧
        Packed s (s.codeBits (s.inputSyms.take (m + 1))) [] p' t') ∨
      (∃ t', packSymbols (k + 1) m p t = .error .outputOverflow (BitVec.ofNat 32 m) t' ∧
        PutOut s (s.codeBits (s.inputSyms.take m)).length (s.codeBits (s.inputSyms.take (m + 1))) t' ∧
        t'.outLen.toNat = s.cfg.obufBytes ∧
        8 * (s.cfg.obufBytes + 1) ≤ (s.codeBits (s.inputSyms.take (m + 1))).length) := by
  rw [packSymbols_coded ((h.lookup m).trans hc), State.codeBits_take_succ hm hc, List.length_append]
  obtain ⟨p', t', he, h'⟩ | ⟨t', he, hput, hfull, hlen⟩ := h.packBits c.bits m
  · exact .inl ⟨p', _, by rw [he, CmdResult.ok_andThen], Packed.addBitLen h'⟩
  · exact .inr ⟨t', by rw [he, CmdResult.error_andThen], hput, hfull, hlen⟩

/-- The first symbols of the input, where they have codes and fit, are packed, and `k` are left. -/
theorem State.PacksFirst.packed {s : State} {m k : Nat} (h : s.PacksFirst m) (hk : s.inLen.toNat = m + k) :
    ∃ p t, Packed s (s.codeBits (s.inputSyms.take m)) [] p t ∧
      packSymbols s.inLen.toNat 0 Packer.empty s.encodeStart = packSymbols k m p t := by
  induction m generalizing k with
  | zero =>
    rw [hk, Nat.zero_add]
    exact ⟨_, _, Packed.start s, rfl⟩
  | succ m ih =>
    have hm : m < s.inLen.toNat := by omega
    obtain ⟨c, hc⟩ := Option.ne_none_iff_exists'.1 (h.coded m (Nat.lt_succ_self m))
    have hfits := h.fits
    have hbefore : s.PacksFirst m := by
      refine ⟨fun j hj => h.coded j (by omega), lt_of_le_of_lt ?_ hfits⟩
      rw [State.codeBits_take_succ hm hc, List.length_append]
      exact Nat.le_add_right _ _
    obtain ⟨p, t, hp, he⟩ := ih (k := k + 1) hbefore (by omega)
    obtain ⟨p', t', he', h'⟩ | ⟨-, -, -, -, hlong⟩ := hp.packSymbol (k := k) hm hc
    · exact ⟨p', t', h', he.trans he'⟩
    · omega

/-! ### The final byte -/

theorem packFlush_of_empty {p : Packer} (s : State) (h : p.nacc = 0) : packFlush p s = .ok () s := if_pos h

theorem packFlush_of_residue {p : Packer} (s : State) (h : p.nacc ≠ 0) :
    packFlush p s = emitByte (p.acc <<< (8 - p.nacc)) s.inLen s := if_neg h

/-- With room for the last byte, the bitstream is put out with its padding (42_encode.md R204). -/
theorem Packed.packFlush_ok {s t : State} {whole : List Bool} {p : Packer} (h : Packed s whole [] p t)
    (hroom : whole.length ≤ 8 * s.cfg.obufBytes) :
    ∃ t' n, packFlush p t = .ok () t' ∧ PutOut s whole.length (whole ++ List.replicate n false) t' ∧
      t'.outLen.toNat = (whole.length + 7) / 8 := by
  have hcount := h.count
  have hnacc := h.room
  rw [List.length_nil] at hcount
  by_cases hp : p.nacc = 0
  · exact ⟨t, 0, packFlush_of_empty t hp, h.putOut, by omega⟩
  · have hlt : t.outLen.toNat < t.cfg.obufBytes := by
      rw [h.cfg]
      omega
    refine ⟨t.appendOut (p.acc <<< (8 - p.nacc)), 8 - p.nacc, ?run, ⟨h.emitted.appendOut _ hlt, h.bitLen, ?bits⟩, ?len⟩
    case run => rw [packFlush_of_residue t hp, emitByte, if_neg hlt.ne]
    case bits =>
      rw [State.outBits_appendOut _ hlt, lowBits_shiftLeft hnacc.le, ← List.append_assoc, h.bits, List.append_nil]
    case len =>
      rw [State.outLen_appendOut_toNat _ hlt]
      omega

/-- Without room for the last byte, nothing changes (42_encode.md R206). -/
theorem Packed.packFlush_overflow {s t : State} {whole : List Bool} {p : Packer} (h : Packed s whole [] p t)
    (hlong : 8 * s.cfg.obufBytes < whole.length) :
    packFlush p t = .error .outputOverflow s.inLen t ∧ t.outLen.toNat = s.cfg.obufBytes := by
  have hcount := h.count
  have hnacc := h.room
  have hin := h.outInside
  rw [List.length_nil] at hcount
  have hfull : t.outLen.toNat = s.cfg.obufBytes := by omega
  rw [packFlush_of_residue t (by omega), emitByte, h.cfg, if_pos hfull, h.emitted.outputOnly.inLen]
  exact ⟨rfl, hfull⟩

/-! ### How ENCODE ends -/

namespace PutOut

variable {s t : State} {n : Nat} {bits : List Bool}

theorem outputOnly (h : PutOut s n bits t) : OutputOnly s t :=
  OutputOnly.trans (t := s.encodeStart) rfl h.emitted.outputOnly

theorem succeeds (h : PutOut s n bits t) : OutputOnly s.succeeds t.succeeds := congrArg State.succeeds h.outputOnly

theorem fails (h : PutOut s n bits t) (code : Byte) (info : Word) :
    OutputOnly (s.fails code info) (t.fails code info) :=
  congrArg (State.fails · code info) h.outputOnly

theorem tail (h : PutOut s n bits t) : TailSame s t := h.emitted.tailSame

theorem bit (h : PutOut s n bits t) {k j : Nat} (hk : k < t.outLen.toNat) (hj : j < 8) :
    (t.bufByte .obuf k).getLsbD (7 - j) = bits.getD (8 * k + j) false :=
  State.getLsbD_bufByte_of_outBits h.bits hk hj

end PutOut

theorem encodeStream_of_long {s : State} (h : s.cfg.ibufBytes < s.inLen.toNat) :
    encodeStream s = .error .badLength s.inLen s := if_pos h

/-- ENCODE gets through the first symbols of the input, where they have codes and fit. -/
theorem State.PacksFirst.stream {s : State} {m k : Nat} (h : s.PacksFirst m) (hk : s.inLen.toNat = m + k)
    (hin : s.inLen.toNat ≤ s.cfg.ibufBytes) :
    ∃ p t, Packed s (s.codeBits (s.inputSyms.take m)) [] p t ∧
      encodeStream s = (packSymbols k m p t).andThen packFlush := by
  obtain ⟨p, t, hp, he⟩ := h.packed hk
  exact ⟨p, t, hp, by rw [encodeStream, if_neg hin.not_gt, he]⟩

/-- ENCODE gets through the whole input, where it has codes and fits, up to the final byte. -/
theorem State.PacksFirst.stream_all {s : State} (h : s.PacksFirst s.inLen.toNat)
    (hin : s.inLen.toNat ≤ s.cfg.ibufBytes) :
    ∃ p t, Packed s (s.codeBits s.inputSyms) [] p t ∧ encodeStream s = packFlush p t := by
  obtain ⟨p, t, hp, he⟩ := h.stream (k := 0) rfl hin
  rw [State.take_inputSyms_inLen] at hp
  exact ⟨p, t, hp, he⟩

/-- After the symbols before it, ENCODE stops at a symbol without a code (42_encode.md R205). -/
theorem State.PacksFirst.stream_unknown {s : State} {i : Nat} (h : s.PacksFirst i) (hi : i < s.inLen.toNat)
    (hin : s.inLen.toNat ≤ s.cfg.ibufBytes) (hnone : s.ctAt (s.bufByte .ibuf i) = none) :
    ∃ p t, Packed s (s.codeBits (s.inputSyms.take i)) [] p t ∧
      encodeStream s = .error .unknownSymbol (BitVec.ofNat 32 i) t := by
  obtain ⟨k, hk⟩ := Nat.exists_eq_add_of_lt hi
  obtain ⟨p, t, hp, he⟩ := h.stream (k := k + 1) hk hin
  rw [packSymbols_unknown ((hp.lookup i).trans hnone), CmdResult.error_andThen] at he
  exact ⟨p, t, hp, he⟩

/-- ENCODE found OBUF full, at symbol `i` or, where `i` is IN_LEN, at the final byte, and leaves `t` (42_encode.md
R206). -/
structure EncodeOverflowed (s : State) (i : Nat) (t : State) : Prop where
  stream : encodeStream s = .error .outputOverflow (BitVec.ofNat 32 i) t
  putOut : PutOut s (s.codeBits (s.inputSyms.take i)).length (s.codeBits s.inputSyms) t
  full : t.outLen.toNat = s.cfg.obufBytes

/-- A symbol whose code completes one byte too many. -/
theorem State.PacksFirst.code_overflow {s : State} {i : Nat} (h : s.PacksFirst i) (hi : i < s.inLen.toNat)
    (hin : s.inLen.toNat ≤ s.cfg.ibufBytes) (hcode : s.ctAt (s.bufByte .ibuf i) ≠ none)
    (hlong : 8 * (s.cfg.obufBytes + 1) ≤ (s.codeBits (s.inputSyms.take (i + 1))).length) :
    ∃ t, EncodeOverflowed s i t := by
  obtain ⟨k, hk⟩ := Nat.exists_eq_add_of_lt hi
  obtain ⟨p, t, hp, he⟩ := h.stream (k := k + 1) hk hin
  obtain ⟨c, hc⟩ := Option.ne_none_iff_exists'.1 hcode
  obtain ⟨p', t', -, h'⟩ | ⟨t', he', ⟨hemitted, hbitLen, hbits⟩, hfull, -⟩ := hp.packSymbol (k := k) hi hc
  · have hlt := h'.length_lt
    rw [List.length_nil] at hlt
    omega
  · rw [he', CmdResult.error_andThen] at he
    exact ⟨t', he, ⟨hemitted, hbitLen, hbits.trans (s.codeBits_take_prefix _)⟩, hfull⟩

/-- A final byte that is one too many. -/
theorem State.PacksFirst.padding_overflow {s : State} (h : s.PacksFirst s.inLen.toNat)
    (hin : s.inLen.toNat ≤ s.cfg.ibufBytes) (hlong : 8 * s.cfg.obufBytes < (s.codeBits s.inputSyms).length) :
    ∃ t, EncodeOverflowed s s.inLen.toNat t := by
  obtain ⟨p, t, hp, he⟩ := h.stream_all hin
  obtain ⟨hflush, hfull⟩ := hp.packFlush_overflow hlong
  refine ⟨t, ?_, ?_, hfull⟩
  · rw [he, hflush, BitVec.ofNat_toNat, BitVec.setWidth_eq]
  · rw [State.take_inputSyms_inLen]
    exact hp.putOut_whole

/-- Settles O43: ENCODE gets through the symbols before `i` and finds no code for `i`. -/
theorem encodeUnknownSymbolLeavesPrefix : Obligations.EncodeUnknownSymbolLeavesPrefix := by
  intro s i hin hi hcoded hnone hroom
  obtain ⟨p, t, hp, he⟩ := State.PacksFirst.stream_unknown ⟨hcoded, by omega⟩ hi hin hnone
  have hput := hp.putOut_whole
  exact ⟨t.fails 4 (BitVec.ofNat 32 i), congrArg complete he, hput.fails _ _, hput.bitLen, hp.outLen_eq,
    fun _ _ hk hj => hput.bit hk hj, hput.tail⟩

/-- Settles O44: the byte too many is completed by symbol `i` or is the padded one. -/
theorem encodeOverflowFillsBuffer : Obligations.EncodeOverflowFillsBuffer := by
  intro s i hin hi hcoded hfits hcase
  have hfirst : s.PacksFirst i := ⟨fun j hj => hcoded j (by omega) (by omega), hfits⟩
  obtain ⟨t, hstream, hput, hfull⟩ : ∃ t, EncodeOverflowed s i t := by
    obtain ⟨hlt, hlong⟩ | ⟨rfl, hlong⟩ := hcase
    · exact hfirst.code_overflow hlt hin (hcoded i (Nat.lt_succ_self i) hlt) hlong
    · exact hfirst.padding_overflow hin (s.take_inputSyms_inLen ▸ hlong)
  exact ⟨t.fails 15 (BitVec.ofNat 32 i), congrArg complete hstream, hput.fails _ _, hfull, hput.bitLen,
    fun _ _ hk hj => hput.bit (hfull ▸ hk) hj⟩

/-! ### When ENCODE succeeds -/

/-- What ENCODE needs to succeed (42_encode.md R203). -/
abbrev State.EncodeFits (s : State) : Prop :=
  s.inLen.toNat ≤ s.cfg.ibufBytes ∧ (∀ a ∈ s.inputSyms, s.ctAt a ≠ none) ∧
    (s.codeBits s.inputSyms).length ≤ 8 * s.cfg.obufBytes

theorem State.inputSyms_coded_iff {s : State} :
    (∀ a ∈ s.inputSyms, s.ctAt a ≠ none) ↔ ∀ j, j < s.inLen.toNat → s.ctAt (s.bufByte .ibuf j) ≠ none := by
  simp [State.inputSyms]

/-- Where the input has codes and fits, ENCODE puts out the padded bitstream (42_encode.md R203, R204). -/
theorem State.EncodeFits.stream {s : State} (h : s.EncodeFits) :
    ∃ t n, encodeStream s = .ok () t ∧
      PutOut s (s.codeBits s.inputSyms).length (s.codeBits s.inputSyms ++ List.replicate n false) t ∧
      t.outLen.toNat = ((s.codeBits s.inputSyms).length + 7) / 8 := by
  obtain ⟨hin, hcoded, hlen⟩ := h
  have hall : s.PacksFirst s.inLen.toNat := by
    refine ⟨State.inputSyms_coded_iff.1 hcoded, ?_⟩
    rw [State.take_inputSyms_inLen]
    omega
  obtain ⟨p, t, hp, he⟩ := hall.stream_all hin
  rw [he]
  exact hp.packFlush_ok hlen

/-- ENCODE gets through the first `m` symbols, or there is a first symbol it does not get through: it has no code, or
its code completes one byte too many. -/
theorem State.packsFirst_or_stops (s : State) (m : Nat) :
    s.PacksFirst m ∨ ∃ i, i < m ∧ s.PacksFirst i ∧ (s.ctAt (s.bufByte .ibuf i) = none ∨
      s.ctAt (s.bufByte .ibuf i) ≠ none ∧
        8 * (s.cfg.obufBytes + 1) ≤ (s.codeBits (s.inputSyms.take (i + 1))).length) := by
  induction m with
  | zero => exact .inl s.packsFirst_zero
  | succ m ih =>
    obtain h | ⟨i, hi, hstop⟩ := ih
    · by_cases hnone : s.ctAt (s.bufByte .ibuf m) = none
      · exact .inr ⟨m, Nat.lt_succ_self m, h, .inl hnone⟩
      · obtain hfits | hlong := lt_or_ge (s.codeBits (s.inputSyms.take (m + 1))).length (8 * (s.cfg.obufBytes + 1))
        · refine .inl ⟨fun j hj => ?_, hfits⟩
          obtain hj | rfl := Nat.lt_succ_iff_lt_or_eq.1 hj
          · exact h.coded j hj
          · exact hnone
        · exact .inr ⟨m, Nat.lt_succ_self m, h, .inr ⟨hnone, hlong⟩⟩
    · exact .inr ⟨i, Nat.lt_succ_of_lt hi, hstop⟩

/-- Where the input has no codes or does not fit, ENCODE raises one of its three errors (42_encode.md R201, R205,
R206). -/
theorem encodeStream_raises {s : State} (h : ¬ s.EncodeFits) :
    ∃ c info t, encodeStream s = .error c info t ∧ (c = .unknownSymbol ∨ c = .badLength ∨ c = .outputOverflow) := by
  obtain hlong | hin := lt_or_ge s.cfg.ibufBytes s.inLen.toNat
  · exact ⟨_, _, _, encodeStream_of_long hlong, .inr (.inl rfl)⟩
  · obtain hall | ⟨i, hi, hfirst, hnone | ⟨hcode, hlong⟩⟩ := s.packsFirst_or_stops s.inLen.toNat
    · obtain ⟨t, ht⟩ := hall.padding_overflow hin
        (not_le.1 fun hlen => h ⟨hin, State.inputSyms_coded_iff.2 hall.coded, hlen⟩)
      exact ⟨_, _, t, ht.stream, .inr (.inr rfl)⟩
    · obtain ⟨-, t, -, he⟩ := hfirst.stream_unknown hi hin hnone
      exact ⟨_, _, t, he, .inl rfl⟩
    · obtain ⟨t, ht⟩ := hfirst.code_overflow hi hin hcode hlong
      exact ⟨_, _, t, ht.stream, .inr (.inr rfl)⟩

/-- Zeros behind a list are what a read past its end gives. -/
theorem getD_append_zeros (bs : List Bool) (n k : Nat) :
    (bs ++ List.replicate n false).getD k false = bs.getD k false := by
  obtain h | h := lt_or_ge k bs.length
  · exact List.getD_append _ _ _ _ h
  · rw [List.getD_append_right _ _ _ _ h, List.getD_eq_default bs false h]
    obtain h' | h' := lt_or_ge (k - bs.length) n
    · exact List.getD_replicate false h'
    · exact List.getD_eq_default _ false (by simpa using h')

/-- Settles O42: the success by `State.EncodeFits.stream`, the errors by `encodeStream_raises`. -/
theorem encodePacksConcatenatedCodes : Obligations.EncodePacksConcatenatedCodes := by
  intro s
  by_cases h : s.EncodeFits
  · obtain ⟨t, n, he, hput, hlen⟩ := h.stream
    refine ⟨t.succeeds, congrArg complete he, ?_⟩
    rw [if_pos h]
    refine ⟨hput.succeeds, hput.bitLen, hlen, fun k j hk hj => ?_, fun a ha => hput.tail a (hlen.symm ▸ ha)⟩
    rw [← getD_append_zeros _ n]
    exact hput.bit (hlen.symm ▸ hk) hj
  · obtain ⟨c, info, t, he, hc⟩ := encodeStream_raises h
    refine ⟨t.fails (errNumber c) info, congrArg complete he, ?_⟩
    rw [if_neg h]
    exact ⟨rfl, hc.imp (congrArg errNumber) (.imp (congrArg errNumber) (congrArg errNumber))⟩

/-! ### The operand checks -/

theorem decodeStream_of_unsynced {s : State} (h : s.sync = false) : decodeStream s = .error .notReady 0 s := by
  simp [decodeStream, h]

theorem decodeStream_of_long {s : State} (hsync : s.sync = true) (hlong : s.cfg.ibufBytes < ceil8 s.bitLen.toNat) :
    decodeStream s = .error .badLength s.bitLen s := by
  simp [decodeStream, hsync, hlong]

/-- Settles O41: where an operand check fails, the command is that error alone. -/
theorem streamCommandsCheckOperands : Obligations.StreamCommandsCheckOperands := fun _ =>
  ⟨fun hlong => congrArg complete (encodeStream_of_long hlong),
    fun hsync => congrArg complete (decodeStream_of_unsynced hsync),
    fun hsync hlong => congrArg complete (decodeStream_of_long hsync hlong)⟩

end Sys2Proof.Machine

/-! PROOFS. The family 43_code_table.md: how far BUILD's trie has grown, and how the insertion of codes ends. -/

namespace Sys2Proof.Machine

/-! ### Canonical node words -/

/-- The canonical words of 30_encoding.md R114: a leaf's, and an internal slot's with no reserved bit set. -/
def CanonicalWord (w : Word) : Prop :=
  (∃ a, w = leafWord a) ∨ (usedNode w = true ∧ leafNode w = false ∧ w &&& nodeMask = w)

theorem canonicalWord_emptyInternal : CanonicalWord emptyInternal := .inr (by decide)

theorem CanonicalWord.used {w : Word} (h : CanonicalWord w) : usedNode w = true := by
  obtain ⟨a, rfl⟩ | ⟨hused, -⟩ := h
  · exact usedNode_leafWord a
  · exact hused

/-- A link in a canonical internal word leaves one. -/
theorem CanonicalWord.linkWord {w : Word} (h : CanonicalWord w) (hl : leafNode w = false) (b : Bool) (c : Slot) :
    CanonicalWord (linkWord w b c) := by
  obtain ⟨a, rfl⟩ | ⟨hused, -, hmask⟩ := h
  · simp at hl
  · exact .inr ⟨by rw [usedNode_linkWord, hused], by rw [leafNode_linkWord, hl], linkWord_masked b c hmask⟩

/-- A used internal word without reserved bits is USED, RIGHT and LEFT side by side (30_encoding.md R114). -/
theorem eq_fields_of_internal {w : Word} (hused : usedNode w = true) (hl : leafNode w = false)
    (hmask : w &&& nodeMask = w) :
    w = 0x80000000 ||| ((nodeRight w).setWidth 32 <<< 16) ||| (nodeLeft w).setWidth 32 := by
  have reserved := and_nodeMask_eq_self.1 hmask
  refine BitVec.eq_of_getLsbD_eq fun i hi => ?_
  have hres := reserved i hi
  simp only [usedNode, leafNode] at hused hl
  simp only [nodeRight, nodeLeft, BitVec.getLsbD_or, BitVec.getLsbD_shiftLeft, BitVec.getLsbD_setWidth,
    BitVec.getLsbD_extractLsb']
  interval_cases i <;> simp_all [nodeMask]

/-! ### A trie that fills the slots from 0 on -/

/-- The paths that lead to a slot. -/
def State.paths (s : State) : Set (List Bool) := {q | ∃ n, s.reach q = some n}

/-- BUILD's trie with `next` slots taken: it fills exactly the slots below `next` with canonical words under an internal
root, NODE_COUNT counts them, and every other slot holds 0 (43_code_table.md R225, R226). -/
structure State.DenseTrie (s : State) (next : Nat) : Prop where
  trie : s.Trie next
  rootInternal : leafNode (s.tmAt 0) = false
  count : s.nodeCount.toNat = next
  room : next ≤ 511
  filled : ∀ n : Slot, n.val < next → ∃ q, s.reach q = some n
  canonical : ∀ n : Slot, n.val < next → CanonicalWord (s.tmAt n)
  empty : ∀ n : Slot, next ≤ n.val → s.tmAt n = 0

theorem State.buildStart_dense (s : State) : s.buildStart.DenseTrie 1 where
  trie := s.buildStart_trie
  rootInternal := s.buildStart_trie.root_internal (s.not_leafAt_buildStart [])
  count := rfl
  room := by decide
  filled n hn := ⟨[], State.reach_buildStart.2 ⟨rfl, Fin.ext (Nat.lt_one_iff.1 hn)⟩⟩
  canonical n hn := by
    obtain rfl : n = 0 := Fin.ext (Nat.lt_one_iff.1 hn)
    have hw : s.buildStart.tmAt 0 = emptyInternal := State.tmAt_setTm_same _ 0 emptyInternal
    exact hw ▸ canonicalWord_emptyInternal
  empty n hn := by
    have hne : n ≠ 0 := by
      rintro rfl
      simp at hn
    exact (State.tmAt_setTm_other _ emptyInternal hne).trans ((s.setSync false).tmAt_clearTree n)

theorem State.paths_buildStart (s : State) : s.buildStart.paths = {[]} := by
  ext q
  simp [State.paths, State.reach_buildStart]

theorem State.mem_paths_of_prefix {s : State} {p q : List Bool} (hq : q ∈ s.paths) (h : p <+: q) : p ∈ s.paths := by
  obtain ⟨n, hn⟩ := hq
  obtain ⟨r, rfl⟩ := h
  obtain ⟨c, hc, -⟩ := State.reach_append.1 hn
  exact ⟨c, hc⟩

theorem State.FreeAt.not_mem_paths {s : State} {p : List Bool} {n : Slot} {b : Bool} (h : s.FreeAt p n b) :
    p ++ [b] ∉ s.paths := by
  rintro ⟨m, hm⟩
  obtain ⟨n', hn', -, hchild⟩ := State.reach_concat.1 hm
  obtain rfl := Option.some.inj (h.here.symm.trans hn')
  simp [h.free] at hchild

theorem ncard_slots_below {k : Nat} (h : k ≤ 511) : {n : Slot | n.val < k}.ncard = k := by
  have himage : Fin.val '' {n : Slot | n.val < k} = (Finset.range k : Set Nat) := by
    ext i
    simp only [Set.mem_image, Set.mem_ofPred_eq, Finset.coe_range, Set.mem_Iio]
    exact ⟨fun ⟨n, hn, hi⟩ => hi ▸ hn, fun hi => ⟨⟨i, by omega⟩, hi, rfl⟩⟩
  rw [← Set.ncard_image_of_injective _ Fin.val_injective, himage, Set.ncard_coe_finset, Finset.card_range]

namespace State.DenseTrie
variable {s : State} {next : Nat} (h : s.DenseTrie next)
include h

theorem lt_iff_reached (n : Slot) : n.val < next ↔ ∃ q, s.reach q = some n :=
  ⟨h.filled n, fun ⟨q, hq⟩ => h.trie.below q n hq⟩

/-- Each path leads to a slot of its own. -/
theorem ncard_paths : s.paths.ncard = next := by
  have hinj : Set.InjOn s.reach s.paths := fun p ⟨n, hn⟩ q _ hpq => h.trie.single p q n hn (hpq ▸ hn)
  have himage : s.reach '' s.paths = some '' {n : Slot | n.val < next} := by
    ext o
    constructor
    · rintro ⟨q, ⟨n, hn⟩, rfl⟩
      exact ⟨n, h.trie.below q n hn, hn.symm⟩
    · rintro ⟨n, hn, rfl⟩
      obtain ⟨q, hq⟩ := h.filled n hn
      exact ⟨q, ⟨n, hq⟩, hq⟩
  rw [← hinj.ncard_image, himage, Set.ncard_image_of_injective _ (Option.some_injective _),
    ncard_slots_below h.room]

theorem finite_paths : s.paths.Finite := by
  have hpos : 0 < next := h.trie.below [] 0 h.trie.reach_root
  exact Set.finite_of_ncard_pos (h.ncard_paths ▸ hpos)

variable {p : List Bool} {n c : Slot} {b : Bool} {w : Word} (hp : s.FreeAt p n b) (hc : c.val = next)
  (hchild : Childless w)
include hp hc hchild

theorem paths_graft : (s.graft n b w c).paths = insert (p ++ [b]) s.paths := by
  ext q
  simp only [State.paths, Set.mem_ofPred_eq, Set.mem_insert_iff, h.trie.reach_graft hp hc hchild]
  constructor
  · rintro ⟨m, hm | ⟨hq, -⟩⟩
    · exact .inr ⟨m, hm⟩
    · exact .inl hq
  · rintro (hq | ⟨m, hm⟩)
    · exact ⟨c, .inr ⟨hq, rfl⟩⟩
    · exact ⟨m, .inl hm⟩

/-- A new node takes the next slot (43_code_table.md R225). -/
theorem graft (hw : CanonicalWord w) : (s.graft n b w c).DenseTrie (next + 1) := by
  have hreach := fun {q m} => h.trie.reach_graft (q := q) (m := m) hp hc hchild
  have hne : c ≠ n := (h.trie.ne_next hc hp.here).symm
  have hn : n.val < next := h.trie.below p n hp.here
  have hlt := c.isLt
  refine ⟨h.trie.graft hp hc hchild hw.used, ?rootInternal, ?count, by omega, fun m hm => ?filled,
    fun m hm => ?canonical, fun m hm => ?empty⟩
  case rootInternal =>
    obtain ⟨-, hleaf, -⟩ := h.trie.graft_word (w := w) hp hc h.trie.reach_root
    exact hleaf.trans h.rootInternal
  case count =>
    change (BitVec.ofNat 10 (c.val + 1)).toNat = next + 1
    rw [BitVec.toNat_ofNat]
    omega
  case filled =>
    obtain hold | rfl := (by omega : m.val < next ∨ m.val = next)
    · obtain ⟨q, hq⟩ := h.filled m hold
      exact ⟨q, hreach.2 (.inl hq)⟩
    · exact ⟨p ++ [b], hreach.2 (.inr ⟨rfl, Fin.ext hc.symm⟩)⟩
  case canonical =>
    by_cases hmc : m = c
    · rwa [hmc, State.graft_tmAt_new b w hne]
    by_cases hmn : m = n
    · rw [hmn, State.graft_tmAt_parent b w hne]
      exact (h.canonical n hn).linkWord hp.internal b c
    · rw [State.graft_tmAt_other b w hmn hmc]
      have hmc' := Fin.val_ne_of_ne hmc
      exact h.canonical m (by omega)
  case empty =>
    rw [State.graft_tmAt_other b w (Fin.ne_of_val_ne (by omega)) (Fin.ne_of_val_ne (by omega))]
    exact h.empty m (by omega)

end State.DenseTrie

/-! ### How the insertion of one code ends -/

/-- The code clashes with those in the trie: a leaf stands on a beginning of it, or a path that is the whole code is
there already (43_code_table.md R227). -/
def State.Clashes (s : State) (code : List Bool) : Prop := (∃ q a, q <+: code ∧ s.LeafAt q a) ∨ code ∈ s.paths

/-- What the insertion of a code of `sym` into the trie of `s` can end in: the code's beginnings are paths too; a clash;
or every slot taken before they all are (43_code_table.md R225, R227, R228). -/
def CodeEnds (s : State) (sym : Byte) (code : List Bool) : CmdResult Nat → Prop
  | .ok next t => t.DenseTrie next ∧ t.paths = s.paths ∪ {q | q <+: code}
  | .error c info t => info = sym.setWidth 32 ∧
      ((c = .prefixConflict ∧ s.Clashes code) ∨
        (c = .treeOverflow ∧ t.DenseTrie 511 ∧ t.paths ⊂ s.paths ∪ {q | q <+: code}))
  | .stop _ => False

section
variable {s : State} {next : Nat} {sym : Byte} {p code : List Bool} {n : Slot} {b : Bool}
variable (ht : s.DenseTrie next) (hp : s.FreeAt p n b) (hcode : p ++ [b] <+: code)
include ht hp hcode

/-- With no slot left for a beginning of the code, the insertion ends in TREE_OVERFLOW (43_code_table.md R228). -/
theorem codeEnds_overflow (hfull : 511 ≤ next) :
    CodeEnds s sym code (.error .treeOverflow (sym.setWidth 32) s) := by
  obtain rfl : next = 511 := le_antisymm ht.room hfull
  refine ⟨rfl, .inr ⟨rfl, ht, Set.ssubset_iff_subset_ne.2 ⟨Set.subset_union_left, fun heq => ?_⟩⟩⟩
  exact hp.not_mem_paths (heq ▸ .inr hcode)

/-- After a new internal node on a beginning of the code the insertion ends as it would have from the trie before. -/
theorem CodeEnds.of_graft {c : Slot} {r : CmdResult Nat} (hc : c.val = next) (hne : p ++ [b] ≠ code)
    (h : CodeEnds (s.graft n b emptyInternal c) sym code r) : CodeEnds s sym code r := by
  have hpaths := ht.paths_graft hp hc childless_emptyInternal
  have hunion : (s.graft n b emptyInternal c).paths ∪ {q | q <+: code} = s.paths ∪ {q | q <+: code} := by
    rw [hpaths, Set.insert_union, Set.insert_eq_of_mem (.inr hcode)]
  have hleaf := fun {q a} => ht.trie.leafAt_graft (q := q) (a := a) hp hc childless_emptyInternal
  cases r with
  | ok next' t =>
    obtain ⟨ht', hpaths'⟩ := h
    exact ⟨ht', hpaths'.trans hunion⟩
  | stop f => exact h
  | error e info t =>
    obtain ⟨hinfo, ⟨rfl, hclash⟩ | ⟨rfl, hfull⟩⟩ := h
    · refine ⟨hinfo, .inl ⟨rfl, ?_⟩⟩
      obtain ⟨q, a, hq, ha⟩ | hmem := hclash
      · exact .inl ⟨q, a, hq, by simpa [hleaf] using ha⟩
      · rw [hpaths] at hmem
        exact .inr (hmem.resolve_left hne.symm)
    · exact ⟨hinfo, .inr ⟨rfl, hunion ▸ hfull⟩⟩

end

/-- A new node gets the next slot, or none is left. -/
theorem allocNode_graft (sym : Byte) (n : Slot) (b : Bool) (w : Word) (next : Nat) (s : State) :
    (∃ c : Slot, c.val = next ∧ allocNode sym n b w next s = .ok c (s.graft n b w c)) ∨
      (511 ≤ next ∧ allocNode sym n b w next s = .error .treeOverflow (sym.setWidth 32) s) :=
  (allocNode_cases sym n b w next s).imp_left fun ⟨hn, e⟩ => ⟨⟨next, hn⟩, rfl, e⟩

/-- The rest `bs` of a code inserted below the internal slot that its beginning `p` leads to. -/
theorem buildCode_ends {sym : Byte} {bs p : List Bool} {n : Slot} {next : Nat} {s : State} (ht : s.DenseTrie next)
    (hp : s.reach p = some n) (hl : leafNode (s.tmAt n) = false) :
    CodeEnds s sym (p ++ bs) (buildCode sym bs n next s) := by
  induction bs generalizing p n next s with
  | nil =>
    refine ⟨ht, (Set.union_eq_self_of_subset_right fun q hq => ?_).symm⟩
    rw [List.append_nil] at hq
    exact State.mem_paths_of_prefix ⟨n, hp⟩ hq
  | cons b bs ih =>
    have hcode : p ++ [b] <+: p ++ b :: bs := ⟨bs, by simp⟩
    cases bs with
    | nil =>
      simp only [buildCode]
      split
      next c hchild => exact ⟨rfl, .inl ⟨rfl, .inr ⟨c, State.reach_concat.2 ⟨n, hp, hl, hchild⟩⟩⟩⟩
      next hfree =>
        have hp' : s.FreeAt p n b := ⟨hp, hl, hfree⟩
        have hw := childless_leafWord sym
        obtain ⟨c, hc, e⟩ | ⟨hfull, e⟩ := allocNode_graft sym n b (leafWord sym) next s <;> rw [e]
        · refine ⟨ht.graft hp' hc hw (.inl ⟨sym, rfl⟩), ?_⟩
          ext q
          rw [ht.paths_graft hp' hc hw, Set.mem_insert_iff, Set.mem_union, Set.mem_ofPred_eq, List.prefix_concat_iff,
            or_comm]
          refine ⟨Or.imp_right .inl, fun hq => ?_⟩
          obtain hq | hq | hq := hq
          · exact .inl hq
          · exact .inr hq
          · exact .inl (State.mem_paths_of_prefix ⟨n, hp⟩ hq)
        · exact codeEnds_overflow ht hp' hcode hfull
    | cons b' bs =>
      have happend : p ++ [b] ++ b' :: bs = p ++ b :: b' :: bs := by simp
      simp only [buildCode]
      split
      next c hchild =>
        have hreach : s.reach (p ++ [b]) = some c := State.reach_concat.2 ⟨n, hp, hl, hchild⟩
        split
        next hleaf => exact ⟨rfl, .inl ⟨rfl, .inl ⟨p ++ [b], _, hcode, c, hreach, hleaf, rfl⟩⟩⟩
        next hleaf => exact happend ▸ ih ht hreach (by simpa using hleaf)
      next hfree =>
        have hp' : s.FreeAt p n b := ⟨hp, hl, hfree⟩
        have hw := childless_emptyInternal
        obtain ⟨c, hc, e⟩ | ⟨hfull, e⟩ := allocNode_graft sym n b emptyInternal next s <;> rw [e]
        · have hleaf : leafNode ((s.graft n b emptyInternal c).tmAt c) = false := by
            rw [State.graft_tmAt_new b _ (ht.trie.ne_next hc hp).symm, leafNode_emptyInternal]
          refine CodeEnds.of_graft ht hp' hcode hc (by simp) ?_
          exact happend ▸ ih (ht.graft hp' hc hw canonicalWord_emptyInternal)
            ((ht.trie.reach_graft hp' hc hw).2 (.inr ⟨rfl, rfl⟩)) hleaf
        · exact codeEnds_overflow ht hp' hcode hfull

/-- A code inserted from the root. -/
theorem State.DenseTrie.buildCode_ends {s : State} {next : Nat} (h : s.DenseTrie next) (sym : Byte)
    (code : List Bool) : CodeEnds s sym code (buildCode sym code 0 next s) :=
  Machine.buildCode_ends (p := []) h h.trie.reach_root h.rootInternal

/-! ### How the insertion of a list of codes ends -/

/-- The beginnings of the codes of a list of entries. -/
def beginnings (es : List (Byte × Code)) : Set (List Bool) := {q | ∃ e ∈ es, q <+: e.2.bits}

theorem beginnings_cons (e : Byte × Code) (es : List (Byte × Code)) :
    beginnings (e :: es) = {q | q <+: e.2.bits} ∪ beginnings es := by
  ext q
  simp [beginnings]

theorem beginnings_mono {es es' : List (Byte × Code)} (h : es ⊆ es') : beginnings es ⊆ beginnings es' :=
  fun _ ⟨e, he, hq⟩ => ⟨e, h he, hq⟩

theorem finite_beginnings (es : List (Byte × Code)) : (beginnings es).Finite := by
  refine (es.flatMap fun e => e.2.bits.inits).toFinset.finite_toSet.subset fun q ⟨e, he, hq⟩ => ?_
  simpa using ⟨e.1, e.2, he, hq⟩

/-- Codes that all find room make their beginnings paths (43_code_table.md R226). -/
theorem buildEntries_ok_dense {es : List (Byte × Code)} {next next' : Nat} {s t : State} (ht : s.DenseTrie next)
    (h : buildEntries es next s = .ok next' t) : t.DenseTrie next' ∧ t.paths = s.paths ∪ beginnings es := by
  induction es generalizing next s with
  | nil =>
    cases h
    exact ⟨ht, by simp [beginnings]⟩
  | cons e es ih =>
    obtain ⟨mid, u, hcode, h⟩ := CmdResult.andThen_eq_ok.1 h
    have hends := ht.buildCode_ends e.1 e.2.bits
    rw [hcode] at hends
    obtain ⟨hu, hpaths⟩ := hends
    obtain ⟨ht', hpaths'⟩ := ih hu h
    exact ⟨ht', by rw [hpaths', hpaths, beginnings_cons, Set.union_assoc]⟩

/-- An error is raised by one entry's code, with the entries before it inserted. -/
theorem buildEntries_error {es : List (Byte × Code)} {next : Nat} {s t : State} {c : ErrCode} {info : Word}
    (h : buildEntries es next s = .error c info t) : ∃ before e after mid u, es = before ++ e :: after ∧
      buildEntries before next s = .ok mid u ∧ buildCode e.1 e.2.bits 0 mid u = .error c info t := by
  induction es generalizing next s with
  | nil => cases h
  | cons e es ih =>
    obtain hcode | ⟨mid, u, hcode, h⟩ := CmdResult.andThen_eq_error.1 h
    · exact ⟨[], e, es, next, s, rfl, rfl, hcode⟩
    · obtain ⟨before, e', after, mid', u', rfl, hbefore, herror⟩ := ih h
      exact ⟨e :: before, e', after, mid', u', rfl, CmdResult.andThen_eq_ok.2 ⟨mid, u, hcode, hbefore⟩, herror⟩

end Sys2Proof.Machine

/-! PROOFS. The family 43_code_table.md: BUILD. -/

namespace Sys2Proof.Machine

/-! ### How BUILD ends -/

theorem exec_build_of_unlocked {s : State} (hl : s.lock = false) : exec .build s = complete (buildTree s) :=
  congrArg complete (ifUnlocked_of_unlocked _ hl)

theorem buildTree_of_empty {s : State} (h : s.symCount = 0) :
    buildTree s = .error .invalidInput 0 (((s.setSync false).clearTree).setRoot 0) :=
  if_pos h

theorem buildTree_of_nonempty {s : State} (h : s.symCount ≠ 0) : buildTree s =
    (buildEntries s.validEntries 1 s.buildStart).andThen fun _ t => .ok () (t.setSync true) :=
  if_neg h

/-- BUILD leaves ROOT 0 (43_code_table.md R225). -/
theorem buildTree_root (s : State) : (buildTree s).All fun u => u.root = 0 := by
  by_cases h : s.symCount = 0
  · rw [buildTree_of_empty h]
    rfl
  · rw [buildTree_of_nonempty h]
    exact (buildEntries_all (P := fun u => u.root = 0) (fun _ _ _ _ _ _ hu => hu) rfl).andThen (fun _ hu => hu)
      fun _ _ hu => hu

/-- BUILD comes to the code of entry `e` in state `u`, with the codes of the entries before it inserted. -/
def State.BuildComesTo (s : State) (before : List (Byte × Code)) (e : Byte × Code) (u : State) : Prop :=
  (∃ after, s.validEntries = before ++ e :: after) ∧ ∃ mid, buildEntries before 1 s.buildStart = .ok mid u

theorem State.BuildComesTo.mem {s u : State} {before : List (Byte × Code)} {e : Byte × Code}
    (h : s.BuildComesTo before e u) : e ∈ s.validEntries := by
  obtain ⟨⟨after, hsplit⟩, -⟩ := h
  exact hsplit ▸ List.mem_append_right _ List.mem_cons_self

/-- Everything BUILD can end in on a table that is not empty: the trie of all codes, or the error of one entry's
insertion (43_code_table.md R225). -/
theorem buildTree_cases {s : State} (h : s.symCount ≠ 0) :
    (∃ u : State, buildTree s = .ok () (u.setSync true)) ∨
    ∃ before e u c t, buildTree s = .error c (e.1.setWidth 32) t ∧ s.BuildComesTo before e u ∧
      CodeEnds u e.1 e.2.bits (.error c (e.1.setWidth 32) t) := by
  rw [buildTree_of_nonempty h]
  cases hbuild : buildEntries s.validEntries 1 s.buildStart with
  | ok next u => exact .inl ⟨u, rfl⟩
  | error c info t =>
    obtain ⟨before, e, after, mid, u, hsplit, hbefore, herror⟩ := buildEntries_error hbuild
    obtain ⟨hu, -⟩ := buildEntries_ok_dense s.buildStart_dense hbefore
    have hends := hu.buildCode_ends e.1 e.2.bits
    rw [herror] at hends
    obtain ⟨rfl, -⟩ := id hends
    exact .inr ⟨before, e, u, c, t, rfl, ⟨⟨after, hsplit⟩, mid, hbefore⟩, hends⟩
  | stop f => exact absurd hbuild (buildEntries_runs _ _ _ f)

/-- Settles O36: the frame by O51, the outcomes by `buildTree_cases`. -/
theorem buildCompletes : Obligations.BuildCompletes := by
  intro s hl
  obtain ⟨t, h⟩ := exec_next .build (by decide) s
  have hframe := commandsWriteOnlyTheirRegisters .build s t h
  rw [exec_build_of_unlocked hl] at h
  have hroot : t.root = 0 := by
    obtain ⟨u, _, _, _, hu, rfl⟩ := (buildTree_root s).completion h
    exact hu
  rw [hroot] at hframe
  refine ⟨t, (exec_build_of_unlocked hl).trans h, hframe, ?_⟩
  by_cases hcount : s.symCount = 0
  · rw [buildTree_of_empty hcount] at h
    cases h
    exact .inr ⟨rfl, rfl, .inl ⟨hcount, rfl, rfl⟩⟩
  obtain ⟨u, e⟩ | ⟨before, x, u, c, v, e, hcomes, -, hc⟩ := buildTree_cases hcount
  · rw [e] at h
    cases h
    have htree := (buildTree_treeOnly s).of_ok e
    exact .inl ⟨rfl, by rw [htree]; rfl, by rw [htree]; rfl, by rw [htree]; rfl⟩
  · rw [e] at h
    cases h
    have hsync := buildTree_error_sync e
    refine .inr ⟨hsync, rfl, .inr ⟨hcount, ?_, x.1, x.2, rfl, (s.mem_validEntries _ _).1 hcomes.mem⟩⟩
    obtain ⟨rfl, -⟩ | ⟨rfl, hfull, -⟩ := hc
    · exact .inl rfl
    · exact .inr ⟨rfl, BitVec.eq_of_toNat_eq hfull.count⟩

/-! ### BUILD on a table of legal codes -/

theorem State.TableLegal.entry_bits_ne_nil {s : State} (h : s.TableLegal) {e : Byte × Code} (he : e ∈ s.validEntries) :
    e.2.bits ≠ [] :=
  (h e.1 e.2 ((s.mem_validEntries _ _).1 he)).bits_ne_nil

theorem State.beginnings_validEntries (s : State) :
    beginnings s.validEntries = {p | ∃ a c, s.ctAt a = some c ∧ p <+: c.bits} := by
  ext p
  simp [beginnings, State.mem_validEntries]

/-- A counted table that is not empty has a code, which the empty path begins. -/
theorem State.CountsTable.nil_mem_beginnings {s : State} (h : s.CountsTable) (hcount : s.symCount ≠ 0) :
    [] ∈ beginnings s.validEntries := by
  have hne : s.validEntries ≠ [] := by
    intro hnil
    rw [State.CountsTable, hnil] at h
    exact hcount (BitVec.eq_of_toNat_eq h)
  obtain ⟨e, he⟩ := List.exists_mem_of_ne_nil _ hne
  exact ⟨e, he, List.nil_prefix⟩

/-- The valid entries stand in ascending symbol order (43_code_table.md R225). -/
theorem State.pairwise_validEntries (s : State) : s.validEntries.Pairwise fun x y => x.1.toNat < y.1.toNat := by
  have hsymbols : allSymbols.Pairwise fun a b => a.toNat < b.toNat := by
    refine List.pairwise_map.2 (List.pairwise_lt_range.imp_of_mem fun {i j} hi hj hlt => ?_)
    have hi := List.mem_range.1 hi
    have hj := List.mem_range.1 hj
    rwa [BitVec.toNat_ofNat, BitVec.toNat_ofNat, Nat.mod_eq_of_lt hi, Nat.mod_eq_of_lt hj]
  refine List.Pairwise.filterMap _ (fun a b hab x hx y hy => ?_) hsymbols
  obtain ⟨_, -, rfl⟩ := Option.map_eq_some_iff.1 hx
  obtain ⟨_, -, rfl⟩ := Option.map_eq_some_iff.1 hy
  exact hab

/-- A code that clashes with the trie of earlier entries begins, or is begun by, the code of one of them
(43_code_table.md R227). -/
theorem State.BuildComesTo.conflict {s u : State} {before : List (Byte × Code)} {e : Byte × Code}
    (h : s.BuildComesTo before e u) (hlegal : s.TableLegal) (hclash : u.Clashes e.2.bits) :
    ∃ d ∈ s.validEntries, d.1.toNat < e.1.toNat ∧ (d.2.bits <+: e.2.bits ∨ e.2.bits <+: d.2.bits) := by
  have hne : e.2.bits ≠ [] := hlegal.entry_bits_ne_nil h.mem
  obtain ⟨⟨after, hsplit⟩, mid, hbefore⟩ := h
  have hmem : ∀ d ∈ before, d ∈ s.validEntries := fun d hd => hsplit ▸ List.mem_append_left _ hd
  obtain ⟨-, -, horder⟩ := List.pairwise_append.1 (hsplit ▸ s.pairwise_validEntries)
  suffices hfound : ∃ d ∈ before, d.2.bits <+: e.2.bits ∨ e.2.bits <+: d.2.bits by
    obtain ⟨d, hd, hbits⟩ := hfound
    exact ⟨d, hmem d hd, horder d hd e List.mem_cons_self, hbits⟩
  obtain ⟨-, hleaf⟩ := buildEntries_ok s.buildStart_trie (s.not_leafAt_buildStart [])
    (fun d hd => hlegal.entry_bits_ne_nil (hmem d hd)) hbefore
  obtain ⟨-, hpaths⟩ := buildEntries_ok_dense s.buildStart_dense hbefore
  obtain ⟨q, a, hq, ha⟩ | hpath := hclash
  · obtain ⟨c, hc, rfl⟩ := ((hleaf q a).1 ha).resolve_left (s.not_leafAt_buildStart q a)
    exact ⟨(a, c), hc, .inl hq⟩
  · rw [hpaths, s.paths_buildStart] at hpath
    obtain ⟨d, hd, hbits⟩ := hpath.resolve_left hne
    exact ⟨d, hd, .inr hbits⟩

/-- With the code of `e` inserted, the paths are still beginnings of codes of the table. -/
theorem State.BuildComesTo.paths_subset {s u : State} {before : List (Byte × Code)} {e : Byte × Code}
    (h : s.BuildComesTo before e u) (hcounts : s.CountsTable) (hcount : s.symCount ≠ 0) :
    u.paths ∪ {q | q <+: e.2.bits} ⊆ beginnings s.validEntries := by
  refine Set.union_subset ?_ fun q hq => ⟨e, h.mem, hq⟩
  obtain ⟨⟨after, hsplit⟩, mid, hbefore⟩ := h
  obtain ⟨-, hpaths⟩ := buildEntries_ok_dense s.buildStart_dense hbefore
  rw [hpaths, s.paths_buildStart, Set.union_subset_iff, Set.singleton_subset_iff]
  exact ⟨hcounts.nil_mem_beginnings hcount, beginnings_mono (hsplit ▸ List.subset_append_left before (e :: after))⟩

/-- Where no code begins another, no code clashes with earlier ones (43_code_table.md R227). -/
theorem State.PrefixFree.not_clashes {s u : State} (hfree : s.PrefixFree) {before : List (Byte × Code)}
    {e : Byte × Code} (h : s.BuildComesTo before e u) (hlegal : s.TableLegal) : ¬ u.Clashes e.2.bits := by
  intro hclash
  obtain ⟨d, hd, hlt, hbits⟩ := h.conflict hlegal hclash
  have hd := (s.mem_validEntries _ _).1 hd
  have he := (s.mem_validEntries _ _).1 h.mem
  have hne : d.1 ≠ e.1 := fun heq => by simp [heq] at hlt
  obtain hbits | hbits := hbits
  · exact hfree _ _ _ _ hne hd he hbits
  · exact hfree _ _ _ _ hne.symm he hd hbits

/-- What a successful BUILD on a counted table of legal codes leaves: the trie whose paths are the beginnings of the
codes and whose leaves stand at the codes (43_code_table.md R226). -/
structure State.Built (s t : State) : Prop where
  dense : t.DenseTrie t.nodeCount.toNat
  paths : t.paths = beginnings s.validEntries
  leaves : ∀ q a, t.LeafAt q a ↔ ∃ c, s.ctAt a = some c ∧ c.bits = q

theorem buildTree_ok_built {s t : State} (hlegal : s.TableLegal) (hcounts : s.CountsTable)
    (h : buildTree s = .ok () t) : s.Built t.succeeds := by
  obtain ⟨hcount, next, u, hbuild, rfl⟩ := buildTree_ok h
  obtain ⟨hdense, hpaths⟩ := buildEntries_ok_dense s.buildStart_dense hbuild
  obtain ⟨-, hleaf⟩ := buildEntries_ok s.buildStart_trie (s.not_leafAt_buildStart [])
    (fun _ => hlegal.entry_bits_ne_nil) hbuild
  have hnext : (u.setSync true).succeeds.nodeCount.toNat = next := hdense.count
  refine ⟨hnext ▸ { hdense with trie := { hdense.trie with } }, ?_, fun q a => ?_⟩
  · rw [s.paths_buildStart, Set.singleton_union, Set.insert_eq_of_mem (hcounts.nil_mem_beginnings hcount)] at hpaths
    exact hpaths
  · refine (hleaf q a).trans ?_
    simp [s.not_leafAt_buildStart, s.mem_validEntries]

/-- No leaf of the trie stands on a beginning of another's path, so no code begins another (43_code_table.md R227). -/
theorem State.Built.prefixFree {s t : State} (h : s.Built t) : s.PrefixFree := fun a b ca cb hne ha hb hprefix =>
  hne (State.LeafAt.eq_of_prefix ((h.leaves _ a).2 ⟨ca, ha, rfl⟩) ((h.leaves _ b).2 ⟨cb, hb, rfl⟩) hprefix)

theorem exec_build_sync {s t : State} (hl : s.lock = false) (hlegal : s.TableLegal) (hcounts : s.CountsTable)
    (h : exec .build s = .next t) (hs : t.sync = true) : s.symCount ≠ 0 ∧ s.Built t ∧ TreeOnly s.succeeds t := by
  rw [exec_build_of_unlocked hl] at h
  obtain ⟨u, e, rfl⟩ | ⟨c, info, u, e, rfl⟩ := complete_eq_next.1 h
  · have htree := congrArg State.succeeds ((buildTree_treeOnly s).of_ok e)
    obtain ⟨hcount, -⟩ := buildTree_ok e
    exact ⟨hcount, buildTree_ok_built hlegal hcounts e, htree⟩
  · cases (buildTree_error_sync e).symm.trans hs

/-- Settles O37: the facts of a dense trie, with the canonical words written out. -/
theorem buildLeavesTrie : Obligations.BuildLeavesTrie := by
  intro s t hl hlegal hcounts h hs
  obtain ⟨-, ⟨hdense, hpaths, hleaves⟩, htree⟩ := exec_build_sync hl hlegal hcounts h hs
  refine ⟨hdense.trie.root, by rw [htree]; rfl, by rw [htree]; rfl, ?nodeCount,
    hdense.lt_iff_reached, fun n hn => ?word, hdense.empty, hleaves⟩
  case nodeCount => rw [← s.beginnings_validEntries, ← hpaths, hdense.ncard_paths]
  case word =>
    obtain ⟨a, ha⟩ | ⟨hused, hinternal, hmask⟩ := hdense.canonical n hn
    · exact .inl ⟨a, ha⟩
    · exact .inr ⟨_, _, eq_fields_of_internal hused hinternal hmask⟩

/-- Settles O38: in a trie no code begins another, and a clash with the trie is one with an earlier code. -/
theorem buildChecksPrefixFreeness : Obligations.BuildChecksPrefixFreeness := by
  intro s t hl hlegal hcounts h
  refine ⟨fun hs => ?succeeded, fun hs hcode => ?conflict⟩
  case succeeded =>
    obtain ⟨-, hbuilt, -⟩ := exec_build_sync hl hlegal hcounts h hs
    exact hbuilt.prefixFree
  rw [exec_build_of_unlocked hl] at h
  by_cases hcount : s.symCount = 0
  · rw [buildTree_of_empty hcount] at h
    cases h
    exact absurd (show (3 : Byte) = 9 from hcode) (by decide)
  obtain ⟨u, e⟩ | ⟨before, x, u, c, v, e, hcomes, -, ⟨rfl, hclash⟩ | ⟨rfl, -⟩⟩ := buildTree_cases hcount <;>
    rw [e] at h <;> cases h
  · cases hs
  · obtain ⟨d, hd, hlt, hbits⟩ := hcomes.conflict hlegal hclash
    exact ⟨fun hfree => hfree.not_clashes hcomes hlegal hclash, x.1, d.1, x.2, d.2, rfl, hlt,
      (s.mem_validEntries _ _).1 hcomes.mem, (s.mem_validEntries _ _).1 hd, hbits⟩
  · exact absurd (show (10 : Byte) = 9 from hcode) (by decide)

/-- Settles O39: without a clash BUILD fails only for want of slots, and the trie takes one for each beginning. -/
theorem buildSucceedsUpTo511Nodes : Obligations.BuildSucceedsUpTo511Nodes := by
  intro s hl hlegal hcounts hcount hfree
  rw [← s.beginnings_validEntries]
  have hrun := exec_build_of_unlocked hl
  obtain ⟨u, e⟩ | ⟨before, x, u, c, t, e, hcomes, -, ⟨-, hclash⟩ | ⟨rfl, hfull, hless⟩⟩ :=
    buildTree_cases hcount
  · obtain ⟨hdense, hpaths, -⟩ := buildTree_ok_built hlegal hcounts e
    have hcard := hdense.ncard_paths
    rw [hpaths] at hcard
    have htree : TreeOnly s.succeeds (u.setSync true).succeeds :=
      congrArg State.succeeds ((buildTree_treeOnly s).of_ok e)
    rw [TreeOnly, hdense.trie.root] at htree
    refine ⟨_, hrun.trans (congrArg complete e), ?_⟩
    rw [if_pos (hcard ▸ hdense.room)]
    exact ⟨htree, hcard.symm⟩
  · exact absurd hclash (hfree.not_clashes hcomes hlegal)
  · have hfinite := finite_beginnings s.validEntries
    have hmore := Set.ncard_lt_ncard (hless.trans_subset (hcomes.paths_subset hcounts hcount)) hfinite
    have hsync := buildTree_error_sync e
    rw [hfull.ncard_paths] at hmore
    refine ⟨_, hrun.trans (congrArg complete e), ?_⟩
    rw [if_neg (by omega)]
    exact ⟨hsync, rfl, rfl, BitVec.eq_of_toNat_eq hfull.count⟩

/-! ### ASSIGN after BUILD -/

/-- ASSIGN leaves SYM_COUNT the number of valid entries (10_state.md R51). -/
theorem assignCodes_countsTable (s : State) : (assignCodes s).All State.CountsTable := by
  have walk : (assignWalk 511 [] (pushChild (slotOf s.root) 0 0 []) s.assignStart).All State.CountsTable :=
    assignWalk_all (P := fun _ _ u => u.CountsTable) (fun _ _ _ h => h) (fun _ _ _ _ h => h)
      (fun _ v _ _ _ hnone h => h.newEntry hnone (leafCode v)) (fun _ _ _ _ h => h)
      (State.countsTable_of_empty s.ctAt_assignStart rfl)
  refine walk.andThen (fun _ h => h) fun _ t h => ?_
  split <;> exact h

theorem State.ct_ext {s t : State} (h : ∀ a, t.ctAt a = s.ctAt a) : t.ct = s.ct := by
  refine Vector.ext fun i hi => ?_
  have hi' : (BitVec.ofNat 8 i).toNat = i := by
    rw [BitVec.toNat_ofNat]
    omega
  simpa [State.ctAt, hi'] using h (BitVec.ofNat 8 i)

/-- The trie BUILD leaves is a tree on which ASSIGN succeeds (41_tree_assign.md R180). -/
theorem State.Built.assign_succeeds {s t : State} (h : s.Built t) (hcounts : s.CountsTable) (hcount : s.symCount ≠ 0)
    (hl : t.lock = false) : ∃ u, exec .assign t = .next u ∧ u.sync = true := by
  obtain ⟨u, hrun, hsync⟩ := assignSucceedsExactlyOnGoodTrees t hl
  refine ⟨u, hrun, hsync.2 ⟨fun q n hq => ⟨h.dense.trie.used q n hq, ?depth⟩, h.dense.trie.single, ?symbols, ?leaf⟩⟩
  case depth =>
    obtain ⟨e, -, hprefix⟩ : q ∈ beginnings s.validEntries := h.paths ▸ ⟨n, hq⟩
    have hle := hprefix.length_le
    have hlt := e.2.len.isLt
    rw [Code.length_bits] at hle
    omega
  case symbols =>
    intro p q a hp hq
    obtain ⟨c, hc, rfl⟩ := (h.leaves p a).1 hp
    obtain ⟨d, hd, rfl⟩ := (h.leaves q a).1 hq
    rw [Option.some.inj (hc.symm.trans hd)]
  case leaf =>
    obtain ⟨e, he, -⟩ := hcounts.nil_mem_beginnings hcount
    exact ⟨e.2.bits, e.1, (h.leaves _ _).2 ⟨e.2, (s.mem_validEntries _ _).1 he, rfl⟩⟩

theorem Code.Legal.leafBits_bits {c : Code} (h : c.Legal) : leafBits c.bits = c.bits := if_neg h.bits_ne_nil

/-- A table of legal codes that are the paths to the leaves of BUILD's trie is the table it was built from. -/
theorem State.Built.assign_codes {s t u : State} (h : s.Built t) (hlegal : s.TableLegal)
    (hcodes : ∀ a c, u.ctAt a = some c ↔ c.Legal ∧ ∃ q, t.LeafAt q a ∧ c.bits = leafBits q) : u.ct = s.ct := by
  refine State.ct_ext fun a => Option.ext fun c => (hcodes a c).trans ⟨?_, fun hc => ?_⟩
  · rintro ⟨hclegal, q, hq, hbits⟩
    obtain ⟨d, hd, rfl⟩ := (h.leaves q a).1 hq
    have hdlegal := hlegal a d hd
    rw [hclegal.eq_of_bits_eq hdlegal (hbits.trans hdlegal.leafBits_bits), hd]
  · have hclegal := hlegal a c hc
    exact ⟨hclegal, c.bits, (h.leaves _ a).2 ⟨c, hc, rfl⟩, hclegal.leafBits_bits.symm⟩

/-- Settles O40: ASSIGN succeeds on BUILD's trie, and its paths to leaves are the codes again. -/
theorem buildThenAssignGivesTableBack : Obligations.BuildThenAssignGivesTableBack := by
  intro s t hl hlegal hcounts h hs
  obtain ⟨hcount, hbuilt, htree⟩ := exec_build_sync hl hlegal hcounts h hs
  have hlock : t.lock = false := by rw [htree, ← hl]; rfl
  obtain ⟨u, hrun, hsync⟩ := hbuilt.assign_succeeds hcounts hcount hlock
  obtain ⟨hcodes, -, -, hnodes, htm, -⟩ := assignGivesPathCodes t u hlock hrun hsync
  have hct := hbuilt.assign_codes hlegal hcodes
  refine ⟨u, hrun, hct, BitVec.eq_of_toNat_eq ?symCount, BitVec.eq_of_toNat_eq ?nodeCount, hsync, htm⟩
  case symCount =>
    rw [exec_assign_of_unlocked hlock] at hrun
    obtain ⟨v, _, _, _, hv, rfl⟩ := (assignCodes_countsTable t).completion hrun
    rw [hcounts, ← State.validEntries_congr hct]
    exact hv
  case nodeCount =>
    have hslots : {n : Slot | ∃ q, t.reach q = some n} = {n | n.val < t.nodeCount.toNat} :=
      Set.ext fun n => (hbuilt.dense.lt_iff_reached n).symm
    rw [hnodes, hslots, ncard_slots_below hbuilt.dense.room]

end Sys2Proof.Machine

/-! PROOFS. The family 43_code_table.md: TABLE_CLEAR, TABLE_WR and TABLE_RD. -/

namespace Sys2Proof.Machine

/-- Settles O22: with every entry invalid, ENCODE finds no code for its first symbol (O43). -/
theorem tableClearEmptiesTable : Obligations.TableClearEmptiesTable := by
  refine fun s => ⟨fun hl => lockedCommandsChangeNothing s .tableClear hl (by decide), fun hl => ?_⟩
  have hnone : ∀ a, ((s.clearTable.setSync false).succeeds).ctAt a = none := s.ctAt_clearTable
  refine ⟨_, congrArg complete (ifUnlocked_of_unlocked _ hl), hnone, rfl, rfl, rfl, fun hpos hfits => ?_⟩
  obtain ⟨u, hrun, hframe, -⟩ := encodeUnknownSymbolLeavesPrefix _ 0 hfits hpos
    (fun j hj => absurd hj (Nat.not_lt_zero j)) (hnone _) (by simp [State.codeBits])
  exact ⟨u, hrun, by rw [hframe]; rfl, by rw [hframe]; rfl, by rw [hframe]; rfl⟩

theorem State.ctAt_writeEntry_other (s : State) {a a' : Byte} (c : Code) (h : a' ≠ a) :
    (s.writeEntry a c).ctAt a' = s.ctAt a' := by
  unfold State.writeEntry
  split
  · exact s.ctAt_setCt_other _ h
  · exact s.countSym.ctAt_setCt_other _ h

/-- SYM_COUNT counts an entry that was invalid (43_code_table.md R221). -/
theorem State.symCount_writeEntry (s : State) (a : Byte) (c : Code) :
    (s.writeEntry a c).symCount = if (s.ctAt a).isSome then s.symCount else s.symCount + 1 := by
  unfold State.writeEntry
  split <;> rfl

theorem tableWrite_of_zero {s : State} (h : s.codeLen = 0) :
    tableWrite s = .error .malformedRecord (s.sym.setWidth 32) s :=
  if_pos h

theorem tableWrite_of_length {s : State} (h : s.codeLen ≠ 0) :
    tableWrite s = .ok () ((s.writeEntry s.sym (codeOperand s.codeLen s.codeW)).setSync false) :=
  if_neg h

/-- Settles O23: the three branches of TABLE_WR; the value by `codeOperand_val_toNat`. -/
theorem tableWrWritesEntry : Obligations.TableWrWritesEntry := by
  have run : ∀ s : State, s.lock = false → exec .tableWr s = complete (tableWrite s) := fun s hl =>
    congrArg complete (ifUnlocked_of_unlocked _ hl)
  refine fun s => ⟨fun hl => ?locked, fun hl hzero => ?malformed, fun hl hlen => ?written⟩
  case locked => exact lockedCommandsChangeNothing s .tableWr hl (by decide)
  case malformed => exact (run s hl).trans (congrArg complete (tableWrite_of_zero hzero))
  case written =>
    have hwrite := tableWrite_of_length hlen
    have hframe := (tableWrite_entriesOnly s).of_ok hwrite
    refine ⟨_, codeOperand s.codeLen s.codeW, (run s hl).trans (congrArg complete hwrite),
      s.ctAt_writeEntry_same _ _, rfl, ?_, fun a ha => s.ctAt_writeEntry_other _ ha, s.symCount_writeEntry _ _, rfl,
      congrArg State.succeeds hframe⟩
    rw [codeOperand_val_toNat, codeValue_toNat]

/-- A word of CODE_W0..7 written from a value (30_encoding.md R115). -/
theorem codeWords_toNat (v : BitVec 256) (k : Fin 8) :
    ((codeWords v)[k.val]).toNat = v.toNat / 2 ^ (32 * k.val) % 2 ^ 32 := by
  rw [codeWords, Vector.getElem_ofFn, BitVec.toNat_ofNat]

/-- Settles O24: TABLE_RD spreads the entry, or the value 0, over CODE_W0..7. -/
theorem tableRdReadsEntry : Obligations.TableRdReadsEntry := by
  intro s
  refine ⟨(s.readEntry (s.ctAt s.sym)).succeeds, rfl, ?frame, fun hnone => ?invalid, fun c hc => ?valid⟩
  case frame => cases s.ctAt s.sym <;> rfl
  case invalid =>
    rw [hnone]
    exact ⟨rfl, fun k => BitVec.eq_of_toNat_eq ((codeWords_toNat 0 k).trans (by simp))⟩
  case valid =>
    rw [hc]
    exact ⟨rfl, codeWords_toNat c.val⟩

end Sys2Proof.Machine

/-! PROOFS. The family 44_decode.md: string matching on a table that a tree decodes. -/

namespace Sys2Proof.Machine

/-! ### The inverted table -/

/-- Where no code begins another, the match is the one symbol whose code is the candidate (44_decode.md R256). -/
theorem State.PrefixFree.keyOf_eq_some {s : State} (h : s.PrefixFree) {cand : List Bool} {a : Byte} :
    s.keyOf cand = some a ↔ ∃ c, s.ctAt a = some c ∧ c.bits = cand := by
  rw [State.keyOf, Option.map_eq_some_iff]
  constructor
  · rintro ⟨⟨x, c⟩, hfind, rfl⟩
    exact ⟨c, (s.mem_validEntries x c).1 (List.mem_of_find?_eq_some hfind), by simpa using List.find?_some hfind⟩
  · rintro ⟨c, hc, rfl⟩
    have hfound : (s.validEntries.find? fun e => e.2.bits == c.bits).isSome :=
      List.find?_isSome.2 ⟨(a, c), (s.mem_validEntries a c).2 hc, by simp⟩
    obtain ⟨⟨x, d⟩, hfind⟩ := Option.isSome_iff_exists.1 hfound
    have hd : s.ctAt x = some d := (s.mem_validEntries x d).1 (List.mem_of_find?_eq_some hfind)
    have hbits : d.bits = c.bits := by simpa using List.find?_some hfind
    exact ⟨(x, d), hfind, by_contra fun hne => h x a d c hne hd hc (hbits ▸ List.prefix_rfl)⟩

/-! ### String matching, bit by bit -/

theorem State.matchStream_of_match {s : State} {cand bs : List Bool} {b : Bool} {a : Byte}
    (h : s.keyOf (cand ++ [b]) = some a) :
    s.matchStream cand (b :: bs) = (a :: (s.matchStream [] bs).1, (s.matchStream [] bs).2) := by
  simp [State.matchStream, h]

theorem State.matchStream_of_no_match {s : State} {cand bs : List Bool} {b : Bool}
    (h : s.keyOf (cand ++ [b]) = none) : s.matchStream cand (b :: bs) = s.matchStream (cand ++ [b]) bs := by
  simp [State.matchStream, h]

/-- A candidate that no code begins with collects all the bits that are left. -/
theorem State.matchStream_of_dead {s : State} {cand : List Bool} (h : ∀ q, cand <+: q → s.keyOf q = none)
    (bs : List Bool) : s.matchStream cand bs = ([], cand ++ bs) := by
  induction bs generalizing cand with
  | nil => simp [State.matchStream]
  | cons b bs ih =>
    have hlonger : cand <+: cand ++ [b] := List.prefix_append _ _
    rw [State.matchStream_of_no_match (h _ hlonger), ih fun q hq => h q (hlonger.trans hq), List.append_assoc,
      List.singleton_append]

/-! ### String matching of concatenated codes -/

theorem State.codeBits_append (s : State) (as bs : List Byte) :
    s.codeBits (as ++ bs) = s.codeBits as ++ s.codeBits bs := by simp [State.codeBits]

theorem State.codeBits_singleton {s : State} {a : Byte} {c : Code} (h : s.ctAt a = some c) :
    s.codeBits [a] = c.bits := by simp [State.codeBits, h]

theorem State.codeBits_congr {s t : State} (h : t.ct = s.ct) (as : List Byte) : t.codeBits as = s.codeBits as := by
  simp only [State.codeBits, State.ctAt_congr _ h]

/-- `n` symbols with one code have `n` times its bits. -/
theorem State.length_codeBits_of_forall {s : State} {c : Code} {as : List Byte}
    (h : ∀ a ∈ as, s.ctAt a = some c) : (s.codeBits as).length = as.length * c.len.toNat := by
  induction as with
  | nil => simp [State.codeBits]
  | cons a as ih =>
    obtain ⟨ha, has⟩ := List.forall_mem_cons.1 h
    rw [← List.singleton_append, s.codeBits_append, State.codeBits_singleton ha, List.length_append, ih has,
      Code.length_bits, List.length_append, List.length_singleton, Nat.add_mul, Nat.one_mul]

/-- The rest `p` of a code, behind a candidate that begins it, is matched at its last bit: no shorter candidate is a
code. -/
theorem State.PrefixFree.matchStream_code {s : State} (h : s.PrefixFree) {a : Byte} {c : Code}
    (hc : s.ctAt a = some c) {cand p : List Bool} (hbits : cand ++ p = c.bits) (hp : p ≠ []) (bs : List Bool) :
    s.matchStream cand (p ++ bs) = (a :: (s.matchStream [] bs).1, (s.matchStream [] bs).2) := by
  induction p generalizing cand with
  | nil => exact absurd rfl hp
  | cons b p ih =>
    have hbits' : (cand ++ [b]) ++ p = c.bits := by rw [← hbits, List.append_assoc, List.singleton_append]
    by_cases hlast : p = []
    · subst hlast
      exact State.matchStream_of_match (h.keyOf_eq_some.2 ⟨c, hc, by simpa using hbits'.symm⟩)
    · have hnone : s.keyOf (cand ++ [b]) = none := by
        refine Option.eq_none_iff_forall_ne_some.2 fun x hx => ?_
        obtain ⟨d, hd, hdbits⟩ := h.keyOf_eq_some.1 hx
        have hprefix : d.bits <+: c.bits := ⟨p, by rw [hdbits, hbits']⟩
        obtain rfl : x = a := by_contra fun hne => h x a d c hne hd hc hprefix
        obtain rfl : d = c := Option.some.inj (hd.symm.trans hc)
        exact hlast (by simpa [hdbits] using hbits')
      rw [List.cons_append, State.matchStream_of_no_match hnone, ih hbits' hlast]

/-- String matching gives back the symbols whose codes are concatenated (44_decode.md R258). -/
theorem State.PrefixFree.matchStream_codeBits {s : State} (h : s.PrefixFree) (hlegal : s.TableLegal)
    {as : List Byte} (hcoded : ∀ a ∈ as, s.ctAt a ≠ none) : s.matchStream [] (s.codeBits as) = (as, []) := by
  induction as with
  | nil => rfl
  | cons a as ih =>
    obtain ⟨ha, has⟩ := List.forall_mem_cons.1 hcoded
    obtain ⟨c, hc⟩ := Option.ne_none_iff_exists'.1 ha
    rw [← List.singleton_append, s.codeBits_append, State.codeBits_singleton hc,
      h.matchStream_code hc (List.nil_append _) (hlegal a c hc).bits_ne_nil, ih has]
    rfl

/-! ### String matching along a tree -/

/-- The tree decodes the table and its root is no leaf: what DECODE's walk relies on (10_state.md R37). -/
structure State.Walkable (s : State) : Prop where
  tree : s.TreeMatches
  root : ∃ r, slotOf s.root = some r ∧ leafNode (s.tmAt r) = false

theorem State.Inv.walkable {s : State} (h : s.Inv) (htree : s.TreeMatches) (hsync : s.sync = true)
    (htwo : 2 ≤ s.symCount.toNat) : s.Walkable := by
  obtain ⟨-, r, hr, -, hinternal⟩ := h.rooted hsync
  exact ⟨htree, r, hr, hinternal htwo⟩

theorem State.reach_eq_none_of_prefix {s : State} {p q : List Bool} (hp : s.reach p = none) (h : p <+: q) :
    s.reach q = none := by
  refine Option.eq_none_iff_forall_ne_some.2 fun n hn => ?_
  obtain ⟨m, hm⟩ := State.mem_paths_of_prefix ⟨n, hn⟩ h
  cases hp.symm.trans hm

namespace State.Walkable

variable {s : State}

theorem not_leafAt_nil (h : s.Walkable) (a : Byte) : ¬ s.LeafAt [] a := by
  rintro ⟨n, hn, hleaf, -⟩
  obtain ⟨r, hr, hinternal⟩ := h.root
  obtain rfl := Option.some.inj ((s.reach_nil.symm.trans hn).symm.trans hr)
  exact Bool.false_ne_true (hinternal.symm.trans hleaf)

/-- The leaves' paths are the codes of their symbols. -/
theorem leafAt_iff (h : s.Walkable) {p : List Bool} {a : Byte} :
    s.LeafAt p a ↔ ∃ c, s.ctAt a = some c ∧ c.bits = p := by
  have hbits : ∀ {q b}, s.LeafAt q b → leafBits q = q := fun {q b} hq =>
    if_neg fun (hnil : q = []) => h.not_leafAt_nil b (hnil ▸ hq)
  constructor
  · intro hp
    obtain ⟨c, hc, hcbits⟩ := h.tree.leafCode p a hp
    exact ⟨c, hc, hcbits.trans (hbits hp)⟩
  · rintro ⟨c, hc, rfl⟩
    obtain ⟨q, hq, hcbits⟩ := h.tree.codeLeaf a c hc
    rwa [hcbits, hbits hq]

/-- A candidate matches where its path leads to a leaf. -/
theorem keyOf_eq_some (h : s.Walkable) {p : List Bool} {a : Byte} : s.keyOf p = some a ↔ s.LeafAt p a :=
  h.tree.prefixFree.keyOf_eq_some.trans h.leafAt_iff.symm

theorem keyOf_of_unreached (h : s.Walkable) {p q : List Bool} (hp : s.reach p = none) (hq : p <+: q) :
    s.keyOf q = none := by
  refine Option.eq_none_iff_forall_ne_some.2 fun a ha => ?_
  obtain ⟨n, hn, -⟩ := h.keyOf_eq_some.1 ha
  cases (State.reach_eq_none_of_prefix hp hq).symm.trans hn

/-- From the first bit that leads to NIL on, string matching finds nothing more. -/
theorem matchStream_of_nil_child (h : s.Walkable) {cand : List Bool} {b : Bool} (hdead : s.reach (cand ++ [b]) = none)
    (bs : List Bool) : s.matchStream cand (b :: bs) = ([], cand ++ b :: bs) := by
  rw [State.matchStream_of_no_match (h.keyOf_of_unreached hdead List.prefix_rfl),
    State.matchStream_of_dead (fun _ => h.keyOf_of_unreached hdead), List.append_assoc, List.singleton_append]

theorem keyOf_of_leaf (h : s.Walkable) {p : List Bool} {c : Slot} (hc : s.reach p = some c)
    (hleaf : leafNode (s.tmAt c) = true) : s.keyOf p = some (nodeSym (s.tmAt c)) :=
  h.keyOf_eq_some.2 ⟨c, hc, hleaf, rfl⟩

theorem keyOf_of_internal (h : s.Walkable) {p : List Bool} {c : Slot} (hc : s.reach p = some c)
    (hinternal : leafNode (s.tmAt c) = false) : s.keyOf p = none := by
  refine Option.eq_none_iff_forall_ne_some.2 fun a ha => ?_
  obtain ⟨n, hn, hleaf, -⟩ := h.keyOf_eq_some.1 ha
  obtain rfl := Option.some.inj (hn.symm.trans hc)
  exact Bool.false_ne_true (hinternal.symm.trans hleaf)

/-- On a tree without dead branches the paths, but for the empty one, are the beginnings of codes (44_decode.md
R256). -/
theorem reach_isSome_iff (h : s.Walkable) (htight : s.TreeTight) {p : List Bool} :
    (s.reach p).isSome = true ↔ ∃ a c, s.ctAt a = some c ∧ p <+: c.bits := by
  rw [Option.isSome_iff_exists]
  constructor
  · rintro ⟨n, hn⟩
    obtain ⟨rest, a, hleaf⟩ := htight p n hn
    obtain ⟨c, hc, hbits⟩ := h.leafAt_iff.1 hleaf
    exact ⟨a, c, hc, rest, hbits.symm⟩
  · rintro ⟨a, c, hc, hprefix⟩
    obtain ⟨n, hn, -⟩ := h.leafAt_iff.2 ⟨c, hc, rfl⟩
    exact State.mem_paths_of_prefix ⟨n, hn⟩ hprefix

end State.Walkable

end Sys2Proof.Machine

/-! PROOFS. The family 44_decode.md: DECODE's walk against string matching. -/

namespace Sys2Proof.Machine

/-! ### What DECODE has put out -/

/-- `t` has put out exactly the symbols `out` since DECODE began in `s`, and differs in nothing else. -/
structure Wrote (s : State) (out : List Byte) (t : State) : Prop where
  bytesOnly : BytesOnly s t
  inside : out.length ≤ s.cfg.obufBytes
  outLen : t.outLen.toNat = out.length
  bytes : ∀ k, k < t.outLen.toNat → out[k]? = some (t.bufByte .obuf k)
  tail : TailSame s t

theorem BytesOnly.cfg {s t : State} (h : BytesOnly s t) : t.cfg = s.cfg := by rw [h]

theorem BytesOnly.root {s t : State} (h : BytesOnly s t) : t.root = s.root := by rw [h]

theorem BytesOnly.tmAt {s t : State} (h : BytesOnly s t) (n : Slot) : t.tmAt n = s.tmAt n := by
  rw [h]
  rfl

theorem BytesOnly.streamBit {s t : State} (h : BytesOnly s t) (b : Nat) : t.streamBit b = s.streamBit b := by
  rw [h]
  rfl

namespace Wrote

variable {s t : State} {out : List Byte}

theorem start (s : State) : Wrote s [] s.decodeStart :=
  ⟨rfl, Nat.zero_le _, rfl, fun _ hk => absurd hk (Nat.not_lt_zero _), fun _ _ => rfl⟩

/-- One more symbol, where OBUF has room for it. -/
theorem appendOut (h : Wrote s out t) (v : Byte) (hroom : out.length < s.cfg.obufBytes) :
    Wrote s (out ++ [v]) (t.appendOut v) := by
  have hold := h.outLen
  have hnew : (t.appendOut v).outLen.toNat = t.outLen.toNat + 1 :=
    t.outLen_appendOut_toNat v (by rw [h.bytesOnly.cfg]; omega)
  have hlen : (out ++ [v]).length = out.length + 1 := by simp
  refine ⟨h.bytesOnly.appendOut v, hlen.trans_le hroom, by rw [hnew, hold, hlen], fun k hk => ?_, fun k hk => ?_⟩
  · obtain hlt | rfl := Nat.lt_succ_iff_lt_or_eq.1 (hnew ▸ hk)
    · rw [List.getElem?_append_left (hold ▸ hlt), h.bytes k hlt, t.bufByte_appendOut_other v hlt.ne]
    · rw [t.bufByte_appendOut_same v, hold, List.getElem?_concat_length]
  · rw [t.bufByte_appendOut_other v (by omega), h.tail k (by omega)]

/-- The next symbol is put out, or OBUF is full (44_decode.md R257). -/
theorem emitByte (h : Wrote s out t) (v : Byte) (info : Word) :
    (Machine.emitByte v info t = .ok () (t.appendOut v) ∧ Wrote s (out ++ [v]) (t.appendOut v)) ∨
      (Machine.emitByte v info t = .error .outputOverflow info t ∧ out.length = s.cfg.obufBytes) := by
  have hin := h.inside
  have hlen := h.outLen
  have hcfg := h.bytesOnly.cfg
  obtain ⟨hfull, he⟩ | ⟨hroom, he⟩ := emitByte_cases v info t
  · exact .inr ⟨he, by rw [← hlen, hfull, hcfg]⟩
  · rw [hlen, hcfg] at hroom
    exact .inl ⟨he, h.appendOut v (by omega)⟩

theorem succeeds (h : Wrote s out t) : BytesOnly s.succeeds t.succeeds := congrArg State.succeeds h.bytesOnly

theorem fails (h : Wrote s out t) (code : Byte) (info : Word) : BytesOnly (s.fails code info) (t.fails code info) :=
  congrArg (State.fails · code info) h.bytesOnly

end Wrote

/-! ### The walk -/

section
variable {s : State} {k b nres : Nat} {n c : Slot}

theorem decodeWalk_of_nil_child (hc : childOf (s.tmAt n) (s.streamBit b) = none) :
    decodeWalk (k + 1) b (some n) nres s = .error .invalidCode (BitVec.ofNat 32 b) s := by simp [decodeWalk, hc]

theorem decodeWalk_of_leaf (hc : childOf (s.tmAt n) (s.streamBit b) = some c) (hleaf : leafNode (s.tmAt c) = true) :
    decodeWalk (k + 1) b (some n) nres s =
      (emitByte (nodeSym (s.tmAt c)) (BitVec.ofNat 32 b) s).andThen fun _ s' =>
        decodeWalk k (b + 1) (slotOf s'.root) 0 s' := by simp [decodeWalk, hc, hleaf]

theorem decodeWalk_of_internal (hc : childOf (s.tmAt n) (s.streamBit b) = some c)
    (hinternal : leafNode (s.tmAt c) = false) :
    decodeWalk (k + 1) b (some n) nres s = decodeWalk k (b + 1) (some c) (nres + 1) s := by
  simp [decodeWalk, hc, hinternal]

end

/-- The `k` stream bits from bit `b` on. -/
def State.bitsFrom (s : State) (b k : Nat) : List Bool := (List.range' b k).map s.streamBit

theorem State.bitsFrom_succ (s : State) (b k : Nat) :
    s.bitsFrom b (k + 1) = s.streamBit b :: s.bitsFrom (b + 1) k := by simp [State.bitsFrom, List.range'_succ]

@[simp] theorem State.length_bitsFrom (s : State) (b k : Nat) : (s.bitsFrom b k).length = k := by
  simp [State.bitsFrom]

theorem State.streamBits_eq_bitsFrom (s : State) (n : Nat) : s.streamBits n = s.bitsFrom 0 n := by
  rw [State.streamBits, State.bitsFrom, List.range_eq_range']

/-- How the walk over `n` stream bits ends, where string matching gives the symbols `syms` and leaves `residual`: at
the end of the stream, on a path of the tree; at the first bit that leads to NIL; or at the first symbol without room
in OBUF. -/
inductive DecodeWalkEnds (s : State) (n : Nat) (syms : List Byte) (residual : List Bool) : CmdResult Nat → Prop
  | onPath {t : State} (path : (s.reach residual).isSome = true) (wrote : Wrote s syms t) :
    DecodeWalkEnds s n syms residual (.ok residual.length t)
  | atNil {t : State} {cand rest : List Bool} {x : Bool} {b : Nat} (split : residual = cand ++ x :: rest)
    (path : (s.reach cand).isSome = true) (dead : s.reach (cand ++ [x]) = none) (bit : n = b + 1 + rest.length)
    (le : cand.length ≤ b) (wrote : Wrote s syms t) :
    DecodeWalkEnds s n syms residual (.error .invalidCode (BitVec.ofNat 32 b) t)
  | full {t : State} {out rest : List Byte} {a : Byte} {b : Nat} (split : syms = out ++ a :: rest)
    (atCapacity : out.length = s.cfg.obufBytes) (bit : (s.codeBits (out ++ [a])).length = b + 1)
    (wrote : Wrote s out t) :
    DecodeWalkEnds s n syms residual (.error .outputOverflow (BitVec.ofNat 32 b) t)

/-- DECODE's walk against string matching (44_decode.md R252, R256): from a state that has put out `out`, at the slot
that the candidate `cand` leads to, `k` bits before the end. -/
theorem State.Walkable.decodeWalk_ends {s t : State} (hs : s.Walkable) {k b : Nat} {out : List Byte}
    {cand : List Bool} {n : Slot} (hw : Wrote s out t) (hn : s.reach cand = some n)
    (hinternal : leafNode (s.tmAt n) = false) (hb : b = (s.codeBits out).length + cand.length) :
    DecodeWalkEnds s (b + k) (out ++ (s.matchStream cand (s.bitsFrom b k)).1)
      (s.matchStream cand (s.bitsFrom b k)).2 (decodeWalk k b (some n) cand.length t) := by
  induction k generalizing b out cand n t with
  | zero =>
    have hpath : (s.reach cand).isSome = true := by simp [hn]
    simpa [State.bitsFrom, State.matchStream, decodeWalk] using DecodeWalkEnds.onPath (n := b) hpath hw
  | succ k ih =>
    have htm := hw.bytesOnly.tmAt
    have hbit := hw.bytesOnly.streamBit b
    have hlast : b + (k + 1) = b + 1 + k := by omega
    have hnext {m : Slot} : s.reach (cand ++ [s.streamBit b]) = some m ↔
        childOf (s.tmAt n) (s.streamBit b) = some m := by simp [State.reach_concat, hn, hinternal]
    rw [s.bitsFrom_succ]
    cases hc : childOf (s.tmAt n) (s.streamBit b) with
    | none =>
      have hdead : s.reach (cand ++ [s.streamBit b]) = none :=
        Option.eq_none_iff_forall_ne_some.2 fun m hm => by cases hc.symm.trans (hnext.1 hm)
      rw [hs.matchStream_of_nil_child hdead, decodeWalk_of_nil_child (by rw [htm, hbit, hc]), List.append_nil]
      exact .atNil rfl (by simp [hn]) hdead (by rw [State.length_bitsFrom, hlast]) (by omega) hw
    | some c =>
      have hreach : s.reach (cand ++ [s.streamBit b]) = some c := hnext.2 hc
      have hc' : childOf (t.tmAt n) (t.streamBit b) = some c := by rw [htm, hbit, hc]
      cases hleaf : leafNode (s.tmAt c) with
      | false =>
        rw [State.matchStream_of_no_match (hs.keyOf_of_internal hreach hleaf),
          decodeWalk_of_internal hc' (by rw [htm, hleaf]), hlast]
        simpa using ih hw hreach hleaf (by simp; omega)
      | true =>
        obtain ⟨r, hroot, hr⟩ := hs.root
        obtain ⟨code, hcode, hcbits⟩ := hs.leafAt_iff.1 ⟨c, hreach, hleaf, rfl⟩
        have hbits : (s.codeBits (out ++ [nodeSym (s.tmAt c)])).length = b + 1 := by
          rw [s.codeBits_append, State.codeBits_singleton hcode, hcbits, List.length_append, List.length_append,
            List.length_singleton]
          omega
        rw [State.matchStream_of_match (hs.keyOf_of_leaf hreach hleaf),
          decodeWalk_of_leaf hc' (by rw [htm, hleaf]), htm]
        obtain ⟨he, hw'⟩ | ⟨he, hfull⟩ := hw.emitByte (nodeSym (s.tmAt c)) (BitVec.ofNat 32 b)
        · rw [he, CmdResult.ok_andThen, hw'.bytesOnly.root, hroot, hlast, List.append_cons]
          exact ih hw' (s.reach_nil.trans hroot) hr hbits.symm
        · rw [he, CmdResult.error_andThen]
          exact .full rfl hfull hbits hw

/-! ### DECODE with two or more symbols -/

theorem checkResidue_of_pos {n : Nat} (s : State) (h : n ≠ 0) :
    checkResidue n s = .error .trailingBits (BitVec.ofNat 32 n) s := if_neg h

/-- Behind its operand checks DECODE takes the single-symbol path or the walk (44_decode.md R252, R253). -/
theorem decodeStream_of_checked {s : State} (hsync : s.sync = true)
    (hfits : (s.bitLen.toNat + 7) / 8 ≤ s.cfg.ibufBytes) :
    decodeStream s = if s.symCount = 1 then decodeSingle s.bitLen.toNat s.decodeStart
      else (decodeWalk s.bitLen.toNat 0 (slotOf s.root) 0 s.decodeStart).andThen checkResidue := by
  have hfits' : ¬ s.cfg.ibufBytes < ceil8 s.bitLen.toNat := hfits.not_gt
  rw [decodeStream, hsync, Bool.not_true, if_neg Bool.false_ne_true, if_neg hfits']
  rfl

/-- DECODE with two or more symbols is a walk that ends as string matching says, and then the check for residual
bits. -/
theorem exec_decode_walk {s : State} {syms : List Byte} {residual : List Bool} (hinv : s.Inv) (htree : s.TreeMatches)
    (hsync : s.sync = true) (hfits : (s.bitLen.toNat + 7) / 8 ≤ s.cfg.ibufBytes) (htwo : 2 ≤ s.symCount.toNat)
    (hmatch : s.matchStream [] (s.streamBits s.bitLen.toNat) = (syms, residual)) :
    ∃ r, DecodeWalkEnds s s.bitLen.toNat syms residual r ∧ exec .decode s = complete (r.andThen checkResidue) := by
  have hs := hinv.walkable htree hsync htwo
  obtain ⟨r, hroot, hr⟩ := hs.root
  have hcount : s.symCount ≠ 1 := fun h => by simp [h] at htwo
  have hends := hs.decodeWalk_ends (k := s.bitLen.toNat) (b := 0) (Wrote.start s) (s.reach_nil.trans hroot) hr rfl
  rw [← s.streamBits_eq_bitsFrom, Nat.zero_add, List.nil_append, hmatch] at hends
  have hstream := decodeStream_of_checked hsync hfits
  rw [if_neg hcount, hroot] at hstream
  exact ⟨_, hends, congrArg complete hstream⟩

/-- Settles O47: the walk ends on a path of the tree or at NIL, as string matching says (`exec_decode_walk`). -/
theorem decodeMatchesStringMatching : Obligations.DecodeMatchesStringMatching := by
  intro s syms residual hinv htree hsync hfits htwo hmatch hroom
  obtain ⟨_, hends, he⟩ := exec_decode_walk hinv htree hsync hfits htwo hmatch
  rw [he]
  cases hends with
  | onPath path hw =>
    have hreach : s.reach residual ≠ none := Option.isSome_iff_ne_none.1 path
    by_cases hres : residual = []
    · subst hres
      exact ⟨_, rfl, hw.outLen, hw.bytes, hw.tail, fun _ => hw.succeeds, fun h => absurd rfl h,
        fun h => absurd h hreach⟩
    · rw [CmdResult.ok_andThen, checkResidue_of_pos _ (mt List.length_eq_zero_iff.1 hres)]
      exact ⟨_, rfl, hw.outLen, hw.bytes, hw.tail, fun h => absurd h hres, fun _ _ => hw.fails _ _,
        fun h => absurd h hreach⟩
  | @atNil _ cand rest x b split path dead bit hle hw =>
    have hreach : s.reach residual = none := State.reach_eq_none_of_prefix dead ⟨rest, by simp [split]⟩
    have hlen : residual.length = cand.length + (rest.length + 1) := by simp [split]
    have hbit : s.bitLen.toNat - residual.length + cand.length = b := by omega
    have hbefore : residual.take cand.length = cand := by rw [split, List.take_left]
    have hbehind : residual.take (cand.length + 1) = cand ++ [x] := by
      rw [split, List.append_cons, List.take_left' (by simp)]
    refine ⟨_, rfl, hw.outLen, hw.bytes, hw.tail, fun h => by simp [h] at split, fun _ h => by simp [hreach] at h,
      fun _ => ⟨cand.length, by omega, hbefore.symm ▸ path, hbehind.symm ▸ dead, ?_⟩⟩
    rw [hbit]
    exact hw.fails _ _
  | full split hfull =>
    have hlen := congrArg List.length split
    rw [List.length_append, List.length_cons] at hlen
    omega

/-- Settles O48: string matching finds a symbol behind the ones that fill OBUF, and there the walk ends. -/
theorem decodeOverflowFillsBuffer : Obligations.DecodeOverflowFillsBuffer := by
  intro s syms residual hinv htree hsync hfits htwo hmatch hlong
  obtain ⟨_, hends, he⟩ := exec_decode_walk hinv htree hsync hfits htwo hmatch
  rw [he]
  cases hends with
  | onPath path hw => exact absurd hw.inside hlong.not_ge
  | atNil _ _ _ _ _ hw => exact absurd hw.inside hlong.not_ge
  | @full _ out rest a b split hfull bit hw =>
    have htake : syms.take (s.cfg.obufBytes + 1) = out ++ [a] := by
      rw [split, List.append_cons, ← hfull, List.take_left' (by simp)]
    have hlen : _ = s.cfg.obufBytes := hw.outLen.trans hfull
    rw [htake, bit, Nat.add_sub_cancel]
    refine ⟨_, rfl, hw.fails _ _, hlen, fun k hk => ?_, fun k hk => hw.tail k (hlen.trans_le hk)⟩
    rw [split, List.getElem?_append_left (hfull ▸ hk)]
    exact hw.bytes k (hlen.symm ▸ hk)

/-- Settles O49: by O47 the error says whether the residual is a path, and on a tight tree the paths are the beginnings
of codes. -/
theorem decodeResidualErrorOnTightTree : Obligations.DecodeResidualErrorOnTightTree := by
  intro s t syms residual hinv htree htight hsync hfits htwo hmatch hroom hres ht
  rw [← (hinv.walkable htree hsync htwo).reach_isSome_iff htight]
  obtain ⟨t', ht', -, -, -, -, hpath, hnil⟩ :=
    decodeMatchesStringMatching s syms residual hinv htree hsync hfits htwo hmatch hroom
  obtain rfl : t = t' := Host.Outcome.next.inj (ht.symm.trans ht')
  cases hreach : s.reach residual with
  | some n =>
    rw [hpath hres (by simp [hreach])]
    simp [State.fails]
  | none =>
    obtain ⟨k, -, -, -, hfails⟩ := hnil hreach
    rw [hfails]
    simp [State.fails]

end Sys2Proof.Machine

/-! PROOFS. The family 44_decode.md: DECODE with one symbol, DECODE after ENCODE, DECODE from every state of the
invariant, and that no step faults. -/

namespace Sys2Proof.Machine

/-! ### DECODE with one symbol -/

/-- `m` more copies of the symbol are put out, or OBUF is full before them (44_decode.md R253). -/
theorem Wrote.decodeCopies {s t : State} {a : Byte} {k : Nat} (h : Wrote s (List.replicate k a) t) (len m : Nat) :
    (∃ t', decodeCopies a len m k t = .ok () t' ∧ Wrote s (List.replicate (k + m) a) t') ∨
      (∃ t', decodeCopies a len m k t =
          .error .outputOverflow (BitVec.ofNat 32 (s.cfg.obufBytes * len + len - 1)) t' ∧
        Wrote s (List.replicate s.cfg.obufBytes a) t' ∧ s.cfg.obufBytes < k + m) := by
  induction m generalizing k t with
  | zero => exact .inl ⟨t, rfl, h⟩
  | succ m ih =>
    rw [Machine.decodeCopies]
    obtain ⟨he, h'⟩ | ⟨he, hfull⟩ := h.emitByte a (BitVec.ofNat 32 (k * len + len - 1))
    · have hcount : k + (m + 1) = k + 1 + m := by omega
      rw [he, CmdResult.ok_andThen, hcount]
      exact ih (by rwa [List.replicate_succ'])
    · rw [List.length_replicate] at hfull
      subst hfull
      exact .inr ⟨t, by rw [he, CmdResult.error_andThen], h, by omega⟩

theorem State.soleEntry_eq_some {s : State} {a : Byte} {c : Code} (hentries : s.validEntries = [(a, c)])
    (hlen : c.len ≠ 0) : s.soleEntry = some (a, c) := by
  simpa [State.soleEntry, hentries] using hlen

theorem decodeStream_of_single {s : State} {a : Byte} {c : Code} (hsync : s.sync = true)
    (hfits : (s.bitLen.toNat + 7) / 8 ≤ s.cfg.ibufBytes) (hcount : s.symCount = 1)
    (hsole : s.soleEntry = some (a, c)) :
    decodeStream s = (decodeCopies a c.len.toNat (s.bitLen.toNat / c.len.toNat) 0 s.decodeStart).andThen fun _ s' =>
      checkResidue (s.bitLen.toNat % c.len.toNat) s' := by
  have hsole' : s.decodeStart.soleEntry = some (a, c) := hsole
  rw [decodeStream_of_checked hsync hfits, if_pos hcount, decodeSingle, hsole']

/-- Settles O46: the copies end the command where OBUF is full; behind them comes the check for residual bits. -/
theorem decodeSingleSymbolCopies : Obligations.DecodeSingleSymbolCopies := by
  intro s a c hsync hfits hcount hentries hlen
  have hexec : exec .decode s = _ := congrArg complete
    (decodeStream_of_single hsync hfits hcount (State.soleEntry_eq_some hentries hlen))
  have hcopies {n : Nat} {t : State} (hw : Wrote s (List.replicate n a) t) :
      t.outLen.toNat = n ∧ ∀ k, k < t.outLen.toNat → t.bufByte .obuf k = a :=
    ⟨by simpa using hw.outLen, fun k hk => List.eq_of_mem_replicate (List.mem_of_getElem? (hw.bytes k hk))⟩
  rw [hexec]
  obtain ⟨t, he, hw⟩ | ⟨t, he, hw, hlong⟩ :=
    Wrote.decodeCopies (k := 0) (a := a) (Wrote.start s) c.len.toNat (s.bitLen.toNat / c.len.toNat)
  · rw [he, CmdResult.ok_andThen]
    rw [Nat.zero_add] at hw
    obtain ⟨hout, hbytes⟩ := hcopies hw
    have hin : s.bitLen.toNat / c.len.toNat ≤ s.cfg.obufBytes := by simpa using hw.inside
    obtain ⟨hzero, hr⟩ | ⟨hpos, hr⟩ := checkResidue_cases (s.bitLen.toNat % c.len.toNat) t
    · refine ⟨_, congrArg complete hr, hout.trans (Nat.min_eq_left hin).symm, hbytes, hw.tail, ?_⟩
      rw [if_neg hin.not_gt, if_neg (not_not.2 hzero)]
      exact hw.succeeds
    · refine ⟨_, congrArg complete hr, hout.trans (Nat.min_eq_left hin).symm, hbytes, hw.tail, ?_⟩
      rw [if_neg hin.not_gt, if_pos hpos]
      exact hw.fails _ _
  · rw [he, CmdResult.error_andThen]
    rw [Nat.zero_add] at hlong
    obtain ⟨hout, hbytes⟩ := hcopies hw
    refine ⟨_, rfl, hout.trans (Nat.min_eq_right hlong.le).symm, hbytes, hw.tail, ?_⟩
    rw [if_pos hlong]
    exact hw.fails _ _

/-! ### DECODE after ENCODE -/

/-- The packed bytes of a stream, read bit by bit, give the stream back (00_scope.md R13, 20_memory.md R82). -/
theorem State.streamBits_eq_of_bytes {u : State} {bits : List Bool}
    (h : ∀ k j, k < (bits.length + 7) / 8 → j < 8 →
      (u.bufByte .ibuf k).getLsbD (7 - j) = bits.getD (8 * k + j) false) : u.streamBits bits.length = bits := by
  refine List.ext_getElem (by simp [State.streamBits]) fun i _ hi => ?_
  have hbit : u.streamBit i = bits.getD (8 * (i / 8) + i % 8) false := h (i / 8) (i % 8) (by omega) (by omega)
  rw [Nat.div_add_mod, List.getD_eq_getElem _ _ hi] at hbit
  simpa [State.streamBits] using hbit

/-- An ENCODE that raises no error had codes for its input, and packed them (42_encode.md R203). -/
theorem exec_encode_ok {s t : State} (h : exec .encode s = .next t) (hok : t.err = false) :
    (∀ a ∈ s.inputSyms, s.ctAt a ≠ none) ∧ t.bitLen.toNat = (s.codeBits s.inputSyms).length ∧
      ∀ k j, k < ((s.codeBits s.inputSyms).length + 7) / 8 → j < 8 →
        (t.bufByte .obuf k).getLsbD (7 - j) = (s.codeBits s.inputSyms).getD (8 * k + j) false := by
  obtain ⟨t', ht', hend⟩ := encodePacksConcatenatedCodes s
  obtain rfl : t = t' := Host.Outcome.next.inj (h.symm.trans ht')
  split at hend
  next hfits =>
    obtain ⟨-, hcoded, -⟩ := hfits
    obtain ⟨-, hbitLen, -, hbytes, -⟩ := hend
    exact ⟨hcoded, hbitLen, hbytes⟩
  next =>
    obtain ⟨herr, -⟩ := hend
    cases hok.symm.trans herr

theorem State.Inv.soleCode {s : State} (h : s.Inv) (hone : s.symCount = 1) :
    ∃ a c, s.validEntries = [(a, c)] ∧ c.len ≠ 0 := by
  have hlength : s.validEntries.length = 1 := by
    rw [← h.counts, hone]
    rfl
  obtain ⟨⟨a, c⟩, he⟩ := List.length_eq_one_iff.1 hlength
  have hc : s.ctAt a = some c := (s.mem_validEntries a c).1 (he ▸ List.mem_singleton_self _)
  obtain ⟨hpos, -⟩ := h.legal a c hc
  exact ⟨a, c, he, fun h0 => by simp [h0] at hpos⟩

/-- DECODE of a stream of concatenated codes puts out their symbols, for one symbol or more (44_decode.md R258). -/
theorem exec_decode_codeBits {u : State} {as : List Byte} (hinv : u.Inv) (htree : u.TreeMatches)
    (hsync : u.sync = true) (hfits : (u.bitLen.toNat + 7) / 8 ≤ u.cfg.ibufBytes)
    (hcoded : ∀ a ∈ as, u.ctAt a ≠ none) (hlen : u.bitLen.toNat = (u.codeBits as).length)
    (hstream : u.streamBits u.bitLen.toNat = u.codeBits as) (hroom : as.length ≤ u.cfg.obufBytes) :
    ∃ v, exec .decode u = .next v ∧ v = { u.succeeds with obuf := v.obuf, outLen := v.outLen } ∧
      v.outLen.toNat = as.length ∧ ∀ k, k < as.length → as[k]? = some (v.bufByte .obuf k) := by
  obtain ⟨hone, -⟩ := hinv.rooted hsync
  obtain htwo | hsingle : 2 ≤ u.symCount.toNat ∨ u.symCount.toNat = 1 := by omega
  · have hmatch : u.matchStream [] (u.streamBits u.bitLen.toNat) = (as, []) := by
      rw [hstream, htree.prefixFree.matchStream_codeBits hinv.legal hcoded]
    obtain ⟨v, hv, hout, hbytes, -, hsucceeds, -⟩ :=
      decodeMatchesStringMatching u as [] hinv htree hsync hfits htwo hmatch hroom
    exact ⟨v, hv, hsucceeds rfl, hout, fun k hk => hbytes k (hout.symm ▸ hk)⟩
  · have hcount : u.symCount = 1 := BitVec.eq_of_toNat_eq hsingle
    obtain ⟨a, c, hentries, hc⟩ := hinv.soleCode hcount
    have hsole : ∀ x ∈ as, x = a ∧ u.ctAt x = some c := fun x hx => by
      obtain ⟨d, hd⟩ := Option.ne_none_iff_exists'.1 (hcoded x hx)
      have hmem := (u.mem_validEntries x d).2 hd
      rw [hentries, List.mem_singleton] at hmem
      obtain ⟨rfl, rfl⟩ := Prod.mk.inj hmem
      exact ⟨rfl, hd⟩
    have hpos : 0 < c.len.toNat := Nat.pos_of_ne_zero fun h0 => hc (BitVec.eq_of_toNat_eq h0)
    have hbits : u.bitLen.toNat = as.length * c.len.toNat :=
      hlen.trans (State.length_codeBits_of_forall fun x hx => (hsole x hx).2)
    obtain ⟨v, hv, hout, hbytes, -, hend⟩ := decodeSingleSymbolCopies u a c hsync hfits hcount hentries hc
    rw [hbits, Nat.mul_div_cancel _ hpos] at hout hend
    rw [Nat.min_eq_left hroom] at hout
    rw [if_neg hroom.not_gt, Nat.mul_mod_left, if_neg (not_not.2 rfl)] at hend
    refine ⟨v, hv, hend, hout, fun k hk => ?_⟩
    rw [hbytes k (hout.symm ▸ hk), List.getElem?_eq_getElem hk, (hsole _ (List.getElem_mem hk)).1]

/-- Settles O50: the stream DECODE reads is the input's codes, which `exec_decode_codeBits` decodes. -/
theorem decodeInvertsEncode : Obligations.DecodeInvertsEncode := by
  intro s t u _ hencode hok hcfg hct hbitLen hfits hbytes hinv hsync htree hroom
  obtain ⟨hcoded, hlen, hpacked⟩ := exec_encode_ok hencode hok
  have hcodes : u.codeBits s.inputSyms = s.codeBits s.inputSyms := State.codeBits_congr hct _
  have hinLen : s.inputSyms.length = s.inLen.toNat := by simp [State.inputSyms]
  have hstream : u.streamBits u.bitLen.toNat = u.codeBits s.inputSyms := by
    rw [hbitLen, hlen, hcodes]
    refine State.streamBits_eq_of_bytes fun k j hk hj => ?_
    rw [hbytes k (hlen.symm ▸ hk), hpacked k j hk hj]
  obtain ⟨v, hv, hframe, hout, hsyms⟩ := exec_decode_codeBits hinv htree hsync (hbitLen ▸ hcfg ▸ hfits)
    (fun a ha => State.ctAt_congr a hct ▸ hcoded a ha) (by rw [hbitLen, hlen, hcodes]) hstream
    (by rw [hinLen, hcfg]; exact hroom)
  refine ⟨v, hv, hframe, BitVec.eq_of_toNat_eq (hout.trans hinLen), fun k hk => ?_⟩
  have hk' := hsyms k (hinLen.symm ▸ hk)
  simpa [State.inputSyms, hk, eq_comm] using hk'

/-! ### DECODE from every state of the invariant -/

/-- The errors DECODE can raise (44_decode.md R251 to R257). -/
def decodeErrors : List ErrCode := [.notReady, .invalidCode, .trailingBits, .badLength, .outputOverflow]

/-- An error that this part of a command raises is one of `cs`. -/
def CmdResult.RaisesOnly {α : Type} (cs : List ErrCode) (r : CmdResult α) : Prop :=
  ∀ c info s, r = .error c info s → c ∈ cs

theorem CmdResult.RaisesOnly.andThen {α β : Type} {cs : List ErrCode} {r : CmdResult α}
    {f : α → State → CmdResult β} (hr : r.RaisesOnly cs) (hf : ∀ a s, (f a s).RaisesOnly cs) :
    (r.andThen f).RaisesOnly cs := fun c info s h => by
  obtain h | ⟨a, u, -, h⟩ := CmdResult.andThen_eq_error.1 h
  · exact hr c info s h
  · exact hf a u c info s h

theorem CmdResult.raisesOnly_ok {α : Type} (cs : List ErrCode) (a : α) (s : State) :
    (CmdResult.ok a s).RaisesOnly cs := fun _ _ _ h => by cases h

theorem CmdResult.raisesOnly_stop {α : Type} (cs : List ErrCode) (f : Fault) :
    (CmdResult.stop f : CmdResult α).RaisesOnly cs := fun _ _ _ h => by cases h

theorem CmdResult.raisesOnly_error {α : Type} {cs : List ErrCode} {c : ErrCode} (hc : c ∈ cs) (info : Word)
    (s : State) : (CmdResult.error c info s : CmdResult α).RaisesOnly cs := fun _ _ _ h => by
  cases h
  exact hc

theorem emitByte_raises (v : Byte) (info : Word) (s : State) : (emitByte v info s).RaisesOnly decodeErrors := by
  obtain ⟨-, h⟩ | ⟨-, h⟩ := emitByte_cases v info s <;> rw [h]
  · exact CmdResult.raisesOnly_error (by decide) info s
  · exact CmdResult.raisesOnly_ok _ _ _

theorem checkResidue_raises (n : Nat) (s : State) : (checkResidue n s).RaisesOnly decodeErrors := by
  obtain ⟨-, h⟩ | ⟨-, h⟩ := checkResidue_cases n s <;> rw [h]
  · exact CmdResult.raisesOnly_ok _ _ _
  · exact CmdResult.raisesOnly_error (by decide) _ s

theorem decodeCopies_raises (a : Byte) (len m k : Nat) (s : State) :
    (decodeCopies a len m k s).RaisesOnly decodeErrors := by
  induction m generalizing k s with
  | zero => exact CmdResult.raisesOnly_ok _ _ _
  | succ m ih => exact (emitByte_raises _ _ _).andThen fun _ _ => ih _ _

theorem decodeWalk_raises (k b : Nat) (cur : Option Slot) (nres : Nat) (s : State) :
    (decodeWalk k b cur nres s).RaisesOnly decodeErrors := by
  induction k generalizing b cur nres s with
  | zero => exact CmdResult.raisesOnly_ok _ _ _
  | succ k ih =>
    cases cur with
    | none => exact CmdResult.raisesOnly_stop _ _
    | some n =>
      cases hc : childOf (s.tmAt n) (s.streamBit b) with
      | none =>
        rw [decodeWalk_of_nil_child hc]
        exact CmdResult.raisesOnly_error (by decide) _ _
      | some c =>
        cases hleaf : leafNode (s.tmAt c) with
        | true =>
          rw [decodeWalk_of_leaf hc hleaf]
          exact (emitByte_raises _ _ _).andThen fun _ _ => ih _ _ _ _
        | false =>
          rw [decodeWalk_of_internal hc hleaf]
          exact ih _ _ _ _

theorem decodeSingle_raises (n : Nat) (s : State) : (decodeSingle n s).RaisesOnly decodeErrors := by
  unfold decodeSingle
  split
  · exact CmdResult.raisesOnly_stop _ _
  · exact (decodeCopies_raises _ _ _ _ _).andThen fun _ _ => checkResidue_raises _ _

theorem decodeStream_raises (s : State) : (decodeStream s).RaisesOnly decodeErrors := by
  unfold decodeStream
  split
  · exact CmdResult.raisesOnly_error (by decide) _ _
  · split
    · exact CmdResult.raisesOnly_error (by decide) _ _
    · dsimp only
      split
      · exact decodeSingle_raises _ _
      · exact (decodeWalk_raises _ _ _ _ _).andThen fun _ _ => checkResidue_raises _ _

theorem errNumber_of_mem_decodeErrors : ∀ c ∈ decodeErrors, 11 ≤ (errNumber c).toNat := by decide

/-- A state of the invariant holds what DECODE asks for: a sole entry where SYM_COUNT is 1, else a root (log 10). -/
theorem State.Inv.decodeStream_runs {s : State} (h : s.Inv) : (decodeStream s).Runs := by
  cases hsync : s.sync with
  | false =>
    rw [decodeStream_of_unsynced hsync]
    exact CmdResult.runs_error _ _ _
  | true =>
    obtain ⟨-, r, hroot, -⟩ := h.rooted hsync
    refine Machine.decodeStream_runs (fun hone => ?_) fun _ => by simp [hroot]
    obtain ⟨a, c, hentries, hlen⟩ := h.soleCode hone
    simp [State.soleEntry_eq_some hentries hlen]

/-- Settles O45: DECODE runs, its frame and OBUF's tail are those of O51 and O52, and its errors are
`decodeErrors`. -/
theorem decodeCompletes : Obligations.DecodeCompletes := by
  intro s hinv
  obtain ⟨t, ht⟩ := hinv.decodeStream_runs.complete
  have hframe := commandsWriteOnlyTheirRegisters .decode s t ht
  obtain ⟨-, -, htail⟩ := commandsKeepOtherBytes .decode s t ht
  refine ⟨t, ht, hframe, htail (.inr rfl), ?_⟩
  obtain ⟨u, hu, rfl⟩ | ⟨c, info, u, hu, rfl⟩ := complete_eq_next.1 ht
  · have hbytes : BytesOnly s u := (decodeStream_bytesOnly s).of_ok hu
    exact .inl ⟨by rw [hbytes]; rfl, by rw [hbytes]; rfl, by rw [hbytes]; rfl⟩
  · exact .inr ⟨rfl, errNumber_of_mem_decodeErrors c (decodeStream_raises s c info u hu), errNumber_le c⟩

/-! ### No step faults -/

theorem hostStep_ne_fault (i : Input) (rest : List Input) (s : State) (f : Fault) : hostStep i rest s ≠ .fault f := by
  cases i with
  | access a =>
    simp only [hostStep, hostAccess_eq]
    split <;> exact nofun
  | wait => exact nofun
  | reset => exact nofun

/-- Settles O60: only commands fault, and of them only DECODE, which the invariant lets complete (O45). -/
theorem stepNeverFaults : Obligations.StepNeverFaults := by
  intro s f hinv hfault
  obtain ⟨-, e⟩ | ⟨w, i, -, -, e⟩ | ⟨w, _, -, -, e⟩ | ⟨i, rest, -, e⟩ := step_cases s
  · cases e.symm.trans hfault
  · obtain ⟨t, ht⟩ : ∃ t, exec i s.tick = .next t := by
      by_cases hi : i = .decode
      · obtain ⟨t, ht, -⟩ := decodeCompletes s.tick (s.tick_quietOnly.inv hinv)
        exact ⟨t, hi ▸ ht⟩
      · exact exec_next i hi s.tick
    cases (e.trans ht).symm.trans hfault
  · cases e.symm.trans hfault
  · exact hostStep_ne_fault i rest s.tick f (e.symm.trans hfault)

end Sys2Proof.Machine

/-! PROOFS. The family 70_reset_and_hazards.md: the reset values, and that they meet the machine's invariants. -/

namespace Sys2Proof.Machine

/-! ### The reset values -/

/-- The capacities fit the size registers, which so read them exactly (10_state.md R56, R57). -/
theorem State.toNat_regWord_bufSize (s : State) (b : Buf) : (s.regWord (.bufSize b)).toNat = s.bufSize b := by
  have hlt : s.bufSize b < 2 ^ 32 := by
    cases b with
    | ibuf => exact s.cfg.ibufBytes_le.trans_lt (by decide)
    | obuf => exact s.cfg.obufBytes_le.trans_lt (by decide)
  rw [State.regWord, BitVec.toNat_ofNat, Nat.mod_eq_of_lt hlt]

/-- With no cell written since reset, every byte of a buffer is a draw (10_state.md R61, R62). -/
theorem State.bufByte_of_nil {s : State} {b : Buf} (h : s.bufMem b = []) (a : Nat) :
    s.bufByte b a = bufDraw s.epoch b a := by
  rw [State.bufByte, h, Memory.read_nil, Option.getD_none]

/-- The state after a reset has the values of 70_reset_and_hazards.md R340, whatever the parameters and the number of
the reset. -/
theorem State.resetWith_atReset (c : Config) (e : Nat) : (State.resetWith c e).AtReset e where
  id := rfl
  version := rfl
  lock := rfl
  irqEn := rfl
  pending := rfl
  done := rfl
  err := rfl
  ovr := rfl
  sync := rfl
  errCode := rfl
  errInfo := rfl
  inLen := rfl
  bitLen := rfl
  outLen := rfl
  sym := rfl
  codeLen := rfl
  codeW k := Vector.getElem_replicate k.isLt
  nodeIdx := rfl
  nodeData := rfl
  root := rfl
  nodeCount := rfl
  symCount := rfl
  ibufAddr := rfl
  obufAddr := rfl
  ibufSize := State.toNat_regWord_bufSize _ .ibuf
  obufSize := State.toNat_regWord_bufSize _ .obuf
  table a := Vector.getElem_replicate a.isLt
  tree n := Vector.getElem_replicate n.isLt
  buffers b a := State.bufByte_of_nil (by cases b <;> rfl) a
  irq := rfl

/-- What reset does not touch (the inputs, the scheduler, the last word read, the count of draws; log 13) is no state of
the block. -/
theorem State.hardReset_atReset (s : State) : s.hardReset.AtReset (s.epoch + 1) :=
  { State.resetWith_atReset s.cfg (s.epoch + 1) with }

/-- Settles O11: the reset is taken, idle or busy (`State.turn_host`), and neither the scheduler nor the inputs matter
to what it leaves. -/
theorem resetGivesResetValues : Obligations.ResetGivesResetValues := by
  refine ⟨fun s rest hin hmove => ?_, State.resetWith_atReset _ _⟩
  refine ⟨(s.tick.setInputs rest).hardReset, step_of_turn_host (State.turn_host.2 ⟨hin, hmove⟩), ?_⟩
  have hvalues := (s.tick.setInputs rest).hardReset_atReset
  rwa [State.setInputs_epoch, State.tick_epoch] at hvalues

/-! ### The invariants -/

/-- The invariant does not look at the number of resets, in which alone the reset state differs from its own reset. -/
theorem State.reset_inv : State.reset.Inv :=
  { State.reset.hardReset_inv with }

/-- Settles O57: the invariant as after any reset; that the tree decodes the table is not asked while SYNC is 0. -/
theorem resetMeetsInvariants : Obligations.ResetMeetsInvariants :=
  ⟨State.reset_inv, fun hsync => by cases hsync⟩

end Sys2Proof.Machine
